-- ==== Sys2Proof/Word.lean ====
section
/-! DEFINITION. The word types of the c64-3d FXR unit (spec 00 R8, R10): a byte, a 16-bit host
address, a 16-bit 8.8 fixed-point number and the 24-bit result. -/

namespace Sys2Proof

/-- A byte, the unit's only access width and register width (00 R8, R10). -/
abbrev Byte := BitVec 8

/-- A 16-bit host address (20 R39). -/
abbrev Addr := BitVec 16

/-- An 8.8 fixed-point number: the value is `toInt / 256` (00 R11). -/
abbrev Fixed88 := BitVec 16

/-- The 24-bit result register's width (10 R28). -/
abbrev Res24 := BitVec 24

/-- The offset of a register in the 32-byte window (10 R16). -/
abbrev Offset := BitVec 5

end Sys2Proof
end

