-- ==== Sys2Proof/Machine/Edge.lean ====
section
/-! DEFINITION. The rasterizer's hidden edge-walker state as plain data (10 R33). -/

namespace Sys2Proof.Machine

/-- A screen vertex, 2 × 8 bits (10 R33). -/
structure Vertex where
  /-- Column, growing to the right (00 R14). -/
  x : Byte
  /-- Row, growing downward (00 R14). -/
  y : Byte
  deriving DecidableEq, Repr, Inhabited

/-- The edge-walker state of 10 R33. It lives only while a FILLTRI executes. -/
structure EdgeState where
  /-- DET, the signed area (42 R94). -/
  det : Int
  /-- V0, the top vertex (42 R95). -/
  v0 : Vertex
  /-- V1, the middle vertex (42 R95). -/
  v1 : Vertex
  /-- V2, the bottom vertex (42 R95). -/
  v2 : Vertex
  /-- PAR, the swap parity of the sort (42 R95). -/
  par : Bool
  /-- SHORTLEFT, true when the short edges are on the left (42 R97). -/
  shortLeft : Bool
  /-- LPOS, the long edge's position (42 R99). -/
  lpos : Fixed88
  /-- LSLOPE, the long edge's increment per scanline (42 R98). -/
  lslope : Fixed88
  /-- SPOS, the current short edge's position (42 R100, R101). -/
  spos : Fixed88
  /-- SSLOPE, the current short edge's increment per scanline (42 R100, R101). -/
  sslope : Fixed88
  /-- Y, the current scanline (42 R102). -/
  y : Byte
  /-- YEND, the exclusive end of the current trapezoid (42 R102). -/
  yend : Byte
  deriving DecidableEq, Repr, Inhabited

end Sys2Proof.Machine
end

