-- ==== Sys2Proof/Config.lean ====
section
/-! DEFINITION. What an implementation fixes (00 R9) and the free values the spec leaves open. A free
value is a constant with no body: nothing in Lean can evaluate it or prove a value of it. -/

namespace Sys2Proof

/-- How the initial half-step `slope/2` rounds (00 R9, 42 R99). -/
inductive HalfSlope where
  /-- An arithmetic right shift by 1, the spec's default (92 D26). -/
  | asr
  /-- Division truncating toward zero. -/
  | trunc
  deriving DecidableEq, Repr, Inhabited

/-- A range of host addresses: `size` bytes from `base` on, wrapping at 0xFFFF (20 R41). -/
structure Region where
  base : Addr
  size : Nat
  deriving DecidableEq, Repr

/-- The open parameters of 00 R9 that a rule's value depends on, and the platform's memory map as far
as a rule asks for it. A machine carries them in its state as constants, so that a statement about
every state is a statement about every setting. DESIGN CHOICE (log 5, 7, 8), safe: no step changes
them. -/
structure Config where
  /-- UNIT_BASE: the host address of register offset 0x00; every value lets the 32-byte window end
  at or below 0xFFFF (00 R9, 92 D2). -/
  unitBase : Fin 65505
  /-- HALF_SLOPE (42 R99). -/
  halfSlope : HalfSlope
  /-- The ranges of the host's address space that are not plain RAM, such as ROM and memory-mapped
  I/O: the platform's (20 R40, R52, 70 R140). The register window need not be listed. -/
  notRam : List Region
  deriving DecidableEq, Repr

/-- FREE VALUE (log 9). LATENCY (00 R9, 70 R143): how many turns the host may take between the
accepted CMD write and the unit's atomic step, for the n-th draw. -/
opaque Config.latency : Nat → Nat

/-- FREE VALUE (log 12). The byte a framebuffer cell of a command abandoned by reset holds
afterwards (70 R146), for the n-th draw. -/
opaque Config.freeByte : Nat → Byte

/-- FREE VALUE (log 10). The hidden edge state after a FILLTRI has completed (10 R33), for the n-th
draw. -/
opaque Config.freeEdge : Nat → Machine.EdgeState

end Sys2Proof
end

