-- ==== Sys2Proof/Syntax.lean ====
section
/-! DEFINITION. The commands of the unit (30 R61), the names of its registers (10 R16), the bus
operations of a host (30 R68) and the statements of a host script (30 R66, R67). -/

namespace Sys2Proof

/-- The 15 commands of the opcode table. A command holds no operand: every operand is in a register
(30 R59). -/
inductive Instr where
  | nop
  | clrerr
  | mulu8
  | muls8
  | muls8u8
  | muls16u8
  | divfx
  | clear
  | setpix
  | getpix
  | spantop
  | spanbot
  | spandual
  | filltri
  | span2
  deriving DecidableEq, Repr

/-- The read/write data registers, each one byte with a written mark (10 R24 to R27, R29, R37). -/
inductive DataReg where
  | fbbaseL
  | fbbaseH
  | opaL
  | opaH
  | opb
  | color
  | p0
  | p1
  | p2
  | p3
  | p4
  | p5
  deriving DecidableEq, Repr

/-- The named registers of the window (10 R16). -/
inductive Reg where
  | cmd
  | status
  | errCode
  | triRes
  | data (d : DataReg)
  | res0
  | res1
  | res2
  deriving DecidableEq, Repr

/-- The vertex aliases of P0 to P5 (10 R29). -/
def Reg.ax : Reg := .data .p0
def Reg.ay : Reg := .data .p1
def Reg.bx : Reg := .data .p2
def Reg.byy : Reg := .data .p3
def Reg.cx : Reg := .data .p4
def Reg.cy : Reg := .data .p5

/-- The bus transactions of a host (30 R68), `wait` as the polling loop it is, and the reset input's
two edges (70 R132). DESIGN CHOICE (log 28): the edges stand in the host's own queue. -/
inductive HostOp where
  /-- `W off val`: a host write of a byte to UNIT_BASE + off. -/
  | write (off : Offset) (val : Byte)
  /-- `R off`: a host read of UNIT_BASE + off. -/
  | read (off : Offset)
  /-- `WM addr val`: a host memory write. -/
  | writeMem (addr : Addr) (val : Byte)
  /-- `RM addr`: a host memory read. -/
  | readMem (addr : Addr)
  /-- `R 01` repeated until bit 0 of the value read is 0; each repetition observes its value. -/
  | wait
  /-- The platform asserts the reset input. -/
  | assertReset
  /-- The platform releases the reset input. -/
  | releaseReset
  deriving DecidableEq, Repr

/-- The 16-bit registers a script may name whole (30 R67). -/
inductive Reg16 where
  | fbbase
  | opa
  deriving DecidableEq, Repr

/-- The statements and pseudo-statements of a host script (30 R66, R67). An immediate is the number
the script writes; `Stmt.wellFormed` gives its range. -/
inductive Stmt where
  /-- `st REG, #v` -/
  | st (r : Reg) (v : Int)
  /-- `ld REG` -/
  | ld (r : Reg)
  /-- `cmd MNEMONIC` -/
  | cmd (i : Instr)
  /-- `ldm addr` -/
  | ldm (addr : Addr)
  /-- `stm addr, #v` -/
  | stm (addr : Addr) (v : Int)
  /-- `st16 REG16, #v16` -/
  | st16 (r : Reg16) (v : Int)
  /-- `wait` -/
  | wait
  /-- `run MNEMONIC` -/
  | run (i : Instr)
  /-- `ld16 REG16` -/
  | ld16 (r : Reg16)
  /-- `ld24 RES` -/
  | ld24
  /-- `label:`, which marks a line and makes no transaction -/
  | label (name : String)
  deriving DecidableEq, Repr

end Sys2Proof
end

