-- ==== Sys2Proof/WellFormed.lean ====
section
/-! DEFINITION. Well-formedness of commands and of script statements (30 R66, R67). The
duties of a host's sequence of bus operations (30 R69) are in Machine/Duty.lean. -/

namespace Sys2Proof

/-- Every command is well formed: a command byte holds no operand (30 R59), so there is nothing to
check beyond the constructor. -/
def Instr.wellFormed : Instr → Bool
  | .nop | .clrerr | .mulu8 | .muls8 | .muls8u8 | .muls16u8 | .divfx | .clear | .setpix | .getpix
  | .spantop | .spanbot | .spandual | .filltri | .span2 => true

/-- An 8-bit immediate: `#$hh`, `#ddd` (0..255) or `#-ddd` (-128..-1) (30 R66). -/
def immediate8 (v : Int) : Bool := decide (-128 ≤ v) && decide (v ≤ 255)

/-- A 16-bit immediate. A negative one is allowed for OPA only, down to -32768 (30 R67). -/
def immediate16 : Reg16 → Int → Bool
  | .fbbase, v => decide (0 ≤ v) && decide (v ≤ 65535)
  | .opa, v => decide (-32768 ≤ v) && decide (v ≤ 65535)

/-- The immediate ranges of 30 R66 and R67. -/
def Stmt.wellFormed : Stmt → Bool
  | .st _ v => immediate8 v
  | .stm _ v => immediate8 v
  | .st16 r v => immediate16 r v
  | .ld _ | .cmd _ | .ldm _ | .wait | .run _ | .ld16 _ | .ld24 | .label _ => true

end Sys2Proof
end

