-- ==== Sys2Proof/Decode.lean ====
section
/-! DEFINITION. The decoder, total on the 256 command bytes (30 R59, R61, R62), the encoder, the
register map (10 R16), and the encoding of host script statements as bus transactions (30 R68). -/

namespace Sys2Proof

/-- Why a byte is no command. -/
inductive DecodeError where
  /-- One of the 241 reserved byte values (30 R62). -/
  | reserved (byte : Byte)
  /-- No byte at all, or more than the one byte a command has (30 R59). -/
  | length
  deriving DecidableEq, Repr

/-- The decoder: by the full 8-bit value (30 R60, R61). -/
def decode (b : Byte) : Except DecodeError Instr :=
  match b.toNat with
  | 0x00 => .ok .nop
  | 0x0F => .ok .clrerr
  | 0x10 => .ok .mulu8
  | 0x11 => .ok .muls8
  | 0x12 => .ok .muls8u8
  | 0x13 => .ok .muls16u8
  | 0x14 => .ok .divfx
  | 0x20 => .ok .clear
  | 0x21 => .ok .setpix
  | 0x22 => .ok .getpix
  | 0x23 => .ok .spantop
  | 0x24 => .ok .spanbot
  | 0x25 => .ok .spandual
  | 0x30 => .ok .filltri
  | 0x31 => .ok .span2
  | _ => .error (.reserved b)

/-- The decoder on a list of bytes: a command is exactly one byte (30 R59). -/
def decodeBytes : List Byte → Except DecodeError Instr
  | [b] => decode b
  | _ => .error .length

/-- The encoder, from the opcode map (30 R61). -/
def encode : Instr → Byte
  | .nop => 0x00
  | .clrerr => 0x0F
  | .mulu8 => 0x10
  | .muls8 => 0x11
  | .muls8u8 => 0x12
  | .muls16u8 => 0x13
  | .divfx => 0x14
  | .clear => 0x20
  | .setpix => 0x21
  | .getpix => 0x22
  | .spantop => 0x23
  | .spanbot => 0x24
  | .spandual => 0x25
  | .filltri => 0x30
  | .span2 => 0x31

/-- FAM, bits 7:4 of a command byte (30 R60). Informative: decoding is by the whole byte. -/
def family (b : Byte) : Nat := b.toNat / 16

/-- The instruction the decoder reads from a table word: a command is one byte, so a word above 255
holds further bytes and is no command. -/
def decodeTableWord (nbits w : Nat) : Option Instr :=
  if nbits ≤ 8 ∧ w < 256 then
    match decode (BitVec.ofNat 8 w) with
    | .ok i => some i
    | .error _ => none
  else none

/-- The offset of a data register (10 R16). -/
def DataReg.offset : DataReg → Offset
  | .fbbaseL => 0x04
  | .fbbaseH => 0x05
  | .opaL => 0x06
  | .opaH => 0x07
  | .opb => 0x08
  | .color => 0x09
  | .p0 => 0x10
  | .p1 => 0x11
  | .p2 => 0x12
  | .p3 => 0x13
  | .p4 => 0x14
  | .p5 => 0x15

/-- The offset of a register (10 R16). -/
def Reg.offset : Reg → Offset
  | .cmd => 0x00
  | .status => 0x01
  | .errCode => 0x02
  | .triRes => 0x03
  | .data d => d.offset
  | .res0 => 0x0A
  | .res1 => 0x0B
  | .res2 => 0x0C

/-- The register at an offset; `none` for the reserved offsets 0x0D to 0x0F and 0x16 to 0x1F
(10 R16, R30). -/
def Reg.ofOffset (off : Offset) : Option Reg :=
  match off.toNat with
  | 0x00 => some .cmd
  | 0x01 => some .status
  | 0x02 => some .errCode
  | 0x03 => some .triRes
  | 0x04 => some (.data .fbbaseL)
  | 0x05 => some (.data .fbbaseH)
  | 0x06 => some (.data .opaL)
  | 0x07 => some (.data .opaH)
  | 0x08 => some (.data .opb)
  | 0x09 => some (.data .color)
  | 0x0A => some .res0
  | 0x0B => some .res1
  | 0x0C => some .res2
  | 0x10 => some (.data .p0)
  | 0x11 => some (.data .p1)
  | 0x12 => some (.data .p2)
  | 0x13 => some (.data .p3)
  | 0x14 => some (.data .p4)
  | 0x15 => some (.data .p5)
  | _ => none

/-- The low and the high byte register of a 16-bit register (10 R24, R25). -/
def Reg16.low : Reg16 → DataReg
  | .fbbase => .fbbaseL
  | .opa => .opaL

def Reg16.high : Reg16 → DataReg
  | .fbbase => .fbbaseH
  | .opa => .opaH

/-- The bus transactions of a statement (30 R67, R68). A negative immediate is written as its
two's-complement byte. -/
def Stmt.encode : Stmt → List HostOp
  | .st r v => [.write r.offset (BitVec.ofInt 8 v)]
  | .ld r => [.read r.offset]
  | .cmd i => [.write Reg.cmd.offset (Sys2Proof.encode i)]
  | .ldm a => [.readMem a]
  | .stm a v => [.writeMem a (BitVec.ofInt 8 v)]
  | .st16 r v =>
    [.write r.low.offset (BitVec.ofInt 8 v),
     .write r.high.offset ((BitVec.ofInt 16 v).extractLsb' 8 8)]
  | .wait => [.wait]
  | .run i => [.write Reg.cmd.offset (Sys2Proof.encode i), .wait]
  | .ld16 r => [.read r.low.offset, .read r.high.offset]
  | .ld24 => [.read Reg.res0.offset, .read Reg.res1.offset, .read Reg.res2.offset]
  | .label _ => []

/-- The bus transactions of a host script, in order (30 R68). -/
def encodeScript (p : List Stmt) : List HostOp := p.flatMap Stmt.encode

end Sys2Proof
end

