-- ==== Sys2Proof/Machine/Script.lean ====
section
/-! DEFINITION. The register window seen from the host's address space (10 R16), and where plain RAM
is (20 R40, 70 R140). -/

namespace Sys2Proof

/-- The register offset a host address reaches, if it lies in the register window (10 R16). -/
def Config.windowOffset (c : Config) (a : Addr) : Option Offset :=
  if (a - BitVec.ofNat 16 c.unitBase.val).toNat < 32 then
    some (BitVec.ofNat 5 (a - BitVec.ofNat 16 c.unitBase.val).toNat)
  else none

/-- A host memory access inside the register window is an access to that register (10 R16).
DEDUCED (log 17), safe. -/
def Config.resolve (c : Config) : HostOp → HostOp
  | .writeMem a v =>
    match c.windowOffset a with
    | some off => .write off v
    | none => .writeMem a v
  | .readMem a =>
    match c.windowOffset a with
    | some off => .read off
    | none => .readMem a
  | .write off v => .write off v
  | .read off => .read off
  | .wait => .wait
  | .assertReset => .assertReset
  | .releaseReset => .releaseReset

/-! ### The platform's memory map, as far as the unit's rules ask for it (20 R40, R52, 70 R140) -/

/-- A host address lies in the range. -/
def Region.holds (r : Region) (a : Addr) : Bool := decide ((a - r.base).toNat < r.size)

/-- The range and the framebuffer region of 1000 bytes at `fb` share an address: the one that starts
inside the other is found (20 R40). -/
def Region.meets (r : Region) (fb : Addr) : Bool :=
  (decide (0 < r.size) && decide ((r.base - fb).toNat < 1000)) || r.holds fb

/-- The register window `[UNIT_BASE, UNIT_BASE + 0x1F]` (10 R16). -/
def Config.window (c : Config) : Region := { base := BitVec.ofNat 16 c.unitBase.val, size := 32 }

/-- A host address holds plain RAM. Every address the platform does not list as something else does
(log 5). -/
def Config.plainRam (c : Config) (a : Addr) : Bool := !c.notRam.any fun r => r.holds a

/-- A framebuffer region at `fb` breaks 70 R140: it overlaps the register window or leaves plain
RAM. -/
def Config.misplaced (c : Config) (fb : Addr) : Bool := (c.window :: c.notRam).any fun r => r.meets fb

end Sys2Proof
end

