-- ==== Sys2Proof/Machine/State.lean ====
section
/-! DEFINITION. The state of the machine as plain data, why a step can stop, and the state at launch
(10_state.md, 70 R133). -/

namespace Sys2Proof.Machine

/-- The architectural fault codes (60 R118). -/
inductive FaultCode where
  | none
  | illegalCmd
  | divZero
  | badColor
  | range
  | parity
  deriving DecidableEq, Repr

/-- TRIRES, the outcome of the last FILLTRI that completed without a fault (10 R23). -/
inductive TriRes where
  | drawn
  | culled
  | zeroHeight
  | noneYet
  deriving DecidableEq, Repr

/-- The sequencer (10 R17). -/
inductive Sequencer where
  | idle
  | busy (op : Byte)
  deriving DecidableEq, Repr

/-- The kinds of entry in the model's fault record: the architectural faults (60 R121) and the two
kinds the hardware does not report (93 part 1). -/
inductive RecordKind where
  | arch (code : FaultCode)
  | uninit
  | hostHazard
  deriving DecidableEq, Repr

/-- One entry of the fault record: the kind and the position in the script of the command or access
(60 R121; log 23). -/
structure RecordEntry where
  kind : RecordKind
  pos : Nat
  deriving DecidableEq, Repr

/-- A data register: the byte it holds and its written mark (10 R37). -/
structure Tracked where
  val : Byte
  written : Bool
  deriving DecidableEq, Repr

/-- The read/write data registers (10 R16, R24 to R27, R29). -/
structure DataRegs where
  fbbaseL : Tracked
  fbbaseH : Tracked
  opaL : Tracked
  opaH : Tracked
  opb : Tracked
  color : Tracked
  p0 : Tracked
  p1 : Tracked
  p2 : Tracked
  p3 : Tracked
  p4 : Tracked
  p5 : Tracked
  deriving DecidableEq, Repr

/-- The whole state. -/
structure State where
  /-- The open parameters UNIT_BASE and HALF_SLOPE (00 R9) and the platform's ranges that are not plain
  RAM (20 R40), which no step changes. -/
  cfg : Config
  /-- The sequencer (10 R17). -/
  seq : Sequencer
  /-- LASTCMD (10 R18). -/
  lastCmd : Byte
  /-- STATUS.BUSY (10 R21). -/
  busy : Bool
  /-- STATUS.ERR (10 R21). -/
  err : Bool
  /-- ERRCODE (10 R22). -/
  errCode : FaultCode
  /-- TRIRES (10 R23). -/
  triRes : TriRes
  /-- FBBASE, OPA, OPB, COLOR, P0 to P5 (10 R24 to R27, R29). -/
  regs : DataRegs
  /-- RES (10 R28). -/
  res : Res24
  /-- The written mark of RES (10 R37). -/
  resWritten : Bool
  /-- The hidden edge-walker state (10 R33). -/
  edge : EdgeState
  /-- Host memory: address and byte, addresses strictly rising, no byte equal to what an unlisted
  address reads as (20 R39; log 4). -/
  mem : List Host.Cell
  /-- Addresses, strictly rising, of the bytes a command abandoned by reset left unknown (70 R146). -/
  unknown : List Nat
  /-- The reset input is asserted (70 R132). -/
  inReset : Bool
  /-- The model's fault record, oldest first (60 R121). -/
  record : List RecordEntry
  /-- MODEL'S OWN: the host's pending bus operations (30 R68; log 14). -/
  script : List HostOp
  /-- MODEL'S OWN: the position of the next operation (log 23). -/
  pos : Nat
  /-- MODEL'S OWN: the position of the last accepted CMD write (log 23). -/
  cmdPos : Nat
  /-- MODEL'S OWN: the values the script observed, oldest first; `none` where the spec gives the
  access no value (30 R66; log 16). -/
  obs : List (Option Byte)
  /-- MODEL'S OWN: an accepted command's completion has not been observed yet (70 R137). -/
  awaiting : Bool
  /-- MODEL'S OWN: host turns left before the unit's step (00 R9 LATENCY; log 9). -/
  turns : Nat
  /-- MODEL'S OWN: how many free values have been drawn (log 11). -/
  draws : Nat
  deriving DecidableEq, Repr

/-- Why the machine stops. -/
inductive Fault where
  /-- Raised by `step` when the fault record holds a HOST_HAZARD: the spec does not say what happens
  after one (70 R137, R145; log 1). Safe: no state is claimed. -/
  | afterHostHazard
  deriving DecidableEq, Repr

/-- Why the machine gives no meaning. -/
inductive Refusal where
  /-- Raised by an arm of `exec` that has no meaning yet. Safe. -/
  | notModelled (mnemonic : String)
  /-- Raised by a command that accesses the framebuffer, or by a reset that abandons a drawing command
  with pixels, where a host has written both bytes of FBBASE and the region they place overlaps the
  register window or leaves plain RAM: the results are unspecified and 'a model refuses such a
  placement' (20 R40, 70 R140, 92 D13, 93 I12; log 6). Safe. -/
  | framebufferMisplaced
  /-- Raised by a host memory access outside the register window to an address that is not plain RAM:
  what stands there is the platform's and unknown to the unit (20 R52; log 5). Safe. -/
  | notPlainRam
  deriving DecidableEq, Repr

/-- A data register nothing has written since reset. DESIGN CHOICE (log 2), unsafe: the spec gives no
value; the model holds 0x00 and keeps the mark clear (10 R36, R37). -/
def Tracked.unwritten : Tracked := { val := 0, written := false }

/-- The data registers after reset (70 R133; log 2). -/
def DataRegs.reset : DataRegs where
  fbbaseL := .unwritten
  fbbaseH := .unwritten
  opaL := .unwritten
  opaH := .unwritten
  opb := .unwritten
  color := .unwritten
  p0 := .unwritten
  p1 := .unwritten
  p2 := .unwritten
  p3 := .unwritten
  p4 := .unwritten
  p5 := .unwritten

/-- The hidden edge state at launch. DESIGN CHOICE (log 2, 10), unsafe only for a claim that names
this field: nothing reads it before FILLTRI writes it (10 R33). -/
def EdgeState.reset : EdgeState where
  det := 0
  v0 := { x := 0, y := 0 }
  v1 := { x := 0, y := 0 }
  v2 := { x := 0, y := 0 }
  par := false
  shortLeft := false
  lpos := 0
  lslope := 0
  spos := 0
  sslope := 0
  y := 0
  yend := 0

/-- The machine right after reset, at launch (10 R36, 70 R133). The setting of the open parameters is
DESIGN CHOICE (log 7, 8), and so is a host space that is plain RAM everywhere but the register window
(log 5); memory lists nothing and every byte reads 0x00 (log 4). -/
def State.reset : State where
  cfg := { unitBase := 0xDE00, halfSlope := .asr, notRam := [] }
  seq := .idle
  lastCmd := 0x00
  busy := false
  err := false
  errCode := .none
  triRes := .noneYet
  regs := DataRegs.reset
  res := 0
  resWritten := false
  edge := EdgeState.reset
  mem := []
  unknown := []
  inReset := false
  record := []
  script := []
  pos := 0
  cmdPos := 0
  obs := []
  awaiting := false
  turns := 0
  draws := 0

end Sys2Proof.Machine
end

