-- ==== Sys2Proof/Machine/Ops.lean ====
section
/-! DEFINITION. The named operations over memory, registers and the fault record, fault entry and the
return from it (00 R11, R12; 20_memory.md; 60 R121, R124). -/

namespace Sys2Proof.Machine

/-! ### Width conversions (00 R11) -/

/-- `wrap_16`. -/
def wrap16 (i : Int) : BitVec 16 := BitVec.ofInt 16 i

/-- `wrap_24`. -/
def wrap24 (i : Int) : Res24 := BitVec.ofInt 24 i

/-- `tdiv`: division rounded toward zero. -/
def tdiv (a b : Int) : Int := Int.tdiv a b

/-- `floor (a / 2^k)` for `asr`. -/
def floorDiv (a b : Int) : Int := Int.fdiv a b

/-! ### Memory (20 R39, R40) -/

/-- What an address that memory does not list reads as. DESIGN CHOICE (log 4), unsafe: the spec says
only that the contents are the platform's (70 R133). -/
def Mem.unlisted : Byte := 0x00

/-- `MemRead(a, 1)` (00 R12). -/
def Mem.read : List Host.Cell → Nat → Byte
  | [], _ => Mem.unlisted
  | (b, v) :: m, a => if b = a then v else Mem.read m a

/-- `MemWrite(a, 1, v)` (00 R12), keeping the canonical form. -/
def Mem.write : List Host.Cell → Nat → Byte → List Host.Cell
  | [], a, v => if v = Mem.unlisted then [] else [(a, v)]
  | (b, w) :: m, a, v =>
    if a < b then
      if v = Mem.unlisted then (b, w) :: m else (a, v) :: (b, w) :: m
    else if a = b then
      if v = Mem.unlisted then m else (a, v) :: m
    else (b, w) :: Mem.write m a v

/-- The canonical form from address `lo` on: addresses strictly rising, inside the 16-bit space, and
no byte equal to what an unlisted address reads as. -/
def Mem.wfFrom (lo : Nat) : List Host.Cell → Bool
  | [] => true
  | (a, v) :: m =>
    decide (lo ≤ a) && decide (a < 65536) && decide (v ≠ Mem.unlisted) && Mem.wfFrom (a + 1) m

/-- The canonical form of memory. -/
def Mem.wf (m : List Host.Cell) : Bool := Mem.wfFrom 0 m

/-- Insert an address into a strictly rising list. -/
def insertAddr (a : Nat) : List Nat → List Nat
  | [] => [a]
  | b :: l => if a < b then a :: b :: l else if a = b then b :: l else b :: insertAddr a l

/-- Addresses strictly rising from `lo` on. -/
def risingFrom (lo : Nat) : List Nat → Bool
  | [] => true
  | a :: l => decide (lo ≤ a) && risingFrom (a + 1) l

/-! ### Data registers (10 R16, R37) -/

/-- The data register of a name. -/
def DataRegs.get (r : DataRegs) : DataReg → Tracked
  | .fbbaseL => r.fbbaseL
  | .fbbaseH => r.fbbaseH
  | .opaL => r.opaL
  | .opaH => r.opaH
  | .opb => r.opb
  | .color => r.color
  | .p0 => r.p0
  | .p1 => r.p1
  | .p2 => r.p2
  | .p3 => r.p3
  | .p4 => r.p4
  | .p5 => r.p5

/-- Replace the data register of a name. Each byte is an independent register (10 R32). -/
def DataRegs.set (r : DataRegs) (d : DataReg) (t : Tracked) : DataRegs :=
  match d with
  | .fbbaseL => { r with fbbaseL := t }
  | .fbbaseH => { r with fbbaseH := t }
  | .opaL => { r with opaL := t }
  | .opaH => { r with opaH := t }
  | .opb => { r with opb := t }
  | .color => { r with color := t }
  | .p0 => { r with p0 := t }
  | .p1 => { r with p1 := t }
  | .p2 => { r with p2 := t }
  | .p3 => { r with p3 := t }
  | .p4 => { r with p4 := t }
  | .p5 => { r with p5 := t }

/-- FBBASE, from its two bytes, the low one at the lower offset (10 R24). -/
def DataRegs.fbbase (r : DataRegs) : Addr := r.fbbaseH.val ++ r.fbbaseL.val

/-- Both bytes of FBBASE have their written mark, so that the framebuffer region is placed (10 R37). -/
def DataRegs.placed (r : DataRegs) : Bool := r.fbbaseL.written && r.fbbaseH.written

/-- A host write of a data register: the byte, and its written mark set (10 R37). -/
def State.setData (s : State) (d : DataReg) (v : Byte) : State :=
  { s with regs := s.regs.set d { val := v, written := true } }

/-- `RES <- v`: all 24 bits, and the written mark (10 R28, R37). -/
def State.setRes (s : State) (v : Res24) : State := { s with res := v, resWritten := true }

/-! ### The fault record (60 R121, 93 part 1) -/

/-- Enter a fault in the model's record, which nothing clears. -/
def State.log (s : State) (k : RecordKind) (pos : Nat) : State :=
  { s with record := s.record ++ [{ kind := k, pos := pos }] }

/-- A host hazard has been recorded (70 R137 to R139). -/
def State.hazarded (s : State) : Bool := s.record.any fun e => decide (e.kind = .hostHazard)

/-- A command reads these data registers (30 R64): UNINIT is recorded when one of them has no written
mark (10 R37). The command then runs with the values held (log 3). -/
def State.noteReads (s : State) (ds : List DataReg) : State :=
  if ds.all fun d => (s.regs.get d).written then s else s.log .uninit s.cmdPos

/-! ### Fault entry and the return from it (60 R121, R124) -/

/-- `raise Fault(code)`: STATUS.ERR and ERRCODE, the record, and nothing else (60 R121). BUSY and the
sequencer are cleared when the command completes, as for every command (10 R20). -/
def State.raise (s : State) (code : FaultCode) : State :=
  { s with
    err := true
    errCode := code
    record := s.record ++ [{ kind := .arch code, pos := s.cmdPos }] }

/-- The return from the error state: ERR and ERRCODE cleared; the record keeps its entries
(43 R117, 60 R121, R124). -/
def State.clearErr (s : State) : State := { s with err := false, errCode := .none }

/-! ### The framebuffer (20 R40 to R47) -/

/-- FBBASE, the host address of framebuffer byte 0 (10 R24). -/
def State.fbbase (s : State) : Addr := s.regs.fbbase

/-- `wrap_16(base + off)`, as a key of memory (20 R41). -/
def cellAddr (base : Addr) (off : Nat) : Nat := (base + BitVec.ofNat 16 off).toNat

/-- A host address lies in the framebuffer region of 1000 bytes (20 R40). -/
def inRegion (base : Addr) (a : Addr) : Bool := decide ((a - base).toNat < 1000)

/-- The host has placed the framebuffer where 70 R140 forbids it: the region overlaps the unit's own
register window or leaves plain RAM. While a byte of FBBASE has no written mark the host has placed
nothing: a command then computes with the value held, and UNINIT is recorded (10 R37). DESIGN CHOICE
(log 6): the region at that value is taken for plain memory, wherever it lies. -/
def State.misplaced (s : State) : Bool := s.regs.placed && s.cfg.misplaced s.fbbase

/-- The offset of the cell byte that holds pixel (x, y) (20 R44). -/
def cellOff (x y : Nat) : Nat := y / 2 * 40 + x / 2

/-- `Shift(x, y)`: 6 TL, 4 TR, 2 BL, 0 BR (20 R44). -/
def pixelShift (x y : Nat) : Nat := 6 - 2 * (2 * (y % 2) + x % 2)

/-- `SlotMask(x, y)` (20 R44). -/
def slotMask (x y : Nat) : Byte := (0x03 : Byte) <<< pixelShift x y

/-- `FBAddr(x, y)` as a key of memory (20 R44). -/
def State.pixelAddr (s : State) (x y : Nat) : Nat := cellAddr s.fbbase (cellOff x y)

/-- The value of pixel (x, y) in memory (20 R45). -/
def State.pixel (s : State) (x y : Nat) : Byte :=
  (Mem.read s.mem (s.pixelAddr x y) >>> pixelShift x y) &&& 0x03

/-- One write of a cell byte: the framebuffer offset and the slots written. -/
structure CellWrite where
  off : Nat
  mask : Byte
  deriving DecidableEq, Repr

/-- The color replicated into the four slots (20 R46). -/
def spread (c : Byte) : Byte := c * 0x55

/-- `(M[a] & ~m) | (cc & m)` (20 R46). -/
def mergeCell (old cc mask : Byte) : Byte := (old &&& ~~~mask) ||| (cc &&& mask)

/-- One cell write: a direct store when all four slots are written, else a read-modify-write
(20 R47). -/
def writeCell (base : Addr) (cc : Byte) (m : List Host.Cell) (w : CellWrite) : List Host.Cell :=
  if w.mask = 0xFF then Mem.write m (cellAddr base w.off) cc
  else
    Mem.write m (cellAddr base w.off) (mergeCell (Mem.read m (cellAddr base w.off)) cc w.mask)

/-- The cell writes of a command, in order (20 R46, R48; log 21). -/
def writeCells (base : Addr) (cc : Byte) (m : List Host.Cell) (ws : List CellWrite) :
    List Host.Cell :=
  ws.foldl (writeCell base cc) m

/-- The slots that a list of cell writes covers in the byte at an address. -/
def maskAt (base : Addr) (ws : List CellWrite) (a : Nat) : Byte :=
  ws.foldr (fun w acc => (if cellAddr base w.off = a then w.mask else 0#8) ||| acc) 0#8

/-- Some read-modify-write among the cell writes reads a byte that a reset has left unknown
(70 R146). -/
def readsUnknown (base : Addr) (unknown : List Nat) (ws : List CellWrite) : Bool :=
  ws.any fun w => decide (w.mask ≠ 0xFF) && decide (cellAddr base w.off ∈ unknown)

/-- The bytes still unknown after the cell writes: a byte becomes known when all four of its slots are
covered, and only then. -/
def stillUnknown (base : Addr) (unknown : List Nat) (ws : List CellWrite) : List Nat :=
  unknown.filter fun a => decide (maskAt base ws a ≠ 0xFF)

/-- The effect of a non-empty list of cell writes with the command's color. A read of an unknown byte
is recorded (70 R146; log 12). -/
def State.putCells (s : State) (ws : List CellWrite) : State :=
  { s with
    mem := writeCells s.fbbase (spread s.regs.color.val) s.mem ws
    unknown := stillUnknown s.fbbase s.unknown ws
    record :=
      if readsUnknown s.fbbase s.unknown ws then
        s.record ++ [{ kind := .uninit, pos := s.cmdPos }]
      else s.record }

/-- A command's cell writes. With none, no access is made (41 R89). A region the host has misplaced is
refused (20 R40, 92 D13, 93 I12; log 6). -/
def State.drawCells (s : State) (ws : List CellWrite) : Host.Outcome State Fault Refusal :=
  match ws with
  | [] => .next s
  | w :: rest =>
    if s.misplaced then .refused .framebufferMisplaced
    else .next (s.putCells (w :: rest))

/-- What a framebuffer or raster command is going to do: raise a fault, or write these cells. -/
abbrev Plan := Except FaultCode (List CellWrite)

/-- Carry out a plan: fault entry (60 R121), or the cell writes. -/
def State.carryOut (s : State) : Plan → Host.Outcome State Fault Refusal
  | .error code => .next (s.raise code)
  | .ok ws => s.drawCells ws

/-! ### Reset (70 R132, R133, R146) -/

/-- The unit's state after reset; host memory, the fault record, the parameters and the host's own
side are untouched (70 R133). DESIGN CHOICE (log 30): the completion of a command that reset ends is
awaited no longer, although the spec names only a read of STATUS with BUSY = 0 for that (70 R137). -/
def State.resetUnit (s : State) : State :=
  { s with
    seq := .idle
    lastCmd := 0x00
    busy := false
    err := false
    errCode := .none
    triRes := .noneYet
    regs := DataRegs.reset
    res := 0
    resWritten := false
    edge := EdgeState.reset
    awaiting := false
    turns := 0 }

/-- The bytes of an abandoned command's cells become unknown: each holds a free value and is marked
(70 R146; log 12). -/
def State.forget (s : State) (addrs : List Nat) : State :=
  addrs.foldl
    (fun t a =>
      { t with
        mem := Mem.write t.mem a (Config.freeByte t.draws)
        unknown := insertAddr a t.unknown
        draws := t.draws + 1 })
    s

end Sys2Proof.Machine
end

