-- ==== Sys2Proof/Machine/Operands.lean ====
section
/-! DEFINITION. Every operand form: how a command reads its registers (30 R63), and the pixel sets of
the framebuffer commands (41 R81, 42 R104). -/

namespace Sys2Proof.Machine

/-! ### Operand assembly (30 R63) -/

/-- OPA_L as `zext_8`. -/
def State.opaU8 (s : State) : Int := s.regs.opaL.val.toNat

/-- OPA_L as `sext_8`. -/
def State.opaS8 (s : State) : Int := s.regs.opaL.val.toInt

/-- OPA as `sext_16`. -/
def State.opaS16 (s : State) : Int := (s.regs.opaH.val ++ s.regs.opaL.val : BitVec 16).toInt

/-- OPB as `zext_8`. -/
def State.opbU8 (s : State) : Int := s.regs.opb.val.toNat

/-- OPB as `sext_8`. -/
def State.opbS8 (s : State) : Int := s.regs.opb.val.toInt

/-- COLOR as `zext_8`. -/
def State.color (s : State) : Nat := s.regs.color.val.toNat

/-- P0 as `zext_8`: x, xl, ax or xl1. -/
def State.p0 (s : State) : Nat := s.regs.p0.val.toNat

/-- P1 as `zext_8`: y or ay. -/
def State.p1 (s : State) : Nat := s.regs.p1.val.toNat

/-- P2 as `zext_8`: xr, bx or xr1. -/
def State.p2 (s : State) : Nat := s.regs.p2.val.toNat

/-- P3 as `zext_8`: by. -/
def State.p3 (s : State) : Nat := s.regs.p3.val.toNat

/-- P4 as `zext_8`: cx or xl2. -/
def State.p4 (s : State) : Nat := s.regs.p4.val.toNat

/-- P5 as `zext_8`: cy or xr2. -/
def State.p5 (s : State) : Nat := s.regs.p5.val.toNat

/-- The data registers a command reads (30 R64). UNINIT is checked on the whole set whatever path the
command takes. -/
def readSet : Instr → List DataReg
  | .nop => []
  | .clrerr => []
  | .mulu8 => [.opaL, .opb]
  | .muls8 => [.opaL, .opb]
  | .muls8u8 => [.opaL, .opb]
  | .muls16u8 => [.opaL, .opaH, .opb]
  | .divfx => [.opaL, .opb]
  | .clear => [.color, .fbbaseL, .fbbaseH]
  | .setpix => [.color, .p0, .p1, .fbbaseL, .fbbaseH]
  | .getpix => [.p0, .p1, .fbbaseL, .fbbaseH]
  | .spantop => [.color, .p0, .p1, .p2, .fbbaseL, .fbbaseH]
  | .spanbot => [.color, .p0, .p1, .p2, .fbbaseL, .fbbaseH]
  | .spandual => [.color, .p0, .p1, .p2, .fbbaseL, .fbbaseH]
  | .filltri => [.color, .p0, .p1, .p2, .p3, .p4, .p5, .fbbaseL, .fbbaseH]
  | .span2 => [.color, .p0, .p1, .p2, .p4, .p5, .fbbaseL, .fbbaseH]

/-- The commands that write memory (20 R42, 30 R64). -/
def writesMemory : Instr → Bool
  | .clear | .setpix | .spantop | .spanbot | .spandual | .filltri | .span2 => true
  | .nop | .clrerr | .mulu8 | .muls8 | .muls8u8 | .muls16u8 | .divfx | .getpix => false

/-! ### Pixel sets as cell writes (41 R81, R88) -/

/-- The slots of the top row, TL and TR. -/
def topRow : Byte := 0xF0

/-- The slots of the bottom row, BL and BR. -/
def bottomRow : Byte := 0x0F

/-- The slots of both rows. -/
def bothRows : Byte := 0xFF

/-- The slots of the left column, TL and BL. -/
def leftColumn : Byte := 0xCC

/-- The slots of the right column, TR and BR. -/
def rightColumn : Byte := 0x33

/-- The slots of one row of a cell: the top row for an even y, the bottom row for an odd y (00 R14). -/
def rowOf (y : Nat) : Byte := if y % 2 = 0 then topRow else bottomRow

/-- The columns of cell column cx that `[xl, xr)` covers: left iff `2cx >= xl`, right iff
`2cx + 1 < xr`, for a cell between the first and the last of the interval (41 R81). -/
def columnsOf (xl xr cx : Nat) : Byte :=
  (if xl ≤ 2 * cx then leftColumn else 0) ||| (if 2 * cx + 1 < xr then rightColumn else 0)

/-- The cell writes of `[xl, xr)` in the given rows of the cell row that holds scanline y: cells
`xl >> 1` through `(xr - 1) >> 1`, ascending; none when the interval is empty (41 R81, R88, R89). -/
def spanCells (rows : Byte) (y xl xr : Nat) : List CellWrite :=
  if xl < xr then
    (List.range' (xl / 2) ((xr - 1) / 2 + 1 - xl / 2)).map fun cx =>
      { off := y / 2 * 40 + cx, mask := rows &&& columnsOf xl xr cx }
  else []

/-- `Row(y, xl, xr)` (41 R81). -/
def rowCells (y xl xr : Nat) : List CellWrite := spanCells (rowOf y) y xl xr

/-- `Row(y, xl, xr) ∪ Row(y + 1, xl, xr)` for an even y (41 R87). -/
def dualCells (y xl xr : Nat) : List CellWrite := spanCells bothRows y xl xr

/-! ### The dual-row dispatch (42 R104, R105) -/

/-- A sub-call of the dispatch (42 R105). -/
inductive SubCall where
  | top (l r : Nat)
  | bot (l r : Nat)
  | dual (l r : Nat)
  deriving DecidableEq, Repr

/-- A sub-call whose interval is empty is skipped entirely (42 R105). -/
def SubCall.nonEmpty : SubCall → Bool
  | .top l r => decide (l < r)
  | .bot l r => decide (l < r)
  | .dual l r => decide (l < r)

/-- The cells of a sub-call, with y the even row of the dispatch (42 R105). -/
def SubCall.cells (y : Nat) : SubCall → List CellWrite
  | .top l r => rowCells y l r
  | .bot l r => rowCells (y + 1) l r
  | .dual l r => dualCells y l r

/-- The case table of 42 R104, first matching line first: cases 0, 5, 6, 1, 2, 3, 4. -/
def dispatchTable (l1 r1 l2 r2 : Nat) : List SubCall :=
  if r1 ≤ l1 ∨ r2 ≤ l2 then [.top l1 r1, .bot l2 r2]
  else if r1 ≤ l2 then [.top l1 r1, .bot l2 r2]
  else if r2 ≤ l1 then [.bot l2 r2, .top l1 r1]
  else if l1 ≤ l2 ∧ r2 ≤ r1 then [.top l1 l2, .dual l2 r2, .top r2 r1]
  else if l2 ≤ l1 ∧ r1 ≤ r2 then [.bot l2 l1, .dual l1 r1, .bot r1 r2]
  else if l1 < l2 then [.top l1 l2, .dual l2 r1, .bot r1 r2]
  else [.bot l2 l1, .dual l1 r2, .top r2 r1]

/-- The sub-calls of the dispatch that are made, in order (42 R104, R105). -/
def dispatchCalls (l1 r1 l2 r2 : Nat) : List SubCall :=
  (dispatchTable l1 r1 l2 r2).filter SubCall.nonEmpty

/-- The cell writes of `Dispatch(y, l1, r1, l2, r2, c)` (42 R104). -/
def dispatchCells (y l1 r1 l2 r2 : Nat) : List CellWrite :=
  (dispatchCalls l1 r1 l2 r2).flatMap (SubCall.cells y)

end Sys2Proof.Machine
end

