-- ==== Sys2Proof/Machine/Flags.lean ====
section
/-! DEFINITION. The unit's only flags, STATUS.BUSY and STATUS.ERR (10 R21, R35), and the register
bytes a host reads (10 R16 to R30). The unit has no condition codes and no arithmetic flags. -/

namespace Sys2Proof.Machine

/-- STATUS: BUSY in bit 0, ERR in bit 1, bits 7:2 read 0 (10 R21). -/
def State.status (s : State) : Byte :=
  (if s.busy then 0x01 else 0x00) ||| (if s.err then 0x02 else 0x00)

/-- The byte ERRCODE reads as (60 R118). -/
def FaultCode.byte : FaultCode → Byte
  | .none => 0x00
  | .illegalCmd => 0x01
  | .divZero => 0x02
  | .badColor => 0x03
  | .range => 0x04
  | .parity => 0x05

/-- The byte TRIRES reads as (10 R23). -/
def TriRes.byte : TriRes → Byte
  | .drawn => 0x00
  | .culled => 0x01
  | .zeroHeight => 0x02
  | .noneYet => 0xFF

/-- The end of every command: STATUS.BUSY 0 and the sequencer IDLE (10 R20). -/
def State.complete (s : State) : State := { s with busy := false, seq := .idle }

/-- The only byte the sequencer accepts while STATUS.ERR = 1, CLRERR (10 R19). -/
def clrerrByte : Byte := 0x0F

/-- Command issue: a host write of `v` to CMD while the sequencer is IDLE (10 R19). `pos` is the
position of the write in the script. The host turns until the unit's step are a free number
(log 9). -/
def State.issue (s : State) (v : Byte) (pos : Nat) : State :=
  if s.err = true ∧ v ≠ clrerrByte then s
  else
    { s with
      lastCmd := v
      busy := true
      seq := .busy v
      awaiting := true
      cmdPos := pos
      turns := Config.latency s.draws
      draws := s.draws + 1 }

/-- From the CMD write that sets BUSY until the host reads STATUS with BUSY = 0 (70 R137). -/
def State.mustWait (s : State) : Bool := s.busy || s.awaiting

/-- The byte a host read of an offset gives, and `none` where the register holds an unspecified
value: a data register or RES without its written mark (10 R37; log 16). Reserved offsets read
0x00 (10 R30). -/
def State.readReg (s : State) (off : Offset) : Option Byte :=
  match Reg.ofOffset off with
  | some .cmd => some s.lastCmd
  | some .status => some s.status
  | some .errCode => some s.errCode.byte
  | some .triRes => some s.triRes.byte
  | some (.data d) => if (s.regs.get d).written then some (s.regs.get d).val else none
  | some .res0 => if s.resWritten then some (s.res.extractLsb' 0 8) else none
  | some .res1 => if s.resWritten then some (s.res.extractLsb' 8 8) else none
  | some .res2 => if s.resWritten then some (s.res.extractLsb' 16 8) else none
  | none => some 0x00

/-- A host read of this offset reads RES (10 R37: a read without the mark records UNINIT). -/
def readsRes (off : Offset) : Bool :=
  match Reg.ofOffset off with
  | some .res0 | some .res1 | some .res2 => true
  | some .cmd | some .status | some .errCode | some .triRes | some (.data _) | none => false

/-- A host write of an offset: CMD issues (10 R19), a data register takes the byte (10 R24 to R29), a
read-only register and a reserved offset ignore it (10 R30, R31). -/
def State.writeReg (s : State) (off : Offset) (v : Byte) (pos : Nat) : State :=
  match Reg.ofOffset off with
  | some .cmd => s.issue v pos
  | some (.data d) => s.setData d v
  | some .status | some .errCode | some .triRes | some .res0 | some .res1 | some .res2 => s
  | none => s

end Sys2Proof.Machine
end

