-- ==== Sys2Proof/Machine/Arithmetic.lean ====
section
/-! DEFINITION. The fixed-point multiply and divide commands (40_arithmetic.md). -/

namespace Sys2Proof.Machine

/-- The end of an arithmetic command: `RES <- wrap_24(r)` (40 R71). -/
def State.result (s : State) (r : Int) : Host.Outcome State Fault Refusal :=
  .next (s.setRes (wrap24 r))

/-- MULU8: unsigned 8 × 8 multiply (40 R72). -/
def execMulu8 (s : State) : Host.Outcome State Fault Refusal :=
  (s.noteReads (readSet .mulu8)).result (s.opaU8 * s.opbU8)

/-- MULS8: signed 8 × 8 multiply (40 R73). -/
def execMuls8 (s : State) : Host.Outcome State Fault Refusal :=
  (s.noteReads (readSet .muls8)).result (s.opaS8 * s.opbS8)

/-- MULS8U8: signed by unsigned 8 × 8 multiply (40 R74). -/
def execMuls8u8 (s : State) : Host.Outcome State Fault Refusal :=
  (s.noteReads (readSet .muls8u8)).result (s.opaS8 * s.opbU8)

/-- MULS16U8: signed by unsigned 16 × 8 multiply; the high byte is RES2 (40 R75). -/
def execMuls16u8 (s : State) : Host.Outcome State Fault Refusal :=
  (s.noteReads (readSet .muls16u8)).result (s.opaS16 * s.opbU8)

/-- DIVFX: signed 8-bit by unsigned 8-bit division to 8.8, truncating toward zero; a zero divisor
raises DIV_ZERO and writes no RES (40 R76). -/
def execDivfx (s : State) : Host.Outcome State Fault Refusal :=
  if s.opbU8 = 0 then .next ((s.noteReads (readSet .divfx)).raise .divZero)
  else (s.noteReads (readSet .divfx)).result (tdiv (s.opaS8 * 256) s.opbU8)

end Sys2Proof.Machine
end

