-- ==== Sys2Proof/Machine/Control.lean ====
section
/-! DEFINITION. The control commands (43_control.md). -/

namespace Sys2Proof.Machine

/-- NOP: nothing beyond passing through BUSY (43 R116). -/
def execNop (s : State) : Host.Outcome State Fault Refusal := .next s

/-- CLRERR: STATUS.ERR and ERRCODE cleared (43 R117). -/
def execClrerr (s : State) : Host.Outcome State Fault Refusal := .next s.clearErr

end Sys2Proof.Machine
end

