-- ==== Sys2Proof/Machine/Framebuffer.lean ====
section
/-! DEFINITION. The framebuffer write engine commands (41_framebuffer.md). -/

namespace Sys2Proof.Machine

/-! ### Operand checks, before any access (41 R80) -/

/-- A color above 3 raises BAD_COLOR (60 R118). -/
def State.badColor (s : State) : Bool := decide (3 < s.color)

/-- The checks of the span commands in their order: BAD_COLOR, RANGE, PARITY (41 R80). `par` is the
parity y must have. -/
def State.spanFault (s : State) (par : Nat) : Option FaultCode :=
  if s.badColor then some .badColor
  else if 49 < s.p1 ∨ 80 < s.p0 ∨ 80 < s.p2 then some .range
  else if s.p1 % 2 ≠ par then some .parity
  else none

/-! ### Plans -/

/-- CLEAR's plan: every byte of the region, all four slots (41 R82). -/
def State.planClear (s : State) : Plan :=
  if s.badColor then .error .badColor
  else .ok ((List.range 1000).map fun i => { off := i, mask := bothRows })

/-- SETPIX's plan: one slot, or nothing out of range (41 R83). -/
def State.planSetpix (s : State) : Plan :=
  if s.badColor then .error .badColor
  else if s.p0 < 80 ∧ s.p1 < 50 then
    .ok [{ off := cellOff s.p0 s.p1, mask := slotMask s.p0 s.p1 }]
  else .ok []

/-- SPANTOP's plan: the top row of an even y (41 R85). -/
def State.planSpantop (s : State) : Plan :=
  match s.spanFault 0 with
  | some code => .error code
  | none => .ok (rowCells s.p1 s.p0 s.p2)

/-- SPANBOT's plan: the bottom row of an odd y (41 R86). -/
def State.planSpanbot (s : State) : Plan :=
  match s.spanFault 1 with
  | some code => .error code
  | none => .ok (rowCells s.p1 s.p0 s.p2)

/-- SPANDUAL's plan: both rows of an even y (41 R87). -/
def State.planSpandual (s : State) : Plan :=
  match s.spanFault 0 with
  | some code => .error code
  | none => .ok (dualCells s.p1 s.p0 s.p2)

/-! ### Commands -/

/-- CLEAR (41 R82). -/
def execClear (s : State) : Host.Outcome State Fault Refusal :=
  (s.noteReads (readSet .clear)).carryOut s.planClear

/-- SETPIX (41 R83). -/
def execSetpix (s : State) : Host.Outcome State Fault Refusal :=
  (s.noteReads (readSet .setpix)).carryOut s.planSetpix

/-- The record after GETPIX's read of a byte: an unknown byte is recorded (70 R146; log 12). -/
def State.noteByteRead (s : State) (a : Nat) : State :=
  if a ∈ s.unknown then s.log .uninit s.cmdPos else s

/-- GETPIX: the pixel, or 0 without an access out of range (41 R84). -/
def execGetpix (s : State) : Host.Outcome State Fault Refusal :=
  if s.p0 < 80 ∧ s.p1 < 50 then
    if s.misplaced then .refused .framebufferMisplaced
    else
      .next
        (((s.noteReads (readSet .getpix)).noteByteRead (s.pixelAddr s.p0 s.p1)).setRes
          ((s.pixel s.p0 s.p1).setWidth 24))
  else .next ((s.noteReads (readSet .getpix)).setRes 0)

/-- SPANTOP (41 R85). -/
def execSpantop (s : State) : Host.Outcome State Fault Refusal :=
  (s.noteReads (readSet .spantop)).carryOut s.planSpantop

/-- SPANBOT (41 R86). -/
def execSpanbot (s : State) : Host.Outcome State Fault Refusal :=
  (s.noteReads (readSet .spanbot)).carryOut s.planSpanbot

/-- SPANDUAL (41 R87). -/
def execSpandual (s : State) : Host.Outcome State Fault Refusal :=
  (s.noteReads (readSet .spandual)).carryOut s.planSpandual

end Sys2Proof.Machine
end

