-- ==== Sys2Proof/Machine/Rasterizer.lean ====
section
/-! DEFINITION. The triangle rasterizer commands FILLTRI and SPAN2 (42_rasterizer.md). -/

namespace Sys2Proof.Machine

/-! ### FILLTRI's steps -/

/-- Vertex A = (P0, P1) (42 R94). -/
def State.vertexA (s : State) : Vertex := { x := s.regs.p0.val, y := s.regs.p1.val }

/-- Vertex B = (P2, P3) (42 R94). -/
def State.vertexB (s : State) : Vertex := { x := s.regs.p2.val, y := s.regs.p3.val }

/-- Vertex C = (P4, P5) (42 R94). -/
def State.vertexC (s : State) : Vertex := { x := s.regs.p4.val, y := s.regs.p5.val }

/-- The checks of FILLTRI in their order: BAD_COLOR, then RANGE (42 R92). -/
def State.fillFault (s : State) : Option FaultCode :=
  if s.badColor then some .badColor
  else if 79 < s.p0 ∨ 79 < s.p2 ∨ 79 < s.p4 ∨ 49 < s.p1 ∨ 49 < s.p3 ∨ 49 < s.p5 then some .range
  else none

/-- The signed area, computed exactly (42 R94). -/
def signedArea (a b c : Vertex) : Int :=
  ((b.x.toNat : Int) - a.x.toNat) * ((c.y.toNat : Int) - a.y.toNat)
    - ((b.y.toNat : Int) - a.y.toNat) * ((c.x.toNat : Int) - a.x.toNat)

/-- One conditional swap of the sorting network: strictly greater y swaps and flips the parity
(42 R95). -/
def condSwap (p q : Vertex) (par : Bool) : Vertex × Vertex × Bool :=
  if q.y.toNat < p.y.toNat then (q, p, !par) else (p, q, par)

/-- `Sort3`: conditional swaps (0,1), (1,2), (0,1), and the parity of the swaps made (42 R95). -/
def sort3 (a b c : Vertex) : Vertex × Vertex × Vertex × Bool :=
  let (p0, p1, par1) := condSwap a b false
  let (q1, q2, par2) := condSwap p1 c par1
  let (r0, r1, par3) := condSwap p0 q1 par2
  (r0, r1, q2, par3)

/-- `Div88(d, v)` (42 R98). -/
def div88 (d v : Int) : Fixed88 := wrap16 (tdiv (d * 256) v)

/-- `Half(s)`, as HALF_SLOPE says (42 R99). -/
def halfSlope (h : HalfSlope) (v : Fixed88) : Fixed88 :=
  match h with
  | .asr => wrap16 (floorDiv v.toInt 2)
  | .trunc => wrap16 (tdiv v.toInt 2)

/-- The slope of the edge from p to q (42 R98, R100, R101). -/
def edgeSlope (p q : Vertex) : Fixed88 :=
  div88 ((q.x.toNat : Int) - p.x.toNat) ((q.y.toNat : Int) - p.y.toNat)

/-- The position of an edge at the middle of its first scanline (42 R99 to R101). -/
def edgeStart (h : HalfSlope) (p : Vertex) (slope : Fixed88) : Fixed88 :=
  wrap16 ((p.x.toNat : Int) * 256 + (halfSlope h slope).toInt)

/-- `Interval(lp, sp)`: the integer parts, ordered by SHORTLEFT and then swapped if crossed
(42 R103). A negative end never occurs (42 R110); it would read as 0 (log 26). -/
def interval (shortLeft : Bool) (lp sp : Fixed88) : Nat × Nat :=
  let xlong := floorDiv lp.toInt 256
  let xshort := floorDiv sp.toInt 256
  let l := if shortLeft then xshort else xlong
  let r := if shortLeft then xlong else xshort
  if r < l then (r.toNat, l.toNat) else (l.toNat, r.toNat)

/-- The walk in progress: the edge state and the cell writes made so far, in order. -/
structure Walk where
  edge : EdgeState
  cells : List CellWrite
  deriving DecidableEq, Repr

/-- The interval of the current scanline (42 R103). -/
def EdgeState.row (e : EdgeState) : Nat × Nat := interval e.shortLeft e.lpos e.spos

/-- Advance both positions by one slope and Y by 1 (42 R102). -/
def EdgeState.advance (e : EdgeState) : EdgeState :=
  { e with lpos := e.lpos + e.lslope, spos := e.spos + e.sslope, y := e.y + 1 }

/-- The single-row branch of the walk: the top row only if Y is even, the bottom row only if odd
(42 R102). -/
def Walk.single (w : Walk) : Walk :=
  { edge := w.edge.advance
    cells := w.cells ++ rowCells w.edge.y.toNat w.edge.row.1 w.edge.row.2 }

/-- The two-row branch of the walk: the dispatch of rows Y and Y + 1; positions advance by twice the
slope and Y by 2 (42 R102). -/
def Walk.dual (w : Walk) : Walk :=
  { edge := w.edge.advance.advance
    cells :=
      w.cells
        ++ dispatchCells w.edge.y.toNat w.edge.row.1 w.edge.row.2 w.edge.advance.row.1
            w.edge.advance.row.2 }

/-- The scanline loop with n rows left before YEND (42 R102): the two-row branch when Y is even and
another row is left. -/
def Walk.rows : Nat → Walk → Walk
  | 0, w => w
  | 1, w => w.single
  | n + 2, w => if w.edge.y.toNat % 2 = 0 then Walk.rows n w.dual else Walk.rows (n + 1) w.single

/-- The state at the start of a trapezoid: the short edge's slope and position, Y and YEND
(42 R102). LPOS and LSLOPE carry over (42 R101). -/
def EdgeState.startTrap (e : EdgeState) (h : HalfSlope) (p q : Vertex) : EdgeState :=
  { e with
    sslope := edgeSlope p q
    spos := edgeStart h p (edgeSlope p q)
    y := p.y
    yend := q.y }

/-- `Trap(P, Q)` (42 R102). -/
def Walk.trap (w : Walk) (h : HalfSlope) (p q : Vertex) : Walk :=
  if q.y.toNat ≤ p.y.toNat then w
  else Walk.rows (q.y.toNat - p.y.toNat) { w with edge := w.edge.startTrap h p q }

/-- The edge state before trapezoid 1: DET, the sorted vertices, PAR, SHORTLEFT, and the long edge
(42 R94 to R99). -/
def EdgeState.startFill (e : EdgeState) (h : HalfSlope) (a b c : Vertex) : EdgeState :=
  let v := sort3 a b c
  { e with
    det := signedArea a b c
    v0 := v.1
    v1 := v.2.1
    v2 := v.2.2.1
    par := v.2.2.2
    shortLeft := v.2.2.2
    lslope := edgeSlope v.1 v.2.2.1
    lpos := edgeStart h v.1 (edgeSlope v.1 v.2.2.1) }

/-- The two trapezoids (42 R93, R100, R101). -/
def fillWalk (e : EdgeState) (h : HalfSlope) (a b c : Vertex) : Walk :=
  let w : Walk := { edge := e.startFill h a b c, cells := [] }
  (w.trap h w.edge.v0 w.edge.v1).trap h w.edge.v1 w.edge.v2

/-- FILLTRI's outcome and cell writes after the checks (42 R93): culled when det <= 0 (R94),
discarded when of zero height (R96), else walked. -/
def State.fill (s : State) : TriRes × List CellWrite :=
  if signedArea s.vertexA s.vertexB s.vertexC ≤ 0 then (.culled, [])
  else if (sort3 s.vertexA s.vertexB s.vertexC).1.y = (sort3 s.vertexA s.vertexB s.vertexC).2.2.1.y then
    (.zeroHeight, [])
  else (.drawn, (fillWalk s.edge s.cfg.halfSlope s.vertexA s.vertexB s.vertexC).cells)

/-- FILLTRI's plan. -/
def State.planFilltri (s : State) : Plan :=
  match s.fillFault with
  | some code => .error code
  | none => .ok s.fill.2

/-- The end of a FILLTRI that raised no fault: TRIRES, and the hidden edge state becomes a free value
(10 R23, R33; log 10). -/
def State.endFill (s : State) (r : TriRes) : State :=
  { s with triRes := r, edge := Config.freeEdge s.draws, draws := s.draws + 1 }

/-- FILLTRI: fill one flat-colored triangle (42 R93). A fault leaves TRIRES, memory and the edge state
unchanged (42 R92). -/
def execFilltri (s : State) : Host.Outcome State Fault Refusal :=
  match s.fillFault with
  | some code => .next ((s.noteReads (readSet .filltri)).raise code)
  | none =>
    match (s.noteReads (readSet .filltri)).drawCells s.fill.2 with
    | .next t => .next (t.endFill s.fill.1)
    | .fault f => .fault f
    | .refused r => .refused r

/-! ### SPAN2 -/

/-- The checks of SPAN2 in their order: BAD_COLOR, RANGE, PARITY (42 R107). -/
def State.span2Fault (s : State) : Option FaultCode :=
  if s.badColor then some .badColor
  else if 49 < s.p1 ∨ 80 < s.p0 ∨ 80 < s.p2 ∨ 80 < s.p4 ∨ 80 < s.p5 then some .range
  else if s.p1 % 2 ≠ 0 then some .parity
  else none

/-- SPAN2's plan: one dual-row dispatch, with no swap (42 R107). -/
def State.planSpan2 (s : State) : Plan :=
  match s.span2Fault with
  | some code => .error code
  | none => .ok (dispatchCells s.p1 s.p0 s.p2 s.p4 s.p5)

/-- SPAN2 (42 R107). -/
def execSpan2 (s : State) : Host.Outcome State Fault Refusal :=
  (s.noteReads (readSet .span2)).carryOut s.planSpan2

end Sys2Proof.Machine
end

