-- ==== Sys2Proof/Machine/Dispatch.lean ====
section
/-! DEFINITION. exec: one arm per command of the opcode table (30 R61). -/

namespace Sys2Proof.Machine

def exec (i : Instr) (s : State) : Host.Outcome State Fault Refusal :=
  match i with
  | .nop => Sys2Proof.Machine.execNop s
  | .clrerr => Sys2Proof.Machine.execClrerr s
  | .mulu8 => Sys2Proof.Machine.execMulu8 s
  | .muls8 => Sys2Proof.Machine.execMuls8 s
  | .muls8u8 => Sys2Proof.Machine.execMuls8u8 s
  | .muls16u8 => Sys2Proof.Machine.execMuls16u8 s
  | .divfx => Sys2Proof.Machine.execDivfx s
  | .clear => Sys2Proof.Machine.execClear s
  | .setpix => Sys2Proof.Machine.execSetpix s
  | .getpix => Sys2Proof.Machine.execGetpix s
  | .spantop => Sys2Proof.Machine.execSpantop s
  | .spanbot => Sys2Proof.Machine.execSpanbot s
  | .spandual => Sys2Proof.Machine.execSpandual s
  | .filltri => Sys2Proof.Machine.execFilltri s
  | .span2 => Sys2Proof.Machine.execSpan2 s

end Sys2Proof.Machine
end

