-- ==== Sys2Proof/Machine/Sequence.lean ====
section
/-! DEFINITION. The two agents' moves: the unit's atomic command step (10 R20), and one operation of
the host or of the reset input (10 R15, 30 R68, 70_reset_and_hazards.md). -/

namespace Sys2Proof.Machine

/-! ### The unit's atomic step (10 R20) -/

/-- The command's effect, then STATUS.BUSY 0 and the sequencer IDLE (10 R20). -/
def completeOutcome : Host.Outcome State Fault Refusal → Host.Outcome State Fault Refusal
  | .next s => .next s.complete
  | .fault f => .fault f
  | .refused r => .refused r

/-- The unit's atomic step on the accepted byte `op`: its command, or ILLEGAL_CMD for a reserved byte
(10 R20, 60 R119). -/
def unitStep (op : Byte) (s : State) : Host.Outcome State Fault Refusal :=
  match decode op with
  | .ok i => completeOutcome (exec i s)
  | .error _ => .next (s.raise .illegalCmd).complete

/-- The unit moves next: reset is not asserted, and the host's turns are used up or the host has
nothing to do (log 9). -/
def State.unitsTurn (s : State) : Bool := !s.inReset && (s.turns == 0 || s.script.isEmpty)

/-! ### Reset (70 R132, R133, R146) -/

/-- The cell writes a BUSY command may have made in part when reset abandons it. A byte that is no
command, a command that would fault and a command that writes no memory, GETPIX among them, have none
(70 R146). -/
def State.abandoned (s : State) : List CellWrite :=
  let plan : Plan :=
    match s.seq with
    | .idle => .ok []
    | .busy op =>
      match decode op with
      | .ok .clear => s.planClear
      | .ok .setpix => s.planSetpix
      | .ok .spantop => s.planSpantop
      | .ok .spanbot => s.planSpanbot
      | .ok .spandual => s.planSpandual
      | .ok .filltri => s.planFilltri
      | .ok .span2 => s.planSpan2
      | .ok .nop | .ok .clrerr | .ok .mulu8 | .ok .muls8 | .ok .muls8u8 | .ok .muls16u8
      | .ok .divfx | .ok .getpix => .ok []
      | .error _ => .ok []
  match plan with
  | .ok ws => ws
  | .error _ => []

/-- Which cells an abandoned drawing command may have touched depends on the registers it reads: UNINIT
is recorded when one of them has no written mark (10 R37, 70 R146). DESIGN CHOICE (log 12): the spec
gives no cells then, and the model takes those of the values held. -/
def State.noteAbandoned (s : State) : State :=
  match s.seq with
  | .idle => s
  | .busy op =>
    match decode op with
    | .ok i => if writesMemory i then s.noteReads (readSet i) else s
    | .error _ => s

/-- Reset is asserted: a BUSY command is abandoned, its cells become unknown, and the unit takes its
reset state, which it holds while reset stays asserted (70 R132, R133, R146; log 22). The cells of a
command with an unmarked register are those of the values held, and UNINIT is recorded: DESIGN CHOICE
(log 12). Over a framebuffer the host has misplaced, a reset that abandons cells is refused, and one
that abandons a GETPIX is not: GETPIX writes no byte, so memory is left as it was: DESIGN CHOICE
(log 6), the spec leaving both unspecified (20 R40, 70 R140). -/
def State.assertReset (s : State) : Host.Outcome State Fault Refusal :=
  if s.abandoned ≠ [] ∧ s.misplaced then .refused .framebufferMisplaced
  else
    .next
      { (s.noteAbandoned.forget (s.abandoned.map fun w => cellAddr s.fbbase w.off)).resetUnit with
        inReset := true }

/-! ### One operation of the host -/

/-- Append to what the script observed (30 R66). -/
def State.observe (s : State) (v : Option Byte) : State := { s with obs := s.obs ++ [v] }

/-- A host hazard: recorded, with no other effect; an access that reads gets no value
(70 R137 to R139; log 1). -/
def State.hazard (s : State) (pos : Nat) : State := s.log .hostHazard pos

/-- A host read of STATUS. With BUSY = 0 it is the completion barrier and ends the wait
(20 R54, 70 R137). -/
def State.sawStatus (s : State) : State := { s with awaiting := s.awaiting && s.busy }

/-- A host register write (10 R16 to R31, 70 R132, R137). -/
def State.hostWrite (s : State) (off : Offset) (v : Byte) (pos : Nat) : State :=
  if s.inReset || s.mustWait then s.hazard pos else s.writeReg off v pos

/-- A host register read (10 R16 to R30, R37, 70 R132, R137). A read has no side effect (20 R51); a
read of RES without its mark is recorded as UNINIT. -/
def State.hostRead (s : State) (off : Offset) (pos : Nat) : State :=
  if s.inReset then (s.hazard pos).observe none
  else if off = Reg.status.offset then s.sawStatus.observe (some s.status)
  else if s.mustWait then (s.hazard pos).observe none
  else if readsRes off && !s.resWritten then (s.log .uninit pos).observe none
  else s.observe (s.readReg off)

/-- A host access to memory is a hazard while reset is asserted (70 R145; log 25), and while a command's
completion is awaited and the address lies in the framebuffer region (20 R53, 70 R137, R139). DESIGN
CHOICE (log 27): while FBBASE has no written mark the spec gives no region, and the model takes the
one at the value held; an access outside it is then recorded as UNINIT (`noteRegion`). -/
def State.memHazard (s : State) (a : Addr) : Bool :=
  s.inReset || (s.mustWait && inRegion s.fbbase a)

/-- Where the framebuffer region lies decides whether a host memory access is a hazard while a command's
completion is awaited: UNINIT is recorded when FBBASE has no written mark then (10 R37; log 27). -/
def State.noteRegion (s : State) (pos : Nat) : State :=
  if s.mustWait && !s.regs.placed then s.log .uninit pos else s

/-- A host memory write (30 R68). It makes an unknown byte known (log 12). -/
def State.hostWriteMem (s : State) (a : Addr) (v : Byte) (pos : Nat) : State :=
  if s.memHazard a then s.hazard pos
  else
    { s.noteRegion pos with
      mem := Mem.write s.mem a.toNat v
      unknown := s.unknown.filter fun b => decide (b ≠ a.toNat) }

/-- A host memory read (30 R68). Reading an unknown byte is recorded and gives no value (70 R146;
log 12). -/
def State.hostReadMem (s : State) (a : Addr) (pos : Nat) : State :=
  if s.memHazard a then (s.hazard pos).observe none
  else if a.toNat ∈ s.unknown then ((s.noteRegion pos).log .uninit pos).observe none
  else (s.noteRegion pos).observe (some (Mem.read s.mem a.toNat))

/-- A host memory access that is no hazard goes to an address that is not plain RAM: what stands there
is unknown (20 R52; log 5). -/
def State.offRam (s : State) (a : Addr) : Bool := !s.memHazard a && !s.cfg.plainRam a

/-- A poll of STATUS that reads BUSY = 1: the value is observed and the loop goes on
(30 R66, R67; log 13). -/
def State.poll (s : State) : State :=
  State.observe { s with turns := s.turns - 1 } (some s.status)

/-- The state with the script's next operation taken: its rest, the next position, one turn fewer. -/
def State.taken (s : State) (rest : List HostOp) : State :=
  { s with script := rest, pos := s.pos + 1, turns := s.turns - 1 }

/-- One operation of the host or of the reset input (30 R68). `wait` is the loop of STATUS reads it
stands for: it stays while the value read has BUSY = 1, and ends as the read that finds BUSY = 0
(30 R67, R68). An access inside the register window reaches the register (10 R16). With an empty
script the host does nothing, and the unit holds its state (60 R131, 70 R134; log 15). DESIGN CHOICE
(log 28): the reset input's two edges are operations of the host's own queue, so a reset does not fall
between two polls of one pending `wait`; STATUS reads written out stand for the polls there
(60 R127). -/
def State.hostTurn (s : State) : Host.Outcome State Fault Refusal :=
  match s.script with
  | [] => .next s
  | op :: rest =>
    match s.cfg.resolve op with
    | .write off v => .next ((s.taken rest).hostWrite off v s.pos)
    | .read off => .next ((s.taken rest).hostRead off s.pos)
    | .writeMem a v =>
      if s.offRam a then .refused .notPlainRam
      else .next ((s.taken rest).hostWriteMem a v s.pos)
    | .readMem a =>
      if s.offRam a then .refused .notPlainRam
      else .next ((s.taken rest).hostReadMem a s.pos)
    | .wait =>
      if s.busy && !s.inReset then .next s.poll
      else .next ((s.taken rest).hostRead Reg.status.offset s.pos)
    | .assertReset => (s.taken rest).assertReset
    | .releaseReset => .next { s.taken rest with inReset := false }

end Sys2Proof.Machine
end

