-- ==== Sys2Proof/Machine/Step.lean ====
section
/-! DEFINITION. One step of the machine (10 R15, R19, R20). -/

namespace Sys2Proof.Machine

/-- One step: the unit's atomic command step when a command is BUSY and its turn has come, else one
operation of the host. After a host hazard the spec does not say what happens (70 R145; log 1). -/
def step (s : State) : Host.Outcome State Fault Refusal :=
  if s.hazarded then .fault .afterHostHazard
  else
    match s.seq with
    | .idle => s.hostTurn
    | .busy op => if s.unitsTurn then unitStep op s else s.hostTurn

/-- The state in which the unit is about to take its atomic step on the command byte `w`: what an
accepted CMD write of it leaves (10 R19), with no host turn left before the step. The unit fetches
nothing (10 R17), so the accepted byte is where the next command is taken from (log 14). -/
def State.withFetchWord (s : State) (_nbits w : Nat) : State :=
  { s with
    lastCmd := BitVec.ofNat 8 w
    busy := true
    seq := .busy (BitVec.ofNat 8 w)
    awaiting := true
    turns := 0
    inReset := false }

end Sys2Proof.Machine
end

