-- ==== Sys2Proof/Machine/Duty.lean ====
section
/-! DEFINITION. The duties of a host's sequence of bus operations: what makes a host script well formed
(30 R69, 70 R132, R135, R137 to R140, R145). -/

namespace Sys2Proof.Machine

/-- What a host that keeps its duties has to remember between operations. -/
structure HostDuty where
  /-- A CMD write has been issued and no `wait` has followed it yet (30 R69). -/
  pending : Bool
  /-- The reset input is asserted (70 R132). -/
  inReset : Bool
  /-- What the host has written to the data registers since reset (70 R135, R138). -/
  regs : DataRegs
  deriving DecidableEq, Repr

/-- The duty of a host at launch: nothing issued, nothing written. -/
def HostDuty.launch : HostDuty := { pending := false, inReset := false, regs := .reset }

/-- The command may be issued: every register it reads has been written (70 R135 (b), R138), and if it
reads FBBASE the framebuffer region lies in plain RAM clear of the register window (70 R135 (a),
R140). -/
def HostDuty.mayRun (c : Config) (d : HostDuty) (i : Instr) : Bool :=
  ((readSet i).all fun r => (d.regs.get r).written) &&
    (!(readSet i).contains .fbbaseL || !c.misplaced d.regs.fbbase)

/-- A host write of a register. A reserved byte reads no register (60 R119), so it may be issued. -/
def HostDuty.write (c : Config) (d : HostDuty) (off : Offset) (v : Byte) : Option HostDuty :=
  match Reg.ofOffset off with
  | some .cmd =>
    match decode v with
    | .ok i => if d.mayRun c i then some { d with pending := true } else none
    | .error _ => some { d with pending := true }
  | some (.data r) => some { d with regs := d.regs.set r { val := v, written := true } }
  | some .status | some .errCode | some .triRes | some .res0 | some .res1 | some .res2 => some d
  | none => some d

/-- A host memory access: not under reset (70 R145), and while a command is pending only outside the
framebuffer region, which FBBASE's two bytes must then place (70 R137, R139; log 27). -/
def HostDuty.access (d : HostDuty) (a : Addr) : Option HostDuty :=
  if d.inReset then none
  else if d.pending && (!d.regs.placed || inRegion d.regs.fbbase a) then none
  else some d

/-- One resolved operation of a host that keeps its duties: the duty after it, or `none` where the
operation breaks one (30 R69, 70 R132, R137, R145). While a command is pending, only STATUS reads,
`wait`, memory outside the framebuffer region and the reset input are allowed; while reset is
asserted, only its release. DESIGN CHOICE (log 30): after the assertion of reset no command is pending,
so its completion need not be waited for. -/
def HostDuty.after (c : Config) (d : HostDuty) : HostOp → Option HostDuty
  | .write off v => if d.inReset || d.pending then none else d.write c off v
  | .read off =>
    if d.inReset then none
    else if off = Reg.status.offset then some d
    else if d.pending then none
    else some d
  | .writeMem a _ => d.access a
  | .readMem a => d.access a
  | .wait => if d.inReset then none else some { d with pending := false }
  | .assertReset => some { pending := false, inReset := true, regs := .reset }
  | .releaseReset => some { d with inReset := false }

/-- A host's sequence of bus operations keeps the host hazards (30 R69): among them, after every CMD
write, the last one included, comes a `wait` before any other unit or framebuffer access. DESIGN CHOICE
(log 29): it is judged from the script alone. -/
def scriptWellFormed (c : Config) (d : HostDuty) : List HostOp → Bool
  | [] => !d.pending
  | op :: rest =>
    match d.after c (c.resolve op) with
    | some d' => scriptWellFormed c d' rest
    | none => false

end Sys2Proof.Machine
end

