-- ==== Sys2Proof/Safety.lean ====
section
/-! DEFINITION. What counts as a safe run, the invariant of the machine, and the terms in which claims
are stated. -/

namespace Sys2Proof.Machine

/-! ### Runs (70 R145) -/

/-- No fault has been recorded: the premise under which a claim about a run holds (70 R145). -/
def State.clean (s : State) : Prop := s.record = []

/-- The end of a run (70 R145): the last statement executed, the sequencer IDLE, and the last
command's completion observed. -/
def State.ended (s : State) : Prop := s.script = [] ∧ s.seq = .idle ∧ s.awaiting = false

/-- Every register of a list holds a value a host write has defined (10 R37). -/
def State.allWritten (s : State) (ds : List DataReg) : Prop :=
  ∀ d ∈ ds, (s.regs.get d).written = true

/-! ### Pixel sets (20 R46) -/

/-- The slots of the cell byte at a framebuffer offset that a pixel set covers: the OR of the slot
masks of its pixels in that cell (20 R46). -/
def slotsOf (inSet : Nat → Nat → Bool) (off : Nat) : Byte :=
  let x := 2 * (off % 40)
  let y := 2 * (off / 40)
  (if inSet x y then slotMask x y else 0)
    ||| (if inSet (x + 1) y then slotMask (x + 1) y else 0)
    ||| (if inSet x (y + 1) then slotMask x (y + 1) else 0)
    ||| (if inSet (x + 1) (y + 1) then slotMask (x + 1) (y + 1) else 0)

/-- `WritePixels(S, c)` as 20 R46 states it: in every cell byte of the region the covered slots take
the color and the other slots keep their value, and every byte outside the region keeps its value. -/
def WritesPixels (s t : State) (inSet : Nat → Nat → Bool) (c : Byte) : Prop :=
  (∀ off < 1000,
    Mem.read t.mem (cellAddr s.fbbase off)
      = (Mem.read s.mem (cellAddr s.fbbase off) &&& ~~~(slotsOf inSet off))
          ||| (c * 0x55 &&& slotsOf inSet off)) ∧
  ∀ a : Addr, inRegion s.fbbase a = false → Mem.read t.mem a.toNat = Mem.read s.mem a.toNat

/-- The bytes a reset that abandons the BUSY command makes unknown are exactly the cell bytes of a pixel
set (20 R48, 70 R146). -/
def AbandonsCells (s : State) (inSet : Nat → Nat → Bool) : Prop :=
  ∀ a, (∃ w ∈ s.abandoned, cellAddr s.fbbase w.off = a) ↔
    ∃ off < 1000, slotsOf inSet off ≠ 0 ∧ cellAddr s.fbbase off = a

/-- `Row(y, xl, xr)` as a set: the pixels `xl <= x < xr` of scanline y (41 R81). -/
def inRow (y0 xl xr x y : Nat) : Bool := decide (y = y0) && decide (xl ≤ x) && decide (x < xr)

/-! ### The rows of a FILLTRI in closed form (42 R102, R106) -/

/-- LPOS at scanline y: the initial position plus `(y - V0.y) * LSLOPE`, mod 2^16 (42 R102). -/
def longPos (h : HalfSlope) (v0 v2 : Vertex) (y : Nat) : Fixed88 :=
  edgeStart h v0 (edgeSlope v0 v2) + BitVec.ofNat 16 (y - v0.y.toNat) * edgeSlope v0 v2

/-- SPOS at scanline y of the trapezoid from p to q (42 R102). -/
def shortPos (h : HalfSlope) (p q : Vertex) (y : Nat) : Fixed88 :=
  edgeStart h p (edgeSlope p q) + BitVec.ofNat 16 (y - p.y.toNat) * edgeSlope p q

/-- The interval of scanline y of the triangle A, B, C (42 R102, R103): the short edge is V0 to V1
above V1's row and V1 to V2 from V1's row on. -/
def fillRow (h : HalfSlope) (a b c : Vertex) (y : Nat) : Nat × Nat :=
  let v := sort3 a b c
  let long := longPos h v.1 v.2.2.1 y
  if y < v.2.1.y.toNat then interval v.2.2.2 long (shortPos h v.1 v.2.1 y)
  else interval v.2.2.2 long (shortPos h v.2.1 v.2.2.1 y)

/-- The scanlines a FILLTRI walks: from the top vertex's row up to, and not including, the bottom
vertex's row (42 R100, R101). -/
def walked (a b c : Vertex) (y : Nat) : Bool :=
  let v := sort3 a b c
  decide (v.1.y.toNat ≤ y) && decide (y < v.2.2.1.y.toNat)

/-- The pixel set S of a FILLTRI (42 R106). -/
def inTriangle (h : HalfSlope) (a b c : Vertex) (x y : Nat) : Bool :=
  walked a b c y && decide ((fillRow h a b c y).1 ≤ x) && decide (x < (fillRow h a b c y).2)

/-! ### Terms of the claims about commands -/

/-- The outcome of a command that faults: ERR and ERRCODE set, the fault recorded after an UNINIT its
reads may record, and nothing else (60 R121, 10 R37; log 3, 23). -/
def raised (s : State) (i : Instr) (code : FaultCode) : Host.Outcome State Fault Refusal :=
  .next
    { s with
      err := true
      errCode := code
      record := (s.noteReads (readSet i)).record ++ [{ kind := .arch code, pos := s.cmdPos }] }

/-- The fault record grows by UNINIT entries only; by none when the registers read are all written and
no byte of memory is unknown (10 R37, 70 R146). -/
def QuietRecord (s t : State) (i : Instr) : Prop :=
  (∃ l, t.record = s.record ++ l ∧ ∀ e ∈ l, e.kind = .uninit) ∧
    (s.allWritten (readSet i) → s.unknown = [] → t.record = s.record)

/-- What drawing a pixel set does to the bytes a reset left unknown: no byte becomes unknown, a byte of
the region becomes known exactly when all four of its slots are covered, a byte outside it never
does, and covering an unknown byte in part, which reads it, is recorded as UNINIT (20 R47, 70 R146;
log 12). -/
def DrawsUnknown (s t : State) (inSet : Nat → Nat → Bool) : Prop :=
  (∀ a ∈ t.unknown, a ∈ s.unknown) ∧
    (∀ off < 1000, cellAddr s.fbbase off ∈ s.unknown →
      (cellAddr s.fbbase off ∈ t.unknown ↔ slotsOf inSet off ≠ 0xFF) ∧
      (slotsOf inSet off ≠ 0 → slotsOf inSet off ≠ 0xFF →
        { kind := .uninit, pos := s.cmdPos } ∈ t.record)) ∧
    ∀ a : Addr, inRegion s.fbbase a = false → (a.toNat ∈ t.unknown ↔ a.toNat ∈ s.unknown)

/-- A drawing command's effect on memory and the record: its pixel set takes the color of COLOR, no
other slot and no other byte changes (20 R46, R47), and the bytes left unknown by a reset are treated
as `DrawsUnknown` says (log 12). -/
def DrawsMemory (s t : State) (i : Instr) (inSet : Nat → Nat → Bool) : Prop :=
  WritesPixels s t inSet s.regs.color.val ∧ DrawsUnknown s t inSet ∧ QuietRecord s t i

/-- A drawing command's whole effect: on memory and the record that of `DrawsMemory`, and every other
field is unchanged (20 R46, 30 R64). A register without its mark gives the value it holds, and UNINIT
is recorded (10 R37; log 3). -/
def Draws (s t : State) (i : Instr) (inSet : Nat → Nat → Bool) : Prop :=
  t = { s with mem := t.mem, unknown := t.unknown, record := t.record } ∧ DrawsMemory s t i inSet

/-- An arithmetic command's whole effect but the value of RES: RES written, and every field but RES
and the record unchanged (40 R71). A register without its mark gives the value it holds, and UNINIT is
recorded (10 R37; log 3). -/
def WritesOnlyRes (s t : State) (i : Instr) : Prop :=
  t = { s with res := t.res, resWritten := true, record := (s.noteReads (readSet i)).record }

/-- COLOR and the span operands pass the checks of 41 R80, with y of parity `par`. -/
def spanLegal (s : State) (par : Nat) : Prop :=
  s.color ≤ 3 ∧ s.p1 ≤ 49 ∧ s.p0 ≤ 80 ∧ s.p2 ≤ 80 ∧ s.p1 % 2 = par

/-- A span command raises the first failing check of 41 R80. -/
def SpanChecked (s : State) (i : Instr) (par : Nat) : Prop :=
  (3 < s.color → exec i s = raised s i .badColor) ∧
    (s.color ≤ 3 → 49 < s.p1 ∨ 80 < s.p0 ∨ 80 < s.p2 → exec i s = raised s i .range) ∧
    (s.color ≤ 3 → s.p1 ≤ 49 → s.p0 ≤ 80 → s.p2 ≤ 80 → s.p1 % 2 ≠ par →
      exec i s = raised s i .parity)

/-- COLOR and the vertices pass the checks of FILLTRI (42 R92). -/
def fillLegal (s : State) : Prop :=
  s.color ≤ 3 ∧ s.p0 ≤ 79 ∧ s.p2 ≤ 79 ∧ s.p4 ≤ 79 ∧ s.p1 ≤ 49 ∧ s.p3 ≤ 49 ∧ s.p5 ≤ 49

/-- The host may access registers: no hazard recorded, the unit IDLE and its last completion observed,
reset not asserted (70 R132, R137). -/
def State.hostFree (s : State) : Prop :=
  s.hazarded = false ∧ s.seq = .idle ∧ s.busy = false ∧ s.awaiting = false ∧ s.inReset = false

/-- The host, not the unit, moves next. -/
def State.hostsTurn (s : State) : Prop :=
  s.hazarded = false ∧ (s.seq = .idle ∨ s.unitsTurn = false)

/-- The host moves next and may access memory at `a`: reset is not asserted, and while a command's
completion is awaited `a` lies outside the framebuffer region (70 R137, R139, R145). Without its mark
FBBASE places the region at the value held (log 27). -/
def State.mayAccess (s : State) (a : Addr) : Prop :=
  s.hostsTurn ∧ s.inReset = false ∧
    (s.mustWait = true → inRegion s.fbbase a = false)

/-- A drawing command that reads a register without its mark is BUSY: where the cells it may have
touched lie is not known (10 R37, 70 R146). -/
def State.AbandonsUnplaced (s : State) : Prop :=
  ∃ op i, s.seq = .busy op ∧ decode op = .ok i ∧
    i ∈ [Instr.clear, .setpix, .spantop, .spanbot, .spandual, .filltri, .span2] ∧
    ∃ d ∈ readSet i, (s.regs.get d).written = false

/-- The state is one that a host with the duty `d` can be in: no hazard recorded, a command whose
completion is awaited is pending, the reset input and the registers are as the host left them, the
command BUSY is one the host could issue, and the rest of the script keeps the duties (30 R69). -/
structure State.Keeps (s : State) (d : HostDuty) : Prop where
  hazarded : s.hazarded = false
  awaited : s.mustWait = true → d.pending = true
  inReset : s.inReset = d.inReset
  regs : s.regs = d.regs
  busy : ∀ op, s.seq = .busy op → s.busy = true
  runnable : ∀ op i, s.seq = .busy op → decode op = .ok i → d.mayRun s.cfg i = true
  script : scriptWellFormed s.cfg d s.script = true

/-! ### The invariant -/

/-- What every reachable state satisfies. -/
structure State.Inv (s : State) : Prop where
  /-- Memory is in its canonical form (log 4). -/
  memory : Mem.wf s.mem = true
  /-- The unknown bytes are listed once each, rising (70 R146). -/
  unknown : risingFrom 0 s.unknown = true
  /-- STATUS.BUSY and the sequencer say the same, and the command in execution is LASTCMD
  (10 R17 to R20). -/
  handshake : s.seq = if s.busy then .busy s.lastCmd else .idle
  /-- ERRCODE holds 0x00 exactly while STATUS.ERR = 0 (10 R22). -/
  errCode : s.err = true ↔ s.errCode ≠ .none
  /-- While STATUS.ERR = 1 the only command in execution is CLRERR (10 R19, 60 R123). -/
  sticky : s.busy = true → s.err = true → s.lastCmd = 0x0F
  /-- While a command is BUSY its completion has not been observed (70 R137). -/
  awaiting : s.busy = true → s.awaiting = true
  /-- While reset is asserted no command is BUSY (70 R132). -/
  quiet : s.inReset = true → s.busy = false
  /-- TRIRES is never 0x02 (10 R23, 42 R96). -/
  triRes : s.triRes ≠ .zeroHeight

end Sys2Proof.Machine
end

