-- ==== Sys2Proof/Laws/State.lean ====
section
/-! SUPPORT. Beside State: what each named update does to each field, true by rfl, so that no proof
unfolds a record update. -/

namespace Sys2Proof.Machine

variable (s : State)

/-! ### setData -/

@[simp] theorem State.setData_cfg (d : DataReg) (v : Byte) : (s.setData d v).cfg = s.cfg := rfl
@[simp] theorem State.setData_seq (d : DataReg) (v : Byte) : (s.setData d v).seq = s.seq := rfl
@[simp] theorem State.setData_lastCmd (d : DataReg) (v : Byte) :
    (s.setData d v).lastCmd
      = s.lastCmd := rfl
@[simp] theorem State.setData_busy (d : DataReg) (v : Byte) : (s.setData d v).busy = s.busy := rfl
@[simp] theorem State.setData_err (d : DataReg) (v : Byte) : (s.setData d v).err = s.err := rfl
@[simp] theorem State.setData_errCode (d : DataReg) (v : Byte) :
    (s.setData d v).errCode
      = s.errCode := rfl
@[simp] theorem State.setData_triRes (d : DataReg) (v : Byte) :
    (s.setData d v).triRes
      = s.triRes := rfl
@[simp] theorem State.setData_regs (d : DataReg) (v : Byte) :
    (s.setData d v).regs
      = s.regs.set d { val := v, written := true } := rfl
@[simp] theorem State.setData_res (d : DataReg) (v : Byte) : (s.setData d v).res = s.res := rfl
@[simp] theorem State.setData_resWritten (d : DataReg) (v : Byte) :
    (s.setData d v).resWritten
      = s.resWritten := rfl
@[simp] theorem State.setData_edge (d : DataReg) (v : Byte) : (s.setData d v).edge = s.edge := rfl
@[simp] theorem State.setData_mem (d : DataReg) (v : Byte) : (s.setData d v).mem = s.mem := rfl
@[simp] theorem State.setData_unknown (d : DataReg) (v : Byte) :
    (s.setData d v).unknown
      = s.unknown := rfl
@[simp] theorem State.setData_inReset (d : DataReg) (v : Byte) :
    (s.setData d v).inReset
      = s.inReset := rfl
@[simp] theorem State.setData_record (d : DataReg) (v : Byte) :
    (s.setData d v).record
      = s.record := rfl
@[simp] theorem State.setData_script (d : DataReg) (v : Byte) :
    (s.setData d v).script
      = s.script := rfl
@[simp] theorem State.setData_pos (d : DataReg) (v : Byte) : (s.setData d v).pos = s.pos := rfl
@[simp] theorem State.setData_cmdPos (d : DataReg) (v : Byte) :
    (s.setData d v).cmdPos
      = s.cmdPos := rfl
@[simp] theorem State.setData_obs (d : DataReg) (v : Byte) : (s.setData d v).obs = s.obs := rfl
@[simp] theorem State.setData_awaiting (d : DataReg) (v : Byte) :
    (s.setData d v).awaiting
      = s.awaiting := rfl
@[simp] theorem State.setData_turns (d : DataReg) (v : Byte) :
    (s.setData d v).turns
      = s.turns := rfl
@[simp] theorem State.setData_draws (d : DataReg) (v : Byte) :
    (s.setData d v).draws
      = s.draws := rfl

/-! ### setRes -/

@[simp] theorem State.setRes_cfg (v : Res24) : (s.setRes v).cfg = s.cfg := rfl
@[simp] theorem State.setRes_seq (v : Res24) : (s.setRes v).seq = s.seq := rfl
@[simp] theorem State.setRes_lastCmd (v : Res24) : (s.setRes v).lastCmd = s.lastCmd := rfl
@[simp] theorem State.setRes_busy (v : Res24) : (s.setRes v).busy = s.busy := rfl
@[simp] theorem State.setRes_err (v : Res24) : (s.setRes v).err = s.err := rfl
@[simp] theorem State.setRes_errCode (v : Res24) : (s.setRes v).errCode = s.errCode := rfl
@[simp] theorem State.setRes_triRes (v : Res24) : (s.setRes v).triRes = s.triRes := rfl
@[simp] theorem State.setRes_regs (v : Res24) : (s.setRes v).regs = s.regs := rfl
@[simp] theorem State.setRes_res (v : Res24) : (s.setRes v).res = v := rfl
@[simp] theorem State.setRes_resWritten (v : Res24) : (s.setRes v).resWritten = true := rfl
@[simp] theorem State.setRes_edge (v : Res24) : (s.setRes v).edge = s.edge := rfl
@[simp] theorem State.setRes_mem (v : Res24) : (s.setRes v).mem = s.mem := rfl
@[simp] theorem State.setRes_unknown (v : Res24) : (s.setRes v).unknown = s.unknown := rfl
@[simp] theorem State.setRes_inReset (v : Res24) : (s.setRes v).inReset = s.inReset := rfl
@[simp] theorem State.setRes_record (v : Res24) : (s.setRes v).record = s.record := rfl
@[simp] theorem State.setRes_script (v : Res24) : (s.setRes v).script = s.script := rfl
@[simp] theorem State.setRes_pos (v : Res24) : (s.setRes v).pos = s.pos := rfl
@[simp] theorem State.setRes_cmdPos (v : Res24) : (s.setRes v).cmdPos = s.cmdPos := rfl
@[simp] theorem State.setRes_obs (v : Res24) : (s.setRes v).obs = s.obs := rfl
@[simp] theorem State.setRes_awaiting (v : Res24) : (s.setRes v).awaiting = s.awaiting := rfl
@[simp] theorem State.setRes_turns (v : Res24) : (s.setRes v).turns = s.turns := rfl
@[simp] theorem State.setRes_draws (v : Res24) : (s.setRes v).draws = s.draws := rfl

/-! ### log -/

@[simp] theorem State.log_cfg (k : RecordKind) (p : Nat) : (s.log k p).cfg = s.cfg := rfl
@[simp] theorem State.log_seq (k : RecordKind) (p : Nat) : (s.log k p).seq = s.seq := rfl
@[simp] theorem State.log_lastCmd (k : RecordKind) (p : Nat) :
    (s.log k p).lastCmd
      = s.lastCmd := rfl
@[simp] theorem State.log_busy (k : RecordKind) (p : Nat) : (s.log k p).busy = s.busy := rfl
@[simp] theorem State.log_err (k : RecordKind) (p : Nat) : (s.log k p).err = s.err := rfl
@[simp] theorem State.log_errCode (k : RecordKind) (p : Nat) :
    (s.log k p).errCode
      = s.errCode := rfl
@[simp] theorem State.log_triRes (k : RecordKind) (p : Nat) : (s.log k p).triRes = s.triRes := rfl
@[simp] theorem State.log_regs (k : RecordKind) (p : Nat) : (s.log k p).regs = s.regs := rfl
@[simp] theorem State.log_res (k : RecordKind) (p : Nat) : (s.log k p).res = s.res := rfl
@[simp] theorem State.log_resWritten (k : RecordKind) (p : Nat) :
    (s.log k p).resWritten
      = s.resWritten := rfl
@[simp] theorem State.log_edge (k : RecordKind) (p : Nat) : (s.log k p).edge = s.edge := rfl
@[simp] theorem State.log_mem (k : RecordKind) (p : Nat) : (s.log k p).mem = s.mem := rfl
@[simp] theorem State.log_unknown (k : RecordKind) (p : Nat) :
    (s.log k p).unknown
      = s.unknown := rfl
@[simp] theorem State.log_inReset (k : RecordKind) (p : Nat) :
    (s.log k p).inReset
      = s.inReset := rfl
@[simp] theorem State.log_record (k : RecordKind) (p : Nat) :
    (s.log k p).record
      = s.record ++ [{ kind := k, pos := p }] := rfl
@[simp] theorem State.log_script (k : RecordKind) (p : Nat) : (s.log k p).script = s.script := rfl
@[simp] theorem State.log_pos (k : RecordKind) (p : Nat) : (s.log k p).pos = s.pos := rfl
@[simp] theorem State.log_cmdPos (k : RecordKind) (p : Nat) : (s.log k p).cmdPos = s.cmdPos := rfl
@[simp] theorem State.log_obs (k : RecordKind) (p : Nat) : (s.log k p).obs = s.obs := rfl
@[simp] theorem State.log_awaiting (k : RecordKind) (p : Nat) :
    (s.log k p).awaiting
      = s.awaiting := rfl
@[simp] theorem State.log_turns (k : RecordKind) (p : Nat) : (s.log k p).turns = s.turns := rfl
@[simp] theorem State.log_draws (k : RecordKind) (p : Nat) : (s.log k p).draws = s.draws := rfl

/-! ### raise -/

@[simp] theorem State.raise_cfg (c : FaultCode) : (s.raise c).cfg = s.cfg := rfl
@[simp] theorem State.raise_seq (c : FaultCode) : (s.raise c).seq = s.seq := rfl
@[simp] theorem State.raise_lastCmd (c : FaultCode) : (s.raise c).lastCmd = s.lastCmd := rfl
@[simp] theorem State.raise_busy (c : FaultCode) : (s.raise c).busy = s.busy := rfl
@[simp] theorem State.raise_err (c : FaultCode) : (s.raise c).err = true := rfl
@[simp] theorem State.raise_errCode (c : FaultCode) : (s.raise c).errCode = c := rfl
@[simp] theorem State.raise_triRes (c : FaultCode) : (s.raise c).triRes = s.triRes := rfl
@[simp] theorem State.raise_regs (c : FaultCode) : (s.raise c).regs = s.regs := rfl
@[simp] theorem State.raise_res (c : FaultCode) : (s.raise c).res = s.res := rfl
@[simp] theorem State.raise_resWritten (c : FaultCode) :
    (s.raise c).resWritten
      = s.resWritten := rfl
@[simp] theorem State.raise_edge (c : FaultCode) : (s.raise c).edge = s.edge := rfl
@[simp] theorem State.raise_mem (c : FaultCode) : (s.raise c).mem = s.mem := rfl
@[simp] theorem State.raise_unknown (c : FaultCode) : (s.raise c).unknown = s.unknown := rfl
@[simp] theorem State.raise_inReset (c : FaultCode) : (s.raise c).inReset = s.inReset := rfl
@[simp] theorem State.raise_record (c : FaultCode) :
    (s.raise c).record
      = s.record ++ [{ kind := .arch c, pos := s.cmdPos }] := rfl
@[simp] theorem State.raise_script (c : FaultCode) : (s.raise c).script = s.script := rfl
@[simp] theorem State.raise_pos (c : FaultCode) : (s.raise c).pos = s.pos := rfl
@[simp] theorem State.raise_cmdPos (c : FaultCode) : (s.raise c).cmdPos = s.cmdPos := rfl
@[simp] theorem State.raise_obs (c : FaultCode) : (s.raise c).obs = s.obs := rfl
@[simp] theorem State.raise_awaiting (c : FaultCode) : (s.raise c).awaiting = s.awaiting := rfl
@[simp] theorem State.raise_turns (c : FaultCode) : (s.raise c).turns = s.turns := rfl
@[simp] theorem State.raise_draws (c : FaultCode) : (s.raise c).draws = s.draws := rfl

/-! ### clearErr -/

@[simp] theorem State.clearErr_cfg : (s.clearErr).cfg = s.cfg := rfl
@[simp] theorem State.clearErr_seq : (s.clearErr).seq = s.seq := rfl
@[simp] theorem State.clearErr_lastCmd : (s.clearErr).lastCmd = s.lastCmd := rfl
@[simp] theorem State.clearErr_busy : (s.clearErr).busy = s.busy := rfl
@[simp] theorem State.clearErr_err : (s.clearErr).err = false := rfl
@[simp] theorem State.clearErr_errCode : (s.clearErr).errCode = .none := rfl
@[simp] theorem State.clearErr_triRes : (s.clearErr).triRes = s.triRes := rfl
@[simp] theorem State.clearErr_regs : (s.clearErr).regs = s.regs := rfl
@[simp] theorem State.clearErr_res : (s.clearErr).res = s.res := rfl
@[simp] theorem State.clearErr_resWritten : (s.clearErr).resWritten = s.resWritten := rfl
@[simp] theorem State.clearErr_edge : (s.clearErr).edge = s.edge := rfl
@[simp] theorem State.clearErr_mem : (s.clearErr).mem = s.mem := rfl
@[simp] theorem State.clearErr_unknown : (s.clearErr).unknown = s.unknown := rfl
@[simp] theorem State.clearErr_inReset : (s.clearErr).inReset = s.inReset := rfl
@[simp] theorem State.clearErr_record : (s.clearErr).record = s.record := rfl
@[simp] theorem State.clearErr_script : (s.clearErr).script = s.script := rfl
@[simp] theorem State.clearErr_pos : (s.clearErr).pos = s.pos := rfl
@[simp] theorem State.clearErr_cmdPos : (s.clearErr).cmdPos = s.cmdPos := rfl
@[simp] theorem State.clearErr_obs : (s.clearErr).obs = s.obs := rfl
@[simp] theorem State.clearErr_awaiting : (s.clearErr).awaiting = s.awaiting := rfl
@[simp] theorem State.clearErr_turns : (s.clearErr).turns = s.turns := rfl
@[simp] theorem State.clearErr_draws : (s.clearErr).draws = s.draws := rfl

/-! ### complete -/

@[simp] theorem State.complete_cfg : (s.complete).cfg = s.cfg := rfl
@[simp] theorem State.complete_seq : (s.complete).seq = .idle := rfl
@[simp] theorem State.complete_lastCmd : (s.complete).lastCmd = s.lastCmd := rfl
@[simp] theorem State.complete_busy : (s.complete).busy = false := rfl
@[simp] theorem State.complete_err : (s.complete).err = s.err := rfl
@[simp] theorem State.complete_errCode : (s.complete).errCode = s.errCode := rfl
@[simp] theorem State.complete_triRes : (s.complete).triRes = s.triRes := rfl
@[simp] theorem State.complete_regs : (s.complete).regs = s.regs := rfl
@[simp] theorem State.complete_res : (s.complete).res = s.res := rfl
@[simp] theorem State.complete_resWritten : (s.complete).resWritten = s.resWritten := rfl
@[simp] theorem State.complete_edge : (s.complete).edge = s.edge := rfl
@[simp] theorem State.complete_mem : (s.complete).mem = s.mem := rfl
@[simp] theorem State.complete_unknown : (s.complete).unknown = s.unknown := rfl
@[simp] theorem State.complete_inReset : (s.complete).inReset = s.inReset := rfl
@[simp] theorem State.complete_record : (s.complete).record = s.record := rfl
@[simp] theorem State.complete_script : (s.complete).script = s.script := rfl
@[simp] theorem State.complete_pos : (s.complete).pos = s.pos := rfl
@[simp] theorem State.complete_cmdPos : (s.complete).cmdPos = s.cmdPos := rfl
@[simp] theorem State.complete_obs : (s.complete).obs = s.obs := rfl
@[simp] theorem State.complete_awaiting : (s.complete).awaiting = s.awaiting := rfl
@[simp] theorem State.complete_turns : (s.complete).turns = s.turns := rfl
@[simp] theorem State.complete_draws : (s.complete).draws = s.draws := rfl

/-! ### endFill -/

@[simp] theorem State.endFill_cfg (r : TriRes) : (s.endFill r).cfg = s.cfg := rfl
@[simp] theorem State.endFill_seq (r : TriRes) : (s.endFill r).seq = s.seq := rfl
@[simp] theorem State.endFill_lastCmd (r : TriRes) : (s.endFill r).lastCmd = s.lastCmd := rfl
@[simp] theorem State.endFill_busy (r : TriRes) : (s.endFill r).busy = s.busy := rfl
@[simp] theorem State.endFill_err (r : TriRes) : (s.endFill r).err = s.err := rfl
@[simp] theorem State.endFill_errCode (r : TriRes) : (s.endFill r).errCode = s.errCode := rfl
@[simp] theorem State.endFill_triRes (r : TriRes) : (s.endFill r).triRes = r := rfl
@[simp] theorem State.endFill_regs (r : TriRes) : (s.endFill r).regs = s.regs := rfl
@[simp] theorem State.endFill_res (r : TriRes) : (s.endFill r).res = s.res := rfl
@[simp] theorem State.endFill_resWritten (r : TriRes) :
    (s.endFill r).resWritten
      = s.resWritten := rfl
@[simp] theorem State.endFill_edge (r : TriRes) :
    (s.endFill r).edge
      = Config.freeEdge s.draws := rfl
@[simp] theorem State.endFill_mem (r : TriRes) : (s.endFill r).mem = s.mem := rfl
@[simp] theorem State.endFill_unknown (r : TriRes) : (s.endFill r).unknown = s.unknown := rfl
@[simp] theorem State.endFill_inReset (r : TriRes) : (s.endFill r).inReset = s.inReset := rfl
@[simp] theorem State.endFill_record (r : TriRes) : (s.endFill r).record = s.record := rfl
@[simp] theorem State.endFill_script (r : TriRes) : (s.endFill r).script = s.script := rfl
@[simp] theorem State.endFill_pos (r : TriRes) : (s.endFill r).pos = s.pos := rfl
@[simp] theorem State.endFill_cmdPos (r : TriRes) : (s.endFill r).cmdPos = s.cmdPos := rfl
@[simp] theorem State.endFill_obs (r : TriRes) : (s.endFill r).obs = s.obs := rfl
@[simp] theorem State.endFill_awaiting (r : TriRes) : (s.endFill r).awaiting = s.awaiting := rfl
@[simp] theorem State.endFill_turns (r : TriRes) : (s.endFill r).turns = s.turns := rfl
@[simp] theorem State.endFill_draws (r : TriRes) : (s.endFill r).draws = s.draws + 1 := rfl

/-! ### observe -/

@[simp] theorem State.observe_cfg (v : Option Byte) : (s.observe v).cfg = s.cfg := rfl
@[simp] theorem State.observe_seq (v : Option Byte) : (s.observe v).seq = s.seq := rfl
@[simp] theorem State.observe_lastCmd (v : Option Byte) : (s.observe v).lastCmd = s.lastCmd := rfl
@[simp] theorem State.observe_busy (v : Option Byte) : (s.observe v).busy = s.busy := rfl
@[simp] theorem State.observe_err (v : Option Byte) : (s.observe v).err = s.err := rfl
@[simp] theorem State.observe_errCode (v : Option Byte) : (s.observe v).errCode = s.errCode := rfl
@[simp] theorem State.observe_triRes (v : Option Byte) : (s.observe v).triRes = s.triRes := rfl
@[simp] theorem State.observe_regs (v : Option Byte) : (s.observe v).regs = s.regs := rfl
@[simp] theorem State.observe_res (v : Option Byte) : (s.observe v).res = s.res := rfl
@[simp] theorem State.observe_resWritten (v : Option Byte) :
    (s.observe v).resWritten
      = s.resWritten := rfl
@[simp] theorem State.observe_edge (v : Option Byte) : (s.observe v).edge = s.edge := rfl
@[simp] theorem State.observe_mem (v : Option Byte) : (s.observe v).mem = s.mem := rfl
@[simp] theorem State.observe_unknown (v : Option Byte) : (s.observe v).unknown = s.unknown := rfl
@[simp] theorem State.observe_inReset (v : Option Byte) : (s.observe v).inReset = s.inReset := rfl
@[simp] theorem State.observe_record (v : Option Byte) : (s.observe v).record = s.record := rfl
@[simp] theorem State.observe_script (v : Option Byte) : (s.observe v).script = s.script := rfl
@[simp] theorem State.observe_pos (v : Option Byte) : (s.observe v).pos = s.pos := rfl
@[simp] theorem State.observe_cmdPos (v : Option Byte) : (s.observe v).cmdPos = s.cmdPos := rfl
@[simp] theorem State.observe_obs (v : Option Byte) : (s.observe v).obs = s.obs ++ [v] := rfl
@[simp] theorem State.observe_awaiting (v : Option Byte) :
    (s.observe v).awaiting
      = s.awaiting := rfl
@[simp] theorem State.observe_turns (v : Option Byte) : (s.observe v).turns = s.turns := rfl
@[simp] theorem State.observe_draws (v : Option Byte) : (s.observe v).draws = s.draws := rfl

/-! ### sawStatus -/

@[simp] theorem State.sawStatus_cfg : (s.sawStatus).cfg = s.cfg := rfl
@[simp] theorem State.sawStatus_seq : (s.sawStatus).seq = s.seq := rfl
@[simp] theorem State.sawStatus_lastCmd : (s.sawStatus).lastCmd = s.lastCmd := rfl
@[simp] theorem State.sawStatus_busy : (s.sawStatus).busy = s.busy := rfl
@[simp] theorem State.sawStatus_err : (s.sawStatus).err = s.err := rfl
@[simp] theorem State.sawStatus_errCode : (s.sawStatus).errCode = s.errCode := rfl
@[simp] theorem State.sawStatus_triRes : (s.sawStatus).triRes = s.triRes := rfl
@[simp] theorem State.sawStatus_regs : (s.sawStatus).regs = s.regs := rfl
@[simp] theorem State.sawStatus_res : (s.sawStatus).res = s.res := rfl
@[simp] theorem State.sawStatus_resWritten : (s.sawStatus).resWritten = s.resWritten := rfl
@[simp] theorem State.sawStatus_edge : (s.sawStatus).edge = s.edge := rfl
@[simp] theorem State.sawStatus_mem : (s.sawStatus).mem = s.mem := rfl
@[simp] theorem State.sawStatus_unknown : (s.sawStatus).unknown = s.unknown := rfl
@[simp] theorem State.sawStatus_inReset : (s.sawStatus).inReset = s.inReset := rfl
@[simp] theorem State.sawStatus_record : (s.sawStatus).record = s.record := rfl
@[simp] theorem State.sawStatus_script : (s.sawStatus).script = s.script := rfl
@[simp] theorem State.sawStatus_pos : (s.sawStatus).pos = s.pos := rfl
@[simp] theorem State.sawStatus_cmdPos : (s.sawStatus).cmdPos = s.cmdPos := rfl
@[simp] theorem State.sawStatus_obs : (s.sawStatus).obs = s.obs := rfl
@[simp] theorem State.sawStatus_awaiting : (s.sawStatus).awaiting = (s.awaiting && s.busy) := rfl
@[simp] theorem State.sawStatus_turns : (s.sawStatus).turns = s.turns := rfl
@[simp] theorem State.sawStatus_draws : (s.sawStatus).draws = s.draws := rfl

/-! ### hazard -/

@[simp] theorem State.hazard_cfg (p : Nat) : (s.hazard p).cfg = s.cfg := rfl
@[simp] theorem State.hazard_seq (p : Nat) : (s.hazard p).seq = s.seq := rfl
@[simp] theorem State.hazard_lastCmd (p : Nat) : (s.hazard p).lastCmd = s.lastCmd := rfl
@[simp] theorem State.hazard_busy (p : Nat) : (s.hazard p).busy = s.busy := rfl
@[simp] theorem State.hazard_err (p : Nat) : (s.hazard p).err = s.err := rfl
@[simp] theorem State.hazard_errCode (p : Nat) : (s.hazard p).errCode = s.errCode := rfl
@[simp] theorem State.hazard_triRes (p : Nat) : (s.hazard p).triRes = s.triRes := rfl
@[simp] theorem State.hazard_regs (p : Nat) : (s.hazard p).regs = s.regs := rfl
@[simp] theorem State.hazard_res (p : Nat) : (s.hazard p).res = s.res := rfl
@[simp] theorem State.hazard_resWritten (p : Nat) : (s.hazard p).resWritten = s.resWritten := rfl
@[simp] theorem State.hazard_edge (p : Nat) : (s.hazard p).edge = s.edge := rfl
@[simp] theorem State.hazard_mem (p : Nat) : (s.hazard p).mem = s.mem := rfl
@[simp] theorem State.hazard_unknown (p : Nat) : (s.hazard p).unknown = s.unknown := rfl
@[simp] theorem State.hazard_inReset (p : Nat) : (s.hazard p).inReset = s.inReset := rfl
@[simp] theorem State.hazard_record (p : Nat) :
    (s.hazard p).record
      = s.record ++ [{ kind := .hostHazard, pos := p }] := rfl
@[simp] theorem State.hazard_script (p : Nat) : (s.hazard p).script = s.script := rfl
@[simp] theorem State.hazard_pos (p : Nat) : (s.hazard p).pos = s.pos := rfl
@[simp] theorem State.hazard_cmdPos (p : Nat) : (s.hazard p).cmdPos = s.cmdPos := rfl
@[simp] theorem State.hazard_obs (p : Nat) : (s.hazard p).obs = s.obs := rfl
@[simp] theorem State.hazard_awaiting (p : Nat) : (s.hazard p).awaiting = s.awaiting := rfl
@[simp] theorem State.hazard_turns (p : Nat) : (s.hazard p).turns = s.turns := rfl
@[simp] theorem State.hazard_draws (p : Nat) : (s.hazard p).draws = s.draws := rfl

/-! ### taken -/

@[simp] theorem State.taken_cfg (rest : List HostOp) : (s.taken rest).cfg = s.cfg := rfl
@[simp] theorem State.taken_seq (rest : List HostOp) : (s.taken rest).seq = s.seq := rfl
@[simp] theorem State.taken_lastCmd (rest : List HostOp) : (s.taken rest).lastCmd = s.lastCmd := rfl
@[simp] theorem State.taken_busy (rest : List HostOp) : (s.taken rest).busy = s.busy := rfl
@[simp] theorem State.taken_err (rest : List HostOp) : (s.taken rest).err = s.err := rfl
@[simp] theorem State.taken_errCode (rest : List HostOp) : (s.taken rest).errCode = s.errCode := rfl
@[simp] theorem State.taken_triRes (rest : List HostOp) : (s.taken rest).triRes = s.triRes := rfl
@[simp] theorem State.taken_regs (rest : List HostOp) : (s.taken rest).regs = s.regs := rfl
@[simp] theorem State.taken_res (rest : List HostOp) : (s.taken rest).res = s.res := rfl
@[simp] theorem State.taken_resWritten (rest : List HostOp) :
    (s.taken rest).resWritten
      = s.resWritten := rfl
@[simp] theorem State.taken_edge (rest : List HostOp) : (s.taken rest).edge = s.edge := rfl
@[simp] theorem State.taken_mem (rest : List HostOp) : (s.taken rest).mem = s.mem := rfl
@[simp] theorem State.taken_unknown (rest : List HostOp) : (s.taken rest).unknown = s.unknown := rfl
@[simp] theorem State.taken_inReset (rest : List HostOp) : (s.taken rest).inReset = s.inReset := rfl
@[simp] theorem State.taken_record (rest : List HostOp) : (s.taken rest).record = s.record := rfl
@[simp] theorem State.taken_script (rest : List HostOp) : (s.taken rest).script = rest := rfl
@[simp] theorem State.taken_pos (rest : List HostOp) : (s.taken rest).pos = s.pos + 1 := rfl
@[simp] theorem State.taken_cmdPos (rest : List HostOp) : (s.taken rest).cmdPos = s.cmdPos := rfl
@[simp] theorem State.taken_obs (rest : List HostOp) : (s.taken rest).obs = s.obs := rfl
@[simp] theorem State.taken_awaiting (rest : List HostOp) :
    (s.taken rest).awaiting
      = s.awaiting := rfl
@[simp] theorem State.taken_turns (rest : List HostOp) : (s.taken rest).turns = s.turns - 1 := rfl
@[simp] theorem State.taken_draws (rest : List HostOp) : (s.taken rest).draws = s.draws := rfl

/-! ### resetUnit -/

@[simp] theorem State.resetUnit_cfg : (s.resetUnit).cfg = s.cfg := rfl
@[simp] theorem State.resetUnit_seq : (s.resetUnit).seq = .idle := rfl
@[simp] theorem State.resetUnit_lastCmd : (s.resetUnit).lastCmd = 0x00 := rfl
@[simp] theorem State.resetUnit_busy : (s.resetUnit).busy = false := rfl
@[simp] theorem State.resetUnit_err : (s.resetUnit).err = false := rfl
@[simp] theorem State.resetUnit_errCode : (s.resetUnit).errCode = .none := rfl
@[simp] theorem State.resetUnit_triRes : (s.resetUnit).triRes = .noneYet := rfl
@[simp] theorem State.resetUnit_regs : (s.resetUnit).regs = DataRegs.reset := rfl
@[simp] theorem State.resetUnit_res : (s.resetUnit).res = 0 := rfl
@[simp] theorem State.resetUnit_resWritten : (s.resetUnit).resWritten = false := rfl
@[simp] theorem State.resetUnit_edge : (s.resetUnit).edge = EdgeState.reset := rfl
@[simp] theorem State.resetUnit_mem : (s.resetUnit).mem = s.mem := rfl
@[simp] theorem State.resetUnit_unknown : (s.resetUnit).unknown = s.unknown := rfl
@[simp] theorem State.resetUnit_inReset : (s.resetUnit).inReset = s.inReset := rfl
@[simp] theorem State.resetUnit_record : (s.resetUnit).record = s.record := rfl
@[simp] theorem State.resetUnit_script : (s.resetUnit).script = s.script := rfl
@[simp] theorem State.resetUnit_pos : (s.resetUnit).pos = s.pos := rfl
@[simp] theorem State.resetUnit_cmdPos : (s.resetUnit).cmdPos = s.cmdPos := rfl
@[simp] theorem State.resetUnit_obs : (s.resetUnit).obs = s.obs := rfl
@[simp] theorem State.resetUnit_awaiting : (s.resetUnit).awaiting = false := rfl
@[simp] theorem State.resetUnit_turns : (s.resetUnit).turns = 0 := rfl
@[simp] theorem State.resetUnit_draws : (s.resetUnit).draws = s.draws := rfl

/-! ### putCells -/

@[simp] theorem State.putCells_cfg (ws : List CellWrite) : (s.putCells ws).cfg = s.cfg := rfl
@[simp] theorem State.putCells_seq (ws : List CellWrite) : (s.putCells ws).seq = s.seq := rfl
@[simp] theorem State.putCells_lastCmd (ws : List CellWrite) :
    (s.putCells ws).lastCmd
      = s.lastCmd := rfl
@[simp] theorem State.putCells_busy (ws : List CellWrite) : (s.putCells ws).busy = s.busy := rfl
@[simp] theorem State.putCells_err (ws : List CellWrite) : (s.putCells ws).err = s.err := rfl
@[simp] theorem State.putCells_errCode (ws : List CellWrite) :
    (s.putCells ws).errCode
      = s.errCode := rfl
@[simp] theorem State.putCells_triRes (ws : List CellWrite) :
    (s.putCells ws).triRes
      = s.triRes := rfl
@[simp] theorem State.putCells_regs (ws : List CellWrite) : (s.putCells ws).regs = s.regs := rfl
@[simp] theorem State.putCells_res (ws : List CellWrite) : (s.putCells ws).res = s.res := rfl
@[simp] theorem State.putCells_resWritten (ws : List CellWrite) :
    (s.putCells ws).resWritten
      = s.resWritten := rfl
@[simp] theorem State.putCells_edge (ws : List CellWrite) : (s.putCells ws).edge = s.edge := rfl
@[simp] theorem State.putCells_mem (ws : List CellWrite) :
    (s.putCells ws).mem
      = writeCells s.fbbase (spread s.regs.color.val) s.mem ws := rfl
@[simp] theorem State.putCells_unknown (ws : List CellWrite) :
    (s.putCells ws).unknown
      = stillUnknown s.fbbase s.unknown ws := rfl
@[simp] theorem State.putCells_inReset (ws : List CellWrite) :
    (s.putCells ws).inReset
      = s.inReset := rfl
@[simp] theorem State.putCells_record (ws : List CellWrite) :
    (s.putCells ws).record
      = if readsUnknown s.fbbase s.unknown ws then s.record ++ [{ kind := .uninit, pos := s.cmdPos }]
      else s.record := rfl
@[simp] theorem State.putCells_script (ws : List CellWrite) :
    (s.putCells ws).script
      = s.script := rfl
@[simp] theorem State.putCells_pos (ws : List CellWrite) : (s.putCells ws).pos = s.pos := rfl
@[simp] theorem State.putCells_cmdPos (ws : List CellWrite) :
    (s.putCells ws).cmdPos
      = s.cmdPos := rfl
@[simp] theorem State.putCells_obs (ws : List CellWrite) : (s.putCells ws).obs = s.obs := rfl
@[simp] theorem State.putCells_awaiting (ws : List CellWrite) :
    (s.putCells ws).awaiting
      = s.awaiting := rfl
@[simp] theorem State.putCells_turns (ws : List CellWrite) : (s.putCells ws).turns = s.turns := rfl
@[simp] theorem State.putCells_draws (ws : List CellWrite) : (s.putCells ws).draws = s.draws := rfl

/-! ### poll -/

@[simp] theorem State.poll_cfg : s.poll.cfg = s.cfg := rfl
@[simp] theorem State.poll_seq : s.poll.seq = s.seq := rfl
@[simp] theorem State.poll_lastCmd : s.poll.lastCmd = s.lastCmd := rfl
@[simp] theorem State.poll_busy : s.poll.busy = s.busy := rfl
@[simp] theorem State.poll_err : s.poll.err = s.err := rfl
@[simp] theorem State.poll_errCode : s.poll.errCode = s.errCode := rfl
@[simp] theorem State.poll_triRes : s.poll.triRes = s.triRes := rfl
@[simp] theorem State.poll_regs : s.poll.regs = s.regs := rfl
@[simp] theorem State.poll_res : s.poll.res = s.res := rfl
@[simp] theorem State.poll_resWritten : s.poll.resWritten = s.resWritten := rfl
@[simp] theorem State.poll_edge : s.poll.edge = s.edge := rfl
@[simp] theorem State.poll_mem : s.poll.mem = s.mem := rfl
@[simp] theorem State.poll_unknown : s.poll.unknown = s.unknown := rfl
@[simp] theorem State.poll_inReset : s.poll.inReset = s.inReset := rfl
@[simp] theorem State.poll_record : s.poll.record = s.record := rfl
@[simp] theorem State.poll_script : s.poll.script = s.script := rfl
@[simp] theorem State.poll_pos : s.poll.pos = s.pos := rfl
@[simp] theorem State.poll_cmdPos : s.poll.cmdPos = s.cmdPos := rfl
@[simp] theorem State.poll_obs : s.poll.obs = s.obs ++ [some s.status] := rfl
@[simp] theorem State.poll_awaiting : s.poll.awaiting = s.awaiting := rfl
@[simp] theorem State.poll_turns : s.poll.turns = s.turns - 1 := rfl
@[simp] theorem State.poll_draws : s.poll.draws = s.draws := rfl

/-! ### noteRegion: the record is the only field it can change -/

@[simp] theorem State.noteRegion_cfg (p : Nat) : (s.noteRegion p).cfg = s.cfg := by
  unfold State.noteRegion; split <;> rfl
@[simp] theorem State.noteRegion_seq (p : Nat) : (s.noteRegion p).seq = s.seq := by
  unfold State.noteRegion; split <;> rfl
@[simp] theorem State.noteRegion_lastCmd (p : Nat) : (s.noteRegion p).lastCmd = s.lastCmd := by
  unfold State.noteRegion; split <;> rfl
@[simp] theorem State.noteRegion_busy (p : Nat) : (s.noteRegion p).busy = s.busy := by
  unfold State.noteRegion; split <;> rfl
@[simp] theorem State.noteRegion_err (p : Nat) : (s.noteRegion p).err = s.err := by
  unfold State.noteRegion; split <;> rfl
@[simp] theorem State.noteRegion_errCode (p : Nat) : (s.noteRegion p).errCode = s.errCode := by
  unfold State.noteRegion; split <;> rfl
@[simp] theorem State.noteRegion_triRes (p : Nat) : (s.noteRegion p).triRes = s.triRes := by
  unfold State.noteRegion; split <;> rfl
@[simp] theorem State.noteRegion_regs (p : Nat) : (s.noteRegion p).regs = s.regs := by
  unfold State.noteRegion; split <;> rfl
@[simp] theorem State.noteRegion_res (p : Nat) : (s.noteRegion p).res = s.res := by
  unfold State.noteRegion; split <;> rfl
@[simp] theorem State.noteRegion_resWritten (p : Nat) : (s.noteRegion p).resWritten = s.resWritten := by
  unfold State.noteRegion; split <;> rfl
@[simp] theorem State.noteRegion_edge (p : Nat) : (s.noteRegion p).edge = s.edge := by
  unfold State.noteRegion; split <;> rfl
@[simp] theorem State.noteRegion_mem (p : Nat) : (s.noteRegion p).mem = s.mem := by
  unfold State.noteRegion; split <;> rfl
@[simp] theorem State.noteRegion_unknown (p : Nat) : (s.noteRegion p).unknown = s.unknown := by
  unfold State.noteRegion; split <;> rfl
@[simp] theorem State.noteRegion_inReset (p : Nat) : (s.noteRegion p).inReset = s.inReset := by
  unfold State.noteRegion; split <;> rfl
@[simp] theorem State.noteRegion_script (p : Nat) : (s.noteRegion p).script = s.script := by
  unfold State.noteRegion; split <;> rfl
@[simp] theorem State.noteRegion_pos (p : Nat) : (s.noteRegion p).pos = s.pos := by
  unfold State.noteRegion; split <;> rfl
@[simp] theorem State.noteRegion_cmdPos (p : Nat) : (s.noteRegion p).cmdPos = s.cmdPos := by
  unfold State.noteRegion; split <;> rfl
@[simp] theorem State.noteRegion_obs (p : Nat) : (s.noteRegion p).obs = s.obs := by
  unfold State.noteRegion; split <;> rfl
@[simp] theorem State.noteRegion_awaiting (p : Nat) : (s.noteRegion p).awaiting = s.awaiting := by
  unfold State.noteRegion; split <;> rfl
@[simp] theorem State.noteRegion_turns (p : Nat) : (s.noteRegion p).turns = s.turns := by
  unfold State.noteRegion; split <;> rfl
@[simp] theorem State.noteRegion_draws (p : Nat) : (s.noteRegion p).draws = s.draws := by
  unfold State.noteRegion; split <;> rfl

/-- noteRegion changes nothing but the record. -/
theorem State.noteRegion_eq (p : Nat) :
    s.noteRegion p = { s with record := (s.noteRegion p).record } := by
  unfold State.noteRegion; split <;> rfl

/-! ### What an update that leaves the registers alone leaves -/

@[simp] theorem State.setRes_fbbase (v : Res24) : (s.setRes v).fbbase = s.fbbase := rfl
@[simp] theorem State.setRes_misplaced (v : Res24) : (s.setRes v).misplaced = s.misplaced := rfl
@[simp] theorem State.setRes_color (v : Res24) : (s.setRes v).color = s.color := rfl
@[simp] theorem State.setRes_p0 (v : Res24) : (s.setRes v).p0 = s.p0 := rfl
@[simp] theorem State.setRes_p1 (v : Res24) : (s.setRes v).p1 = s.p1 := rfl
@[simp] theorem State.setRes_p2 (v : Res24) : (s.setRes v).p2 = s.p2 := rfl
@[simp] theorem State.setRes_p3 (v : Res24) : (s.setRes v).p3 = s.p3 := rfl
@[simp] theorem State.setRes_p4 (v : Res24) : (s.setRes v).p4 = s.p4 := rfl
@[simp] theorem State.setRes_p5 (v : Res24) : (s.setRes v).p5 = s.p5 := rfl
@[simp] theorem State.setRes_opaU8 (v : Res24) : (s.setRes v).opaU8 = s.opaU8 := rfl
@[simp] theorem State.setRes_opaS8 (v : Res24) : (s.setRes v).opaS8 = s.opaS8 := rfl
@[simp] theorem State.setRes_opaS16 (v : Res24) : (s.setRes v).opaS16 = s.opaS16 := rfl
@[simp] theorem State.setRes_opbU8 (v : Res24) : (s.setRes v).opbU8 = s.opbU8 := rfl
@[simp] theorem State.setRes_opbS8 (v : Res24) : (s.setRes v).opbS8 = s.opbS8 := rfl
@[simp] theorem State.log_fbbase (k : RecordKind) (p : Nat) : (s.log k p).fbbase = s.fbbase := rfl
@[simp] theorem State.log_misplaced (k : RecordKind) (p : Nat) : (s.log k p).misplaced = s.misplaced := rfl
@[simp] theorem State.log_color (k : RecordKind) (p : Nat) : (s.log k p).color = s.color := rfl
@[simp] theorem State.log_p0 (k : RecordKind) (p : Nat) : (s.log k p).p0 = s.p0 := rfl
@[simp] theorem State.log_p1 (k : RecordKind) (p : Nat) : (s.log k p).p1 = s.p1 := rfl
@[simp] theorem State.log_p2 (k : RecordKind) (p : Nat) : (s.log k p).p2 = s.p2 := rfl
@[simp] theorem State.log_p3 (k : RecordKind) (p : Nat) : (s.log k p).p3 = s.p3 := rfl
@[simp] theorem State.log_p4 (k : RecordKind) (p : Nat) : (s.log k p).p4 = s.p4 := rfl
@[simp] theorem State.log_p5 (k : RecordKind) (p : Nat) : (s.log k p).p5 = s.p5 := rfl
@[simp] theorem State.log_opaU8 (k : RecordKind) (p : Nat) : (s.log k p).opaU8 = s.opaU8 := rfl
@[simp] theorem State.log_opaS8 (k : RecordKind) (p : Nat) : (s.log k p).opaS8 = s.opaS8 := rfl
@[simp] theorem State.log_opaS16 (k : RecordKind) (p : Nat) : (s.log k p).opaS16 = s.opaS16 := rfl
@[simp] theorem State.log_opbU8 (k : RecordKind) (p : Nat) : (s.log k p).opbU8 = s.opbU8 := rfl
@[simp] theorem State.log_opbS8 (k : RecordKind) (p : Nat) : (s.log k p).opbS8 = s.opbS8 := rfl
@[simp] theorem State.raise_fbbase (c : FaultCode) : (s.raise c).fbbase = s.fbbase := rfl
@[simp] theorem State.raise_misplaced (c : FaultCode) : (s.raise c).misplaced = s.misplaced := rfl
@[simp] theorem State.raise_color (c : FaultCode) : (s.raise c).color = s.color := rfl
@[simp] theorem State.raise_p0 (c : FaultCode) : (s.raise c).p0 = s.p0 := rfl
@[simp] theorem State.raise_p1 (c : FaultCode) : (s.raise c).p1 = s.p1 := rfl
@[simp] theorem State.raise_p2 (c : FaultCode) : (s.raise c).p2 = s.p2 := rfl
@[simp] theorem State.raise_p3 (c : FaultCode) : (s.raise c).p3 = s.p3 := rfl
@[simp] theorem State.raise_p4 (c : FaultCode) : (s.raise c).p4 = s.p4 := rfl
@[simp] theorem State.raise_p5 (c : FaultCode) : (s.raise c).p5 = s.p5 := rfl
@[simp] theorem State.raise_opaU8 (c : FaultCode) : (s.raise c).opaU8 = s.opaU8 := rfl
@[simp] theorem State.raise_opaS8 (c : FaultCode) : (s.raise c).opaS8 = s.opaS8 := rfl
@[simp] theorem State.raise_opaS16 (c : FaultCode) : (s.raise c).opaS16 = s.opaS16 := rfl
@[simp] theorem State.raise_opbU8 (c : FaultCode) : (s.raise c).opbU8 = s.opbU8 := rfl
@[simp] theorem State.raise_opbS8 (c : FaultCode) : (s.raise c).opbS8 = s.opbS8 := rfl
@[simp] theorem State.clearErr_fbbase : (s.clearErr).fbbase = s.fbbase := rfl
@[simp] theorem State.clearErr_misplaced : (s.clearErr).misplaced = s.misplaced := rfl
@[simp] theorem State.clearErr_color : (s.clearErr).color = s.color := rfl
@[simp] theorem State.clearErr_p0 : (s.clearErr).p0 = s.p0 := rfl
@[simp] theorem State.clearErr_p1 : (s.clearErr).p1 = s.p1 := rfl
@[simp] theorem State.clearErr_p2 : (s.clearErr).p2 = s.p2 := rfl
@[simp] theorem State.clearErr_p3 : (s.clearErr).p3 = s.p3 := rfl
@[simp] theorem State.clearErr_p4 : (s.clearErr).p4 = s.p4 := rfl
@[simp] theorem State.clearErr_p5 : (s.clearErr).p5 = s.p5 := rfl
@[simp] theorem State.clearErr_opaU8 : (s.clearErr).opaU8 = s.opaU8 := rfl
@[simp] theorem State.clearErr_opaS8 : (s.clearErr).opaS8 = s.opaS8 := rfl
@[simp] theorem State.clearErr_opaS16 : (s.clearErr).opaS16 = s.opaS16 := rfl
@[simp] theorem State.clearErr_opbU8 : (s.clearErr).opbU8 = s.opbU8 := rfl
@[simp] theorem State.clearErr_opbS8 : (s.clearErr).opbS8 = s.opbS8 := rfl
@[simp] theorem State.complete_fbbase : (s.complete).fbbase = s.fbbase := rfl
@[simp] theorem State.complete_misplaced : (s.complete).misplaced = s.misplaced := rfl
@[simp] theorem State.complete_color : (s.complete).color = s.color := rfl
@[simp] theorem State.complete_p0 : (s.complete).p0 = s.p0 := rfl
@[simp] theorem State.complete_p1 : (s.complete).p1 = s.p1 := rfl
@[simp] theorem State.complete_p2 : (s.complete).p2 = s.p2 := rfl
@[simp] theorem State.complete_p3 : (s.complete).p3 = s.p3 := rfl
@[simp] theorem State.complete_p4 : (s.complete).p4 = s.p4 := rfl
@[simp] theorem State.complete_p5 : (s.complete).p5 = s.p5 := rfl
@[simp] theorem State.complete_opaU8 : (s.complete).opaU8 = s.opaU8 := rfl
@[simp] theorem State.complete_opaS8 : (s.complete).opaS8 = s.opaS8 := rfl
@[simp] theorem State.complete_opaS16 : (s.complete).opaS16 = s.opaS16 := rfl
@[simp] theorem State.complete_opbU8 : (s.complete).opbU8 = s.opbU8 := rfl
@[simp] theorem State.complete_opbS8 : (s.complete).opbS8 = s.opbS8 := rfl
@[simp] theorem State.endFill_fbbase (r : TriRes) : (s.endFill r).fbbase = s.fbbase := rfl
@[simp] theorem State.endFill_misplaced (r : TriRes) : (s.endFill r).misplaced = s.misplaced := rfl
@[simp] theorem State.endFill_color (r : TriRes) : (s.endFill r).color = s.color := rfl
@[simp] theorem State.endFill_p0 (r : TriRes) : (s.endFill r).p0 = s.p0 := rfl
@[simp] theorem State.endFill_p1 (r : TriRes) : (s.endFill r).p1 = s.p1 := rfl
@[simp] theorem State.endFill_p2 (r : TriRes) : (s.endFill r).p2 = s.p2 := rfl
@[simp] theorem State.endFill_p3 (r : TriRes) : (s.endFill r).p3 = s.p3 := rfl
@[simp] theorem State.endFill_p4 (r : TriRes) : (s.endFill r).p4 = s.p4 := rfl
@[simp] theorem State.endFill_p5 (r : TriRes) : (s.endFill r).p5 = s.p5 := rfl
@[simp] theorem State.endFill_opaU8 (r : TriRes) : (s.endFill r).opaU8 = s.opaU8 := rfl
@[simp] theorem State.endFill_opaS8 (r : TriRes) : (s.endFill r).opaS8 = s.opaS8 := rfl
@[simp] theorem State.endFill_opaS16 (r : TriRes) : (s.endFill r).opaS16 = s.opaS16 := rfl
@[simp] theorem State.endFill_opbU8 (r : TriRes) : (s.endFill r).opbU8 = s.opbU8 := rfl
@[simp] theorem State.endFill_opbS8 (r : TriRes) : (s.endFill r).opbS8 = s.opbS8 := rfl
@[simp] theorem State.putCells_fbbase (ws : List CellWrite) : (s.putCells ws).fbbase = s.fbbase := rfl
@[simp] theorem State.putCells_misplaced (ws : List CellWrite) : (s.putCells ws).misplaced = s.misplaced := rfl
@[simp] theorem State.putCells_color (ws : List CellWrite) : (s.putCells ws).color = s.color := rfl
@[simp] theorem State.putCells_p0 (ws : List CellWrite) : (s.putCells ws).p0 = s.p0 := rfl
@[simp] theorem State.putCells_p1 (ws : List CellWrite) : (s.putCells ws).p1 = s.p1 := rfl
@[simp] theorem State.putCells_p2 (ws : List CellWrite) : (s.putCells ws).p2 = s.p2 := rfl
@[simp] theorem State.putCells_p3 (ws : List CellWrite) : (s.putCells ws).p3 = s.p3 := rfl
@[simp] theorem State.putCells_p4 (ws : List CellWrite) : (s.putCells ws).p4 = s.p4 := rfl
@[simp] theorem State.putCells_p5 (ws : List CellWrite) : (s.putCells ws).p5 = s.p5 := rfl
@[simp] theorem State.putCells_opaU8 (ws : List CellWrite) : (s.putCells ws).opaU8 = s.opaU8 := rfl
@[simp] theorem State.putCells_opaS8 (ws : List CellWrite) : (s.putCells ws).opaS8 = s.opaS8 := rfl
@[simp] theorem State.putCells_opaS16 (ws : List CellWrite) : (s.putCells ws).opaS16 = s.opaS16 := rfl
@[simp] theorem State.putCells_opbU8 (ws : List CellWrite) : (s.putCells ws).opbU8 = s.opbU8 := rfl
@[simp] theorem State.putCells_opbS8 (ws : List CellWrite) : (s.putCells ws).opbS8 = s.opbS8 := rfl

/-! ### noteReads: the record is the only field it can change -/

@[simp] theorem State.noteReads_cfg (ds : List DataReg) : (s.noteReads ds).cfg = s.cfg := by
  unfold State.noteReads; split <;> rfl
@[simp] theorem State.noteReads_seq (ds : List DataReg) : (s.noteReads ds).seq = s.seq := by
  unfold State.noteReads; split <;> rfl
@[simp] theorem State.noteReads_lastCmd (ds : List DataReg) : (s.noteReads ds).lastCmd = s.lastCmd := by
  unfold State.noteReads; split <;> rfl
@[simp] theorem State.noteReads_busy (ds : List DataReg) : (s.noteReads ds).busy = s.busy := by
  unfold State.noteReads; split <;> rfl
@[simp] theorem State.noteReads_err (ds : List DataReg) : (s.noteReads ds).err = s.err := by
  unfold State.noteReads; split <;> rfl
@[simp] theorem State.noteReads_errCode (ds : List DataReg) : (s.noteReads ds).errCode = s.errCode := by
  unfold State.noteReads; split <;> rfl
@[simp] theorem State.noteReads_triRes (ds : List DataReg) : (s.noteReads ds).triRes = s.triRes := by
  unfold State.noteReads; split <;> rfl
@[simp] theorem State.noteReads_regs (ds : List DataReg) : (s.noteReads ds).regs = s.regs := by
  unfold State.noteReads; split <;> rfl
@[simp] theorem State.noteReads_res (ds : List DataReg) : (s.noteReads ds).res = s.res := by
  unfold State.noteReads; split <;> rfl
@[simp] theorem State.noteReads_resWritten (ds : List DataReg) : (s.noteReads ds).resWritten = s.resWritten := by
  unfold State.noteReads; split <;> rfl
@[simp] theorem State.noteReads_edge (ds : List DataReg) : (s.noteReads ds).edge = s.edge := by
  unfold State.noteReads; split <;> rfl
@[simp] theorem State.noteReads_mem (ds : List DataReg) : (s.noteReads ds).mem = s.mem := by
  unfold State.noteReads; split <;> rfl
@[simp] theorem State.noteReads_unknown (ds : List DataReg) : (s.noteReads ds).unknown = s.unknown := by
  unfold State.noteReads; split <;> rfl
@[simp] theorem State.noteReads_inReset (ds : List DataReg) : (s.noteReads ds).inReset = s.inReset := by
  unfold State.noteReads; split <;> rfl
@[simp] theorem State.noteReads_script (ds : List DataReg) : (s.noteReads ds).script = s.script := by
  unfold State.noteReads; split <;> rfl
@[simp] theorem State.noteReads_pos (ds : List DataReg) : (s.noteReads ds).pos = s.pos := by
  unfold State.noteReads; split <;> rfl
@[simp] theorem State.noteReads_cmdPos (ds : List DataReg) : (s.noteReads ds).cmdPos = s.cmdPos := by
  unfold State.noteReads; split <;> rfl
@[simp] theorem State.noteReads_obs (ds : List DataReg) : (s.noteReads ds).obs = s.obs := by
  unfold State.noteReads; split <;> rfl
@[simp] theorem State.noteReads_awaiting (ds : List DataReg) : (s.noteReads ds).awaiting = s.awaiting := by
  unfold State.noteReads; split <;> rfl
@[simp] theorem State.noteReads_turns (ds : List DataReg) : (s.noteReads ds).turns = s.turns := by
  unfold State.noteReads; split <;> rfl
@[simp] theorem State.noteReads_draws (ds : List DataReg) : (s.noteReads ds).draws = s.draws := by
  unfold State.noteReads; split <;> rfl
@[simp] theorem State.noteReads_fbbase (ds : List DataReg) : (s.noteReads ds).fbbase = s.fbbase := by
  unfold State.noteReads; split <;> rfl
@[simp] theorem State.noteReads_misplaced (ds : List DataReg) : (s.noteReads ds).misplaced = s.misplaced := by
  unfold State.noteReads; split <;> rfl
@[simp] theorem State.noteReads_color (ds : List DataReg) : (s.noteReads ds).color = s.color := by
  unfold State.noteReads; split <;> rfl
@[simp] theorem State.noteReads_p0 (ds : List DataReg) : (s.noteReads ds).p0 = s.p0 := by
  unfold State.noteReads; split <;> rfl
@[simp] theorem State.noteReads_p1 (ds : List DataReg) : (s.noteReads ds).p1 = s.p1 := by
  unfold State.noteReads; split <;> rfl
@[simp] theorem State.noteReads_p2 (ds : List DataReg) : (s.noteReads ds).p2 = s.p2 := by
  unfold State.noteReads; split <;> rfl
@[simp] theorem State.noteReads_p3 (ds : List DataReg) : (s.noteReads ds).p3 = s.p3 := by
  unfold State.noteReads; split <;> rfl
@[simp] theorem State.noteReads_p4 (ds : List DataReg) : (s.noteReads ds).p4 = s.p4 := by
  unfold State.noteReads; split <;> rfl
@[simp] theorem State.noteReads_p5 (ds : List DataReg) : (s.noteReads ds).p5 = s.p5 := by
  unfold State.noteReads; split <;> rfl
@[simp] theorem State.noteReads_opaU8 (ds : List DataReg) : (s.noteReads ds).opaU8 = s.opaU8 := by
  unfold State.noteReads; split <;> rfl
@[simp] theorem State.noteReads_opaS8 (ds : List DataReg) : (s.noteReads ds).opaS8 = s.opaS8 := by
  unfold State.noteReads; split <;> rfl
@[simp] theorem State.noteReads_opaS16 (ds : List DataReg) : (s.noteReads ds).opaS16 = s.opaS16 := by
  unfold State.noteReads; split <;> rfl
@[simp] theorem State.noteReads_opbU8 (ds : List DataReg) : (s.noteReads ds).opbU8 = s.opbU8 := by
  unfold State.noteReads; split <;> rfl
@[simp] theorem State.noteReads_opbS8 (ds : List DataReg) : (s.noteReads ds).opbS8 = s.opbS8 := by
  unfold State.noteReads; split <;> rfl

/-- With every register written, a command's reads record nothing (10 R37). -/
theorem State.noteReads_allWritten (ds : List DataReg) (h : s.allWritten ds) :
    s.noteReads ds = s := by
  unfold State.noteReads
  rw [if_pos (List.all_eq_true.mpr h)]

/-- With an unwritten register among them, a command's reads record UNINIT (10 R37). -/
theorem State.noteReads_unwritten (ds : List DataReg) (d : DataReg) (hd : d ∈ ds)
    (h : (s.regs.get d).written = false) : s.noteReads ds = s.log .uninit s.cmdPos := by
  unfold State.noteReads
  rw [if_neg]
  intro hall
  simp [List.all_eq_true.mp hall d hd] at h

/-- noteReads changes nothing but the record. -/
theorem State.noteReads_eq (ds : List DataReg) :
    s.noteReads ds = { s with record := (s.noteReads ds).record } := by
  unfold State.noteReads; split <;> rfl

/-- noteReads adds at most UNINIT entries. -/
theorem State.noteReads_record (ds : List DataReg) :
    ∃ l, (s.noteReads ds).record = s.record ++ l ∧ ∀ e ∈ l, e.kind = .uninit := by
  unfold State.noteReads
  split
  · exact ⟨[], by simp⟩
  · exact ⟨[{ kind := .uninit, pos := s.cmdPos }], by simp⟩

/-! ### noteAbandoned: the record is the only field it can change -/

/-- noteAbandoned changes nothing but the record. -/
theorem State.noteAbandoned_eq :
    s.noteAbandoned = { s with record := s.noteAbandoned.record } := by
  unfold State.noteAbandoned
  split
  · rfl
  · split
    · split
      · exact State.noteReads_eq s _
      · rfl
    · rfl

@[simp] theorem State.noteAbandoned_cfg : s.noteAbandoned.cfg = s.cfg := by
  rw [State.noteAbandoned_eq]
@[simp] theorem State.noteAbandoned_seq : s.noteAbandoned.seq = s.seq := by
  rw [State.noteAbandoned_eq]
@[simp] theorem State.noteAbandoned_lastCmd : s.noteAbandoned.lastCmd = s.lastCmd := by
  rw [State.noteAbandoned_eq]
@[simp] theorem State.noteAbandoned_busy : s.noteAbandoned.busy = s.busy := by
  rw [State.noteAbandoned_eq]
@[simp] theorem State.noteAbandoned_err : s.noteAbandoned.err = s.err := by
  rw [State.noteAbandoned_eq]
@[simp] theorem State.noteAbandoned_errCode : s.noteAbandoned.errCode = s.errCode := by
  rw [State.noteAbandoned_eq]
@[simp] theorem State.noteAbandoned_triRes : s.noteAbandoned.triRes = s.triRes := by
  rw [State.noteAbandoned_eq]
@[simp] theorem State.noteAbandoned_regs : s.noteAbandoned.regs = s.regs := by
  rw [State.noteAbandoned_eq]
@[simp] theorem State.noteAbandoned_res : s.noteAbandoned.res = s.res := by
  rw [State.noteAbandoned_eq]
@[simp] theorem State.noteAbandoned_resWritten : s.noteAbandoned.resWritten = s.resWritten := by
  rw [State.noteAbandoned_eq]
@[simp] theorem State.noteAbandoned_edge : s.noteAbandoned.edge = s.edge := by
  rw [State.noteAbandoned_eq]
@[simp] theorem State.noteAbandoned_mem : s.noteAbandoned.mem = s.mem := by
  rw [State.noteAbandoned_eq]
@[simp] theorem State.noteAbandoned_unknown : s.noteAbandoned.unknown = s.unknown := by
  rw [State.noteAbandoned_eq]
@[simp] theorem State.noteAbandoned_inReset : s.noteAbandoned.inReset = s.inReset := by
  rw [State.noteAbandoned_eq]
@[simp] theorem State.noteAbandoned_script : s.noteAbandoned.script = s.script := by
  rw [State.noteAbandoned_eq]
@[simp] theorem State.noteAbandoned_pos : s.noteAbandoned.pos = s.pos := by
  rw [State.noteAbandoned_eq]
@[simp] theorem State.noteAbandoned_cmdPos : s.noteAbandoned.cmdPos = s.cmdPos := by
  rw [State.noteAbandoned_eq]
@[simp] theorem State.noteAbandoned_obs : s.noteAbandoned.obs = s.obs := by
  rw [State.noteAbandoned_eq]
@[simp] theorem State.noteAbandoned_awaiting : s.noteAbandoned.awaiting = s.awaiting := by
  rw [State.noteAbandoned_eq]
@[simp] theorem State.noteAbandoned_turns : s.noteAbandoned.turns = s.turns := by
  rw [State.noteAbandoned_eq]
@[simp] theorem State.noteAbandoned_draws : s.noteAbandoned.draws = s.draws := by
  rw [State.noteAbandoned_eq]

/-- A record that grows only by UNINIT entries holds a host hazard only if it held one. -/
theorem hazarded_append_uninit (r l : List RecordEntry) (h : ∀ e ∈ l, e.kind = .uninit) :
    ((r ++ l).any fun e => decide (e.kind = .hostHazard))
      = r.any fun e => decide (e.kind = .hostHazard) := by
  rw [List.any_append]
  have : (l.any fun e => decide (e.kind = .hostHazard)) = false := by
    rw [List.any_eq_false]
    intro e he
    simp [h e he]
  rw [this, Bool.or_false]

/-! ### Data registers -/

@[simp] theorem DataRegs.get_set_self (r : DataRegs) (d : DataReg) (t : Tracked) :
    (r.set d t).get d = t := by cases d <;> rfl

/-- Each byte is an independent register (10 R32). -/
theorem DataRegs.get_set_other (r : DataRegs) (d e : DataReg) (t : Tracked) (h : e ≠ d) :
    (r.set d t).get e = r.get e := by
  cases d <;> cases e <;> first | rfl | exact absurd rfl h

/-- No data register has its mark after reset (10 R36, R37). -/
theorem DataRegs.reset_written (d : DataReg) : (DataRegs.reset.get d).written = false := by
  cases d <;> rfl

end Sys2Proof.Machine
end

