-- ==== Sys2Proof/Laws/Memory.lean ====
section
/-! SUPPORT. The laws of memory: a read after a write, the canonical form and that every memory
operation keeps it, and the list of unknown bytes. -/

namespace Sys2Proof.Machine

/-! ### The canonical form -/

theorem Mem.wfFrom_mono {lo lo' : Nat} (h : lo' ≤ lo) :
    ∀ {m : List Host.Cell}, Mem.wfFrom lo m = true → Mem.wfFrom lo' m = true
  | [], _ => rfl
  | (a, v) :: m, hm => by
    simp only [Mem.wfFrom, Bool.and_eq_true, decide_eq_true_eq] at hm ⊢
    exact ⟨⟨⟨le_trans h hm.1.1.1, hm.1.1.2⟩, hm.1.2⟩, hm.2⟩

/-- Below the first listed address every byte reads as unlisted. -/
theorem Mem.read_below {lo a : Nat} (h : a < lo) :
    ∀ {m : List Host.Cell}, Mem.wfFrom lo m = true → Mem.read m a = Mem.unlisted
  | [], _ => rfl
  | (b, v) :: m, hm => by
    simp only [Mem.wfFrom, Bool.and_eq_true, decide_eq_true_eq] at hm
    have hb : b ≠ a := by omega
    simp only [Mem.read, if_neg hb]
    exact Mem.read_below (by omega) hm.2

/-- A write keeps the canonical form from any address at or below the one written. -/
theorem Mem.write_wfFrom {lo a : Nat} {v : Byte} (hlo : lo ≤ a) (ha : a < 65536) :
    ∀ {m : List Host.Cell}, Mem.wfFrom lo m = true → Mem.wfFrom lo (Mem.write m a v) = true
  | [], _ => by
    simp only [Mem.write]
    split
    · rfl
    · simp [Mem.wfFrom, *]
  | (b, w) :: m, hm => by
    have hm' := hm
    simp only [Mem.wfFrom, Bool.and_eq_true, decide_eq_true_eq] at hm'
    obtain ⟨⟨⟨h1, h2⟩, h3⟩, h4⟩ := hm'
    simp only [Mem.write]
    split
    · split
      · exact hm
      · rename_i hab hv
        simp only [Mem.wfFrom, Bool.and_eq_true, decide_eq_true_eq]
        exact ⟨⟨⟨hlo, ha⟩, hv⟩, ⟨⟨⟨by omega, h2⟩, h3⟩, h4⟩⟩
    · split
      · rename_i hab heq
        subst heq
        split
        · exact Mem.wfFrom_mono (by omega) h4
        · rename_i hv
          simp only [Mem.wfFrom, Bool.and_eq_true, decide_eq_true_eq]
          exact ⟨⟨⟨hlo, ha⟩, hv⟩, h4⟩
      · simp only [Mem.wfFrom, Bool.and_eq_true, decide_eq_true_eq]
        exact ⟨⟨⟨h1, h2⟩, h3⟩, Mem.write_wfFrom (by omega) ha h4⟩

/-- A write keeps the canonical form. -/
theorem Mem.write_wf {m : List Host.Cell} {a : Nat} {v : Byte} (ha : a < 65536)
    (hm : Mem.wf m = true) : Mem.wf (Mem.write m a v) = true :=
  Mem.write_wfFrom (Nat.zero_le a) ha hm

/-! ### Read after write -/

theorem Mem.read_write_self_from {lo a : Nat} {v : Byte} :
    ∀ {m : List Host.Cell}, Mem.wfFrom lo m = true → Mem.read (Mem.write m a v) a = v
  | [], _ => by
    simp only [Mem.write]
    split
    · rename_i hv; simp [Mem.read, hv]
    · simp [Mem.read]
  | (b, w) :: m, hm => by
    simp only [Mem.wfFrom, Bool.and_eq_true, decide_eq_true_eq] at hm
    simp only [Mem.write]
    split
    · rename_i hab
      split
      · rename_i hv
        have hb : b ≠ a := by omega
        simp only [Mem.read, if_neg hb, hv]
        exact Mem.read_below (by omega) hm.2
      · simp [Mem.read]
    · split
      · rename_i hab heq
        subst heq
        split
        · rename_i hv
          rw [hv]
          exact Mem.read_below (Nat.lt_succ_self _) hm.2
        · simp [Mem.read]
      · rename_i hab hne
        have hb : b ≠ a := fun h => hne h.symm
        simp only [Mem.read, if_neg hb]
        exact Mem.read_write_self_from hm.2

/-- A read after a write to the same address gives the byte written (20 R40). -/
theorem Mem.read_write_self {m : List Host.Cell} {a : Nat} {v : Byte} (hm : Mem.wf m = true) :
    Mem.read (Mem.write m a v) a = v :=
  Mem.read_write_self_from hm

/-- A write leaves every other address alone. -/
theorem Mem.read_write_other {a b : Nat} {v : Byte} (h : b ≠ a) :
    ∀ {m : List Host.Cell}, Mem.read (Mem.write m a v) b = Mem.read m b
  | [] => by
    simp only [Mem.write]
    split
    · rfl
    · simp [Mem.read, Ne.symm h]
  | (c, w) :: m => by
    simp only [Mem.write]
    split
    · split
      · rfl
      · simp [Mem.read, Ne.symm h]
    · split
      · rename_i hac heq
        subst heq
        split
        · simp [Mem.read, Ne.symm h]
        · simp [Mem.read, Ne.symm h]
      · simp only [Mem.read]
        split
        · rfl
        · exact Mem.read_write_other h

/-- What a write does to every read, in one equation. -/
theorem Mem.read_write {m : List Host.Cell} {a b : Nat} {v : Byte} (hm : Mem.wf m = true) :
    Mem.read (Mem.write m a v) b = if b = a then v else Mem.read m b := by
  split
  · rename_i h; subst h; exact Mem.read_write_self hm
  · rename_i h; exact Mem.read_write_other h

/-- Two memories in canonical form that read alike everywhere are the same list. -/
theorem Mem.ext_from {lo : Nat} : ∀ {m n : List Host.Cell}, Mem.wfFrom lo m = true →
    Mem.wfFrom lo n = true → (∀ a, Mem.read m a = Mem.read n a) → m = n
  | [], [], _, _, _ => rfl
  | [], (b, w) :: n, _, hn, h => by
    simp only [Mem.wfFrom, Bool.and_eq_true, decide_eq_true_eq] at hn
    have := h b
    simp [Mem.read] at this
    exact absurd this.symm hn.1.2
  | (a, v) :: m, [], hm, _, h => by
    simp only [Mem.wfFrom, Bool.and_eq_true, decide_eq_true_eq] at hm
    have := h a
    simp [Mem.read] at this
    exact absurd this hm.1.2
  | (a, v) :: m, (b, w) :: n, hm, hn, h => by
    simp only [Mem.wfFrom, Bool.and_eq_true, decide_eq_true_eq] at hm hn
    have hab : a = b := by
      rcases Nat.lt_trichotomy a b with hlt | heq | hgt
      · have := h a
        have hne : b ≠ a := by omega
        simp only [Mem.read, if_true, if_neg hne] at this
        rw [Mem.read_below (by omega) hn.2] at this
        exact absurd this hm.1.2
      · exact heq
      · have := h b
        have hne : a ≠ b := by omega
        simp only [Mem.read, if_true, if_neg hne] at this
        rw [Mem.read_below (by omega) hm.2] at this
        exact absurd this.symm hn.1.2
    subst hab
    have hvw : v = w := by simpa [Mem.read] using h a
    subst hvw
    rw [Mem.ext_from hm.2 hn.2]
    intro c
    have := h c
    simp only [Mem.read] at this
    by_cases hc : a = c
    · subst hc
      rw [Mem.read_below (Nat.lt_succ_self _) hm.2, Mem.read_below (Nat.lt_succ_self _) hn.2]
    · simpa [hc] using this

/-- Equal memories are equal data (the canonical form is one). -/
theorem Mem.ext {m n : List Host.Cell} (hm : Mem.wf m = true) (hn : Mem.wf n = true)
    (h : ∀ a, Mem.read m a = Mem.read n a) : m = n :=
  Mem.ext_from hm hn h

/-! ### Addresses -/

theorem cellAddr_lt (base : Addr) (off : Nat) : cellAddr base off < 65536 :=
  (base + BitVec.ofNat 16 off).isLt

/-- Two offsets of the region are two addresses, even when the region wraps (20 R41). -/
theorem cellAddr_inj {base : Addr} {i j : Nat} (hi : i < 1000) (hj : j < 1000)
    (h : cellAddr base i = cellAddr base j) : i = j := by
  unfold cellAddr at h
  rw [BitVec.toNat_add, BitVec.toNat_add, BitVec.toNat_ofNat, BitVec.toNat_ofNat] at h
  omega

/-- An offset of the region is an address of the region (20 R40). -/
theorem inRegion_cellAddr {base : Addr} {i : Nat} (hi : i < 1000) :
    inRegion base (BitVec.ofNat 16 (cellAddr base i)) = true := by
  have : BitVec.ofNat 16 (cellAddr base i) = base + BitVec.ofNat 16 i := by
    rw [cellAddr, BitVec.ofNat_toNat, BitVec.setWidth_eq]
  rw [inRegion, this, decide_eq_true_eq]
  have : base + BitVec.ofNat 16 i - base = BitVec.ofNat 16 i := by
    rw [BitVec.add_comm, BitVec.add_sub_cancel]
  rw [this, BitVec.toNat_ofNat]
  omega

/-- An address of the region is the address of one of its offsets (20 R40). -/
theorem exists_off_of_inRegion {base a : Addr} (h : inRegion base a = true) :
    ∃ i < 1000, a.toNat = cellAddr base i := by
  rw [inRegion, decide_eq_true_eq] at h
  refine ⟨(a - base).toNat, h, ?_⟩
  unfold cellAddr
  rw [BitVec.ofNat_toNat, BitVec.setWidth_eq, BitVec.add_comm, BitVec.sub_add_cancel]

/-! ### Ranges of the host's address space (20 R40, 70 R140) -/

/-- An address as a byte of the range that starts at a base. -/
theorem cellAddr_sub_self (base a : Addr) : cellAddr base (a - base).toNat = a.toNat := by
  unfold cellAddr
  congr 1
  rw [BitVec.ofNat_toNat, BitVec.setWidth_eq]
  bv_omega

/-- Byte addresses wrap at 0xFFFF (20 R41). -/
theorem cellAddr_eq_mod (base : Addr) (i : Nat) : cellAddr base i = (base.toNat + i) % 65536 := by
  simp [cellAddr]

/-- A range holds exactly its bytes. -/
theorem Region.holds_iff (r : Region) (a : Addr) :
    r.holds a = true ↔ ∃ k < r.size, a.toNat = cellAddr r.base k := by
  rw [Region.holds, decide_eq_true_eq]
  constructor
  · exact fun h => ⟨_, h, (cellAddr_sub_self r.base a).symm⟩
  · rintro ⟨k, hk, h⟩
    rw [cellAddr_eq_mod] at h
    have h1 := a.isLt
    have h2 := r.base.isLt
    rw [BitVec.toNat_sub]
    omega

/-- A range and the framebuffer region meet exactly where they share a byte (20 R40). -/
theorem Region.meets_iff (r : Region) (fb : Addr) :
    r.meets fb = true ↔ ∃ i < 1000, ∃ k < r.size, cellAddr fb i = cellAddr r.base k := by
  rw [Region.meets, Bool.or_eq_true, Region.holds_iff, Bool.and_eq_true, decide_eq_true_eq,
    decide_eq_true_eq]
  constructor
  · rintro (⟨h1, h2⟩ | ⟨k, hk, h⟩)
    · refine ⟨_, h2, 0, h1, ?_⟩
      rw [cellAddr_sub_self, cellAddr_eq_mod]
      have := r.base.isLt
      omega
    · refine ⟨0, by norm_num, k, hk, ?_⟩
      rw [← h, cellAddr_eq_mod]
      have := fb.isLt
      omega
  · rintro ⟨i, hi, k, hk, h⟩
    have h1 := fb.isLt
    have h2 := r.base.isLt
    rw [cellAddr_eq_mod, cellAddr_eq_mod] at h
    by_cases hc : (r.base - fb).toNat < 1000
    · exact .inl ⟨by omega, hc⟩
    · refine .inr ⟨(fb - r.base).toNat, ?_, (cellAddr_sub_self r.base fb).symm⟩
      rw [BitVec.toNat_sub] at hc ⊢
      omega

/-- Plain RAM is what no listed range holds (log 5). -/
theorem Config.plainRam_iff (c : Config) (a : Addr) :
    c.plainRam a = false ↔ ∃ r ∈ c.notRam, ∃ k < r.size, a.toNat = cellAddr r.base k := by
  simp only [Config.plainRam, Bool.not_eq_false', List.any_eq_true, Region.holds_iff]

/-- A misplaced framebuffer shares a byte with the register window or with a listed range
(70 R140). -/
theorem Config.misplaced_iff (c : Config) (fb : Addr) :
    c.misplaced fb = true ↔
      (∃ i < 1000, ∃ k < 32, cellAddr fb i = c.unitBase.val + k) ∨
        ∃ i < 1000, ∃ r ∈ c.notRam, ∃ k < r.size, cellAddr fb i = cellAddr r.base k := by
  have hw : ∀ k < 32, cellAddr c.window.base k = c.unitBase.val + k := fun k hk => by
    have := c.unitBase.isLt
    rw [cellAddr_eq_mod]
    simp only [Config.window, BitVec.toNat_ofNat]
    omega
  simp only [Config.misplaced, List.any_eq_true, List.mem_cons, Region.meets_iff]
  constructor
  · rintro ⟨r, rfl | hr, i, hi, k, hk, h⟩
    · exact .inl ⟨i, hi, k, hk, by rw [h, hw k hk]⟩
    · exact .inr ⟨i, hi, r, hr, k, hk, h⟩
  · rintro (⟨i, hi, k, hk, h⟩ | ⟨i, hi, r, hr, k, hk, h⟩)
    · exact ⟨_, .inl rfl, i, hi, k, hk, by rw [h, hw k hk]⟩
    · exact ⟨r, .inr hr, i, hi, k, hk, h⟩

/-! ### The list of unknown bytes -/

theorem risingFrom_mono {lo lo' : Nat} (h : lo' ≤ lo) :
    ∀ {l : List Nat}, risingFrom lo l = true → risingFrom lo' l = true
  | [], _ => rfl
  | a :: l, hl => by
    simp only [risingFrom, Bool.and_eq_true, decide_eq_true_eq] at hl ⊢
    exact ⟨le_trans h hl.1, hl.2⟩

/-- Inserting keeps the list rising. -/
theorem insertAddr_rising {lo a : Nat} (hlo : lo ≤ a) :
    ∀ {l : List Nat}, risingFrom lo l = true → risingFrom lo (insertAddr a l) = true
  | [], _ => by simp [insertAddr, risingFrom, hlo]
  | b :: l, hl => by
    have hl' := hl
    simp only [risingFrom, Bool.and_eq_true, decide_eq_true_eq] at hl'
    simp only [insertAddr]
    split
    · simp only [risingFrom, Bool.and_eq_true, decide_eq_true_eq]
      exact ⟨hlo, by omega, hl'.2⟩
    · split
      · exact hl
      · simp only [risingFrom, Bool.and_eq_true, decide_eq_true_eq]
        exact ⟨hl'.1, insertAddr_rising (by omega) hl'.2⟩

/-- Inserting adds exactly the address. -/
theorem mem_insertAddr {a b : Nat} : ∀ {l : List Nat}, b ∈ insertAddr a l ↔ b = a ∨ b ∈ l
  | [] => by simp [insertAddr]
  | c :: l => by
    simp only [insertAddr]
    split
    · simp
    · split
      · rename_i h; subst h; simp
      · simp only [List.mem_cons, mem_insertAddr (l := l)]
        tauto

/-- Filtering keeps the list rising. -/
theorem filter_rising {p : Nat → Bool} {lo : Nat} :
    ∀ {l : List Nat}, risingFrom lo l = true → risingFrom lo (l.filter p) = true
  | [], _ => rfl
  | a :: l, hl => by
    simp only [risingFrom, Bool.and_eq_true, decide_eq_true_eq] at hl
    by_cases h : p a = true
    · simp only [List.filter_cons_of_pos h, risingFrom, Bool.and_eq_true, decide_eq_true_eq]
      exact ⟨hl.1, filter_rising hl.2⟩
    · simp only [List.filter_cons_of_neg h]
      exact filter_rising (risingFrom_mono (by omega) hl.2)

/-- Reset's memory and unknown list are in their canonical forms. -/
theorem State.reset_mem_wf : Mem.wf State.reset.mem = true ∧ risingFrom 0 State.reset.unknown = true :=
  ⟨rfl, rfl⟩

end Sys2Proof.Machine
end

