-- ==== Sys2Proof/Laws/Cells.lean ====
section
/-! SUPPORT. The laws of cell writes: what they do to every byte, and the pixel sets of the span
operations and of the dispatch (20 R46, 41 R81, R90, 42 R105, R106). -/

namespace Sys2Proof.Machine

/-! ### Merging -/

/-- Slots not covered keep the byte whole (20 R46). -/
@[simp] theorem mergeCell_zero (old cc : Byte) : mergeCell old cc 0#8 = old := by
  have h1 : ~~~(0#8) = BitVec.allOnes 8 := by decide
  rw [mergeCell, h1, BitVec.and_allOnes, BitVec.and_zero, BitVec.or_zero]

/-- All four slots covered: the byte is the color's (20 R47). -/
@[simp] theorem mergeCell_full (old cc : Byte) : mergeCell old cc 0xFF = cc := by
  have h1 : ~~~(0xFF : Byte) = 0#8 := by decide
  have h2 : (0xFF : Byte) = BitVec.allOnes 8 := by decide
  rw [mergeCell, h1, h2, BitVec.and_zero, BitVec.zero_or, BitVec.and_allOnes]

/-- Two merges of one color are one merge of both masks (41 R90 (a)). -/
theorem mergeCell_mergeCell (old cc m n : Byte) :
    mergeCell (mergeCell old cc m) cc n = mergeCell old cc (m ||| n) := by
  ext i hi
  simp only [mergeCell, BitVec.getElem_or, BitVec.getElem_and, BitVec.getElem_not]
  cases old[i] <;> cases cc[i] <;> cases m[i] <;> cases n[i] <;> rfl

/-! ### What a list of cell writes does to every byte -/

@[simp] theorem maskAt_nil (base : Addr) (a : Nat) : maskAt base [] a = 0#8 := rfl

theorem maskAt_cons (base : Addr) (w : CellWrite) (ws : List CellWrite) (a : Nat) :
    maskAt base (w :: ws) a
      = (if cellAddr base w.off = a then w.mask else 0#8) ||| maskAt base ws a := rfl

theorem maskAt_append (base : Addr) (us ws : List CellWrite) (a : Nat) :
    maskAt base (us ++ ws) a = maskAt base us a ||| maskAt base ws a := by
  induction us with
  | nil => simp
  | cons u us ih => rw [List.cons_append, maskAt_cons, maskAt_cons, ih, BitVec.or_assoc]

/-- Slots covered in a byte are covered by some cell write to it. -/
theorem exists_of_maskAt {base : Addr} {ws : List CellWrite} {a : Nat} (h : maskAt base ws a ≠ 0) :
    ∃ w ∈ ws, cellAddr base w.off = a := by
  induction ws with
  | nil => exact absurd rfl h
  | cons w ws ih =>
    by_cases hw : cellAddr base w.off = a
    · exact ⟨w, List.mem_cons_self .., hw⟩
    · rw [maskAt_cons, if_neg hw, BitVec.zero_or] at h
      obtain ⟨v, hv, hva⟩ := ih h
      exact ⟨v, List.mem_cons_of_mem _ hv, hva⟩

/-- Slots covered by one of the cell writes to a byte are covered in the byte. -/
theorem maskAt_of_mem {base : Addr} {ws : List CellWrite} {w : CellWrite} (hw : w ∈ ws)
    (hm : w.mask ≠ 0) : maskAt base ws (cellAddr base w.off) ≠ 0 := by
  induction ws with
  | nil => exact absurd hw List.not_mem_nil
  | cons v ws ih =>
    rw [maskAt_cons]
    intro h
    obtain ⟨h1, h2⟩ := BitVec.or_eq_zero_iff.mp h
    rcases List.mem_cons.mp hw with rfl | hw
    · exact hm (by simpa using h1)
    · exact ih hw h2

/-- Where every cell write covers a slot, the bytes written are those with a slot covered. -/
theorem written_iff_maskAt {base : Addr} {ws : List CellWrite} (h : ∀ w ∈ ws, w.mask ≠ 0) (a : Nat) :
    (∃ w ∈ ws, cellAddr base w.off = a) ↔ maskAt base ws a ≠ 0 := by
  refine ⟨?_, exists_of_maskAt⟩
  rintro ⟨w, hw, rfl⟩
  exact maskAt_of_mem hw (h w hw)

/-- A direct store covers all four slots of its byte (20 R47). -/
theorem maskAt_of_direct {base : Addr} {ws : List CellWrite} {w : CellWrite} (hw : w ∈ ws)
    (hm : w.mask = 0xFF) : maskAt base ws (cellAddr base w.off) = 0xFF := by
  have h1 : (0xFF : Byte) = BitVec.allOnes 8 := by decide
  induction ws with
  | nil => exact absurd hw List.not_mem_nil
  | cons v ws ih =>
    rw [maskAt_cons]
    rcases List.mem_cons.mp hw with rfl | hw
    · rw [if_pos rfl, hm, h1, BitVec.allOnes_or]
    · rw [ih hw, h1, BitVec.or_allOnes]

/-- A byte covered in part is read by the cell writes that cover it (20 R47). -/
theorem readsUnknown_of_partial {base : Addr} {unknown : List Nat} {ws : List CellWrite} {a : Nat}
    (ha : a ∈ unknown) (h0 : maskAt base ws a ≠ 0) (h1 : maskAt base ws a ≠ 0xFF) :
    readsUnknown base unknown ws = true := by
  obtain ⟨w, hw, rfl⟩ := exists_of_maskAt h0
  refine List.any_eq_true.mpr ⟨w, hw, ?_⟩
  simp only [Bool.and_eq_true, decide_eq_true_eq]
  exact ⟨fun hm => h1 (maskAt_of_direct hw hm), ha⟩

/-- A cell write keeps the canonical form of memory. -/
theorem writeCell_wf {base : Addr} {cc : Byte} {m : List Host.Cell} {w : CellWrite}
    (hm : Mem.wf m = true) : Mem.wf (writeCell base cc m w) = true := by
  unfold writeCell
  split <;> exact Mem.write_wf (cellAddr_lt _ _) hm

/-- A cell write, direct or read-modify-write, merges its slots into one byte (20 R47). -/
theorem read_writeCell {base : Addr} {cc : Byte} {m : List Host.Cell} {w : CellWrite} (a : Nat)
    (hm : Mem.wf m = true) :
    Mem.read (writeCell base cc m w) a
      = mergeCell (Mem.read m a) cc (if cellAddr base w.off = a then w.mask else 0#8) := by
  unfold writeCell
  split
  · rename_i hw
    rw [Mem.read_write hm]
    by_cases h : a = cellAddr base w.off
    · simp only [h, if_true, hw, mergeCell_full]
    · rw [if_neg h, if_neg (Ne.symm h), mergeCell_zero]
  · rw [Mem.read_write hm]
    by_cases h : a = cellAddr base w.off
    · simp [h]
    · rw [if_neg h, if_neg (Ne.symm h), mergeCell_zero]

/-- Cell writes keep the canonical form of memory. -/
theorem writeCells_wf {base : Addr} {cc : Byte} (ws : List CellWrite) {m : List Host.Cell}
    (hm : Mem.wf m = true) : Mem.wf (writeCells base cc m ws) = true := by
  induction ws generalizing m with
  | nil => exact hm
  | cons w ws ih => exact ih (writeCell_wf hm)

/-- THE law of cell writes: every byte keeps its slots but those covered, which take the color
(20 R46); order and repetition do not matter (20 R48). -/
theorem read_writeCells {base : Addr} {cc : Byte} (ws : List CellWrite) {m : List Host.Cell}
    (a : Nat) (hm : Mem.wf m = true) :
    Mem.read (writeCells base cc m ws) a = mergeCell (Mem.read m a) cc (maskAt base ws a) := by
  induction ws generalizing m with
  | nil => simp [writeCells]
  | cons w ws ih =>
    rw [maskAt_cons, ← mergeCell_mergeCell, ← read_writeCell a hm]
    exact ih (writeCell_wf hm)

/-- Writes to cells of the region cover nothing outside it. -/
theorem maskAt_outside {base : Addr} {ws : List CellWrite} {a : Addr}
    (hws : ∀ w ∈ ws, w.off < 1000) (ha : inRegion base a = false) :
    maskAt base ws a.toNat = 0#8 := by
  induction ws with
  | nil => rfl
  | cons w ws ih =>
    rw [maskAt_cons, ih fun v hv => hws v (List.mem_cons_of_mem _ hv), if_neg]
    · rfl
    · intro h
      have := inRegion_cellAddr (base := base) (hws w (List.mem_cons_self ..))
      rw [h, BitVec.ofNat_toNat, BitVec.setWidth_eq, ha] at this
      exact Bool.false_ne_true this

/-- Writes to cells of the region cover no address that is none of its bytes. -/
theorem maskAt_no_cell {base : Addr} {ws : List CellWrite} {a : Nat}
    (hws : ∀ w ∈ ws, w.off < 1000) (ha : ∀ off < 1000, cellAddr base off ≠ a) :
    maskAt base ws a = 0#8 := by
  induction ws with
  | nil => rfl
  | cons w ws ih =>
    rw [maskAt_cons, ih fun v hv => hws v (List.mem_cons_of_mem _ hv),
      if_neg (ha w.off (hws w (List.mem_cons_self ..)))]
    rfl

/-- Two lists of cell writes that cover the same slots of every cell leave the same memory. -/
theorem writeCells_ext {base : Addr} {cc : Byte} {m : List Host.Cell} {us ws : List CellWrite}
    (hm : Mem.wf m = true) (hu : ∀ w ∈ us, w.off < 1000) (hw : ∀ w ∈ ws, w.off < 1000)
    (h : ∀ off < 1000, maskAt base us (cellAddr base off) = maskAt base ws (cellAddr base off)) :
    writeCells base cc m us = writeCells base cc m ws := by
  refine Mem.ext (writeCells_wf _ hm) (writeCells_wf _ hm) fun a => ?_
  rw [read_writeCells _ _ hm, read_writeCells _ _ hm]
  congr 1
  by_cases ha : ∃ off < 1000, cellAddr base off = a
  · obtain ⟨off, hoff, rfl⟩ := ha
    exact h off hoff
  · have ha' : ∀ off < 1000, cellAddr base off ≠ a := fun off ho hc => ha ⟨off, ho, hc⟩
    rw [maskAt_no_cell hu ha', maskAt_no_cell hw ha']

/-- Writing one list after another is writing them joined. -/
theorem writeCells_append (base : Addr) (cc : Byte) (m : List Host.Cell) (us ws : List CellWrite) :
    writeCells base cc m (us ++ ws) = writeCells base cc (writeCells base cc m us) ws := by
  simp [writeCells]

/-! ### Slots of a pixel set -/

/-- Pixel sets that agree on the two columns and two rows of a cell cover the same slots of it. -/
theorem slotsOf_congr {f g : Nat → Nat → Bool} {off : Nat}
    (h : ∀ x y, x / 2 = off % 40 → y / 2 = off / 40 → f x y = g x y) :
    slotsOf f off = slotsOf g off := by
  unfold slotsOf
  simp only
  rw [h (2 * (off % 40)) (2 * (off / 40)) (by omega) (by omega),
    h (2 * (off % 40) + 1) (2 * (off / 40)) (by omega) (by omega),
    h (2 * (off % 40)) (2 * (off / 40) + 1) (by omega) (by omega),
    h (2 * (off % 40) + 1) (2 * (off / 40) + 1) (by omega) (by omega)]

/-- A union of pixel sets covers the union of their slots. -/
theorem slotsOf_or (f g : Nat → Nat → Bool) (off : Nat) :
    slotsOf (fun x y => f x y || g x y) off = slotsOf f off ||| slotsOf g off := by
  have key : ∀ (p q : Bool) (a : Byte),
      (if (p || q) = true then a else 0) = (if p = true then a else 0) ||| (if q = true then a else 0) := by
    intro p q a
    cases p <;> cases q <;> simp
  unfold slotsOf
  simp only [key]
  ac_rfl

/-- The empty set covers nothing. -/
theorem slotsOf_empty {f : Nat → Nat → Bool} {off : Nat}
    (h : ∀ x y, x / 2 = off % 40 → y / 2 = off / 40 → f x y = false) : slotsOf f off = 0#8 := by
  rw [slotsOf_congr (g := fun _ _ => false) h]
  simp [slotsOf]

/-- The four slot masks of a cell (20 R44). -/
theorem slotMask_cell (cx cy : Nat) :
    slotMask (2 * cx) (2 * cy) = 0xC0 ∧ slotMask (2 * cx + 1) (2 * cy) = 0x30 ∧
      slotMask (2 * cx) (2 * cy + 1) = 0x0C ∧ slotMask (2 * cx + 1) (2 * cy + 1) = 0x03 := by
  have h0 : 2 * cx % 2 = 0 := by omega
  have h1 : (2 * cx + 1) % 2 = 1 := by omega
  have h2 : 2 * cy % 2 = 0 := by omega
  have h3 : (2 * cy + 1) % 2 = 1 := by omega
  simp only [slotMask, pixelShift, h0, h1, h2, h3]
  decide

/-! ### The cell writes of spans -/

/-- Cell writes at consecutive offsets, one each. -/
theorem maskAt_range' {base : Addr} {g : Nat → Byte} {k off : Nat} (hoff : off < 1000) :
    ∀ {n a : Nat}, k + a + n ≤ 1000 →
      maskAt base ((List.range' a n).map fun cx => { off := k + cx, mask := g cx })
          (cellAddr base off)
        = if k + a ≤ off ∧ off < k + a + n then g (off - k) else 0#8
  | 0, a, _ => by
    rw [if_neg (by omega)]; rfl
  | n + 1, a, h => by
    rw [List.range'_succ, List.map_cons, maskAt_cons, maskAt_range' hoff (by omega)]
    by_cases heq : k + a = off
    · have : off - k = a := by omega
      rw [if_pos (by simp only [heq]), if_neg (by omega), if_pos (by omega), this]
      simp
    · rw [if_neg]
      · by_cases hin : k + a ≤ off ∧ off < k + a + (n + 1)
        · rw [if_pos hin, if_pos (by omega)]; simp
        · rw [if_neg hin, if_neg (by omega)]; simp
      · intro hc
        exact heq (cellAddr_inj (by omega) hoff hc)

/-- The slots a span covers in a cell byte of the region. -/
theorem maskAt_spanCells {base : Addr} {rows : Byte} {y xl xr off : Nat} (hy : y < 50)
    (hxr : xr ≤ 80) (hoff : off < 1000) :
    maskAt base (spanCells rows y xl xr) (cellAddr base off)
      = if xl < xr ∧ off / 40 = y / 2 ∧ xl / 2 ≤ off % 40 ∧ off % 40 ≤ (xr - 1) / 2 then
          rows &&& columnsOf xl xr (off % 40)
        else 0#8 := by
  unfold spanCells
  by_cases h : xl < xr
  · rw [if_pos h, maskAt_range' (g := fun cx => rows &&& columnsOf xl xr cx) hoff (by omega)]
    by_cases hin : off / 40 = y / 2 ∧ xl / 2 ≤ off % 40 ∧ off % 40 ≤ (xr - 1) / 2
    · have : off - y / 2 * 40 = off % 40 := by omega
      rw [if_pos (by omega), if_pos ⟨h, hin⟩, this]
    · rw [if_neg (by omega), if_neg fun hc => hin hc.2]
  · rw [if_neg h, if_neg fun hc => h hc.1]; rfl

/-- Every cell write of a span lies in the region. -/
theorem spanCells_off {rows : Byte} {y xl xr : Nat} (hy : y < 50) (hxr : xr ≤ 80) :
    ∀ w ∈ spanCells rows y xl xr, w.off < 1000 := by
  intro w hw
  unfold spanCells at hw
  split at hw
  · rw [List.mem_map] at hw
    obtain ⟨cx, hcx, rfl⟩ := hw
    rw [List.mem_range'_1] at hcx
    simp only
    omega
  · exact absurd hw List.not_mem_nil

/-- Every cell write of a span covers a slot, for the rows of 41 R81 and R87. -/
theorem spanCells_mask {rows : Byte} {y xl xr : Nat} (hr : rows = topRow ∨ rows = bottomRow ∨ rows = bothRows) :
    ∀ w ∈ spanCells rows y xl xr, w.mask ≠ 0 := by
  intro w hw
  unfold spanCells at hw
  split at hw
  · rw [List.mem_map] at hw
    obtain ⟨cx, hcx, rfl⟩ := hw
    rw [List.mem_range'_1] at hcx
    have hc : xl ≤ 2 * cx ∨ 2 * cx + 1 < xr := by omega
    simp only [columnsOf]
    rcases hr with rfl | rfl | rfl <;> split_ifs <;> first | decide | omega
  · exact absurd hw List.not_mem_nil

/-- Every cell write of a row covers a slot (41 R81). -/
theorem rowCells_mask {y xl xr : Nat} : ∀ w ∈ rowCells y xl xr, w.mask ≠ 0 := by
  refine spanCells_mask ?_
  unfold rowOf
  split_ifs <;> simp

/-- Every cell write of a dual row covers a slot (41 R87). -/
theorem dualCells_mask {y xl xr : Nat} : ∀ w ∈ dualCells y xl xr, w.mask ≠ 0 :=
  spanCells_mask (.inr (.inr rfl))

/-- `Row(y, xl, xr)`: the cell writes cover exactly the row's pixels (41 R81, R85, R86). -/
theorem maskAt_rowCells {base : Addr} {y xl xr off : Nat} (hy : y < 50) (hxr : xr ≤ 80)
    (hoff : off < 1000) :
    maskAt base (rowCells y xl xr) (cellAddr base off)
      = slotsOf (fun px py => inRow y xl xr px py) off := by
  rw [rowCells, maskAt_spanCells hy hxr hoff]
  obtain ⟨h1, h2, h3, h4⟩ := slotMask_cell (off % 40) (off / 40)
  simp only [slotsOf, h1, h2, h3, h4, inRow, Bool.and_eq_true, decide_eq_true_eq]
  by_cases hrow : off / 40 = y / 2
  · rcases Nat.mod_two_eq_zero_or_one y with he | ho
    · have e1 : 2 * (off / 40) = y := by omega
      have e2 : ¬2 * (off / 40) + 1 = y := by omega
      simp only [e1, rowOf, he, if_true, true_and, columnsOf, topRow, leftColumn, rightColumn]
      split_ifs <;> first | rfl | omega
    · have e1 : ¬2 * (off / 40) = y := by omega
      have e2 : 2 * (off / 40) + 1 = y := by omega
      have ho' : ¬y % 2 = 0 := by omega
      simp only [e1, e2, rowOf, ho', if_false, true_and, false_and, columnsOf, bottomRow, leftColumn, rightColumn]
      split_ifs <;> first | rfl | omega
  · have e1 : ¬2 * (off / 40) = y := by omega
    have e2 : ¬2 * (off / 40) + 1 = y := by omega
    simp [hrow, e1, e2]

/-- Both rows of an even y: the cell writes cover exactly the pixels of the two rows (41 R87). -/
theorem maskAt_dualCells {base : Addr} {y xl xr off : Nat} (hy : y < 50) (he : y % 2 = 0)
    (hxr : xr ≤ 80) (hoff : off < 1000) :
    maskAt base (dualCells y xl xr) (cellAddr base off)
      = slotsOf (fun px py => inRow y xl xr px py || inRow (y + 1) xl xr px py) off := by
  rw [dualCells, maskAt_spanCells hy hxr hoff]
  obtain ⟨h1, h2, h3, h4⟩ := slotMask_cell (off % 40) (off / 40)
  simp only [slotsOf, h1, h2, h3, h4, inRow, Bool.and_eq_true, Bool.or_eq_true, decide_eq_true_eq]
  by_cases hrow : off / 40 = y / 2
  · have e1 : 2 * (off / 40) = y := by omega
    simp only [e1, true_and, bothRows, columnsOf, leftColumn, rightColumn]
    split_ifs <;> first | rfl | omega
  · have e1 : ¬2 * (off / 40) = y := by omega
    have e2 : ¬2 * (off / 40) + 1 = y := by omega
    have e3 : ¬2 * (off / 40) = y + 1 := by omega
    simp [hrow, e1, e2, e3]

/-! ### The dispatch -/

/-- The pixels of a sub-call (42 R105). -/
def SubCall.pixels (y : Nat) : SubCall → Nat → Nat → Bool
  | .top l r, px, py => inRow y l r px py
  | .bot l r, px, py => inRow (y + 1) l r px py
  | .dual l r, px, py => inRow y l r px py || inRow (y + 1) l r px py

/-- The right end of a sub-call. -/
def SubCall.right : SubCall → Nat
  | .top _ r => r
  | .bot _ r => r
  | .dual _ r => r

/-- A sub-call's cell writes cover exactly its pixels (42 R105). -/
theorem maskAt_subCall {base : Addr} {y off : Nat} (c : SubCall) (hy : y < 50) (he : y % 2 = 0)
    (hr : c.right ≤ 80) (hoff : off < 1000) :
    maskAt base (c.cells y) (cellAddr base off) = slotsOf (c.pixels y) off := by
  cases c with
  | top l r => exact maskAt_rowCells hy hr hoff
  | bot l r => exact maskAt_rowCells (by omega) hr hoff
  | dual l r => exact maskAt_dualCells hy he hr hoff

/-- A list of sub-calls covers the union of their pixels; the skipped empty ones cover nothing. -/
theorem maskAt_subCalls {base : Addr} {y off : Nat} (hy : y < 50) (he : y % 2 = 0)
    (hoff : off < 1000) :
    ∀ (cs : List SubCall), (∀ c ∈ cs, c.right ≤ 80) →
      maskAt base ((cs.filter SubCall.nonEmpty).flatMap (SubCall.cells y)) (cellAddr base off)
        = slotsOf (fun px py => cs.any fun c => c.pixels y px py) off
  | [], _ => by
    rw [slotsOf_empty (by simp)]; rfl
  | c :: cs, h => by
    have ih := maskAt_subCalls (base := base) hy he hoff cs
      fun d hd => h d (List.mem_cons_of_mem _ hd)
    simp only [List.any_cons]
    rw [slotsOf_or, ← ih]
    by_cases hc : c.nonEmpty = true
    · rw [List.filter_cons_of_pos hc, List.flatMap_cons, maskAt_append,
        maskAt_subCall c hy he (h c (List.mem_cons_self ..)) hoff]
    · rw [List.filter_cons_of_neg hc, slotsOf_empty]
      · simp
      · intro px py _ _
        cases c <;>
          simp only [SubCall.nonEmpty, decide_eq_true_eq, not_lt] at hc <;>
          simp [SubCall.pixels, inRow] <;> omega

/-- The sub-calls of the case table color `[l1, r1)` of row y and `[l2, r2)` of row y + 1, whichever
case decides (42 R104, R106). -/
theorem dispatchTable_pixels (y l1 r1 l2 r2 px py : Nat) :
    ((dispatchTable l1 r1 l2 r2).any fun c => c.pixels y px py)
      = (inRow y l1 r1 px py || inRow (y + 1) l2 r2 px py) := by
  rw [Bool.eq_iff_iff]
  unfold dispatchTable
  split_ifs <;>
    simp only [List.any_cons, List.any_nil, SubCall.pixels, inRow, Bool.or_eq_true,
      Bool.and_eq_true, decide_eq_true_eq, Bool.or_false] <;>
    omega

/-- Every sub-call's right end is at most the larger right end. -/
theorem dispatchTable_right {l1 r1 l2 r2 n : Nat} (h1 : r1 ≤ n) (h2 : r2 ≤ n) :
    ∀ c ∈ dispatchTable l1 r1 l2 r2, c.right ≤ n := by
  intro c hc
  unfold dispatchTable at hc
  split_ifs at hc <;>
    simp only [List.mem_cons, List.not_mem_nil, or_false] at hc <;>
    rcases hc with rfl | rfl | rfl <;> simp only [SubCall.right] <;> omega

/-- The dispatch law on slots (42 R106): the dispatch covers `[l1, r1)` of row y and `[l2, r2)` of row
y + 1, and nothing else. -/
theorem maskAt_dispatchCells {base : Addr} {y l1 r1 l2 r2 off : Nat} (hy : y < 50)
    (he : y % 2 = 0) (h1 : r1 ≤ 80) (h2 : r2 ≤ 80) (hoff : off < 1000) :
    maskAt base (dispatchCells y l1 r1 l2 r2) (cellAddr base off)
      = slotsOf (fun px py => inRow y l1 r1 px py || inRow (y + 1) l2 r2 px py) off := by
  rw [dispatchCells, dispatchCalls,
    maskAt_subCalls hy he hoff _ (dispatchTable_right h1 h2)]
  exact slotsOf_congr fun px py _ _ => dispatchTable_pixels y l1 r1 l2 r2 px py

/-- Every cell write of a dispatch lies in the region. -/
theorem dispatchCells_off {y l1 r1 l2 r2 : Nat} (hy : y < 50) (he : y % 2 = 0) (h1 : r1 ≤ 80)
    (h2 : r2 ≤ 80) : ∀ w ∈ dispatchCells y l1 r1 l2 r2, w.off < 1000 := by
  intro w hw
  rw [dispatchCells, List.mem_flatMap] at hw
  obtain ⟨c, hc, hw⟩ := hw
  have hr := dispatchTable_right h1 h2 c (List.mem_of_mem_filter hc)
  cases c with
  | top l r => exact spanCells_off hy hr w hw
  | bot l r => exact spanCells_off (by omega) hr w hw
  | dual l r => exact spanCells_off hy hr w hw

/-- Every cell write of a dispatch covers a slot (42 R105: empty sub-calls are skipped). -/
theorem dispatchCells_mask {y l1 r1 l2 r2 : Nat} :
    ∀ w ∈ dispatchCells y l1 r1 l2 r2, w.mask ≠ 0 := by
  intro w hw
  rw [dispatchCells, List.mem_flatMap] at hw
  obtain ⟨c, -, hw⟩ := hw
  cases c with
  | top l r => exact rowCells_mask w hw
  | bot l r => exact rowCells_mask w hw
  | dual l r => exact dualCells_mask w hw

end Sys2Proof.Machine
end

