-- ==== Sys2Proof/Laws/Raster.lean ====
section
/-! SUPPORT. The laws of the rasterizer's parts: the sort (42 R95), the interval (42 R103), the range of
an edge (42 R110), and what a walk of rows covers (42 R102, R106). -/

namespace Sys2Proof.Machine

/-! ### The sort (42 R95) -/

/-- After Sort3 the vertices rise in y. -/
theorem sort3_rising (a b c : Vertex) :
    (sort3 a b c).1.y.toNat ≤ (sort3 a b c).2.1.y.toNat ∧
      (sort3 a b c).2.1.y.toNat ≤ (sort3 a b c).2.2.1.y.toNat := by
  unfold sort3 condSwap
  by_cases h1 : b.y.toNat < a.y.toNat <;> simp only [h1, if_true, if_false] <;>
    split_ifs <;> dsimp only at * <;> omega

/-- A property of all three vertices is a property of all three sorted ones. -/
theorem sort3_all {p : Vertex → Prop} {a b c : Vertex} (ha : p a) (hb : p b) (hc : p c) :
    p (sort3 a b c).1 ∧ p (sort3 a b c).2.1 ∧ p (sort3 a b c).2.2.1 := by
  unfold sort3 condSwap
  by_cases h1 : b.y.toNat < a.y.toNat <;> simp only [h1, if_true, if_false] <;>
    split_ifs <;> exact ⟨by assumption, by assumption, by assumption⟩

/-- With equal top and bottom rows all three rows are equal, so the area is 0 (42 R96). -/
theorem signedArea_of_flat {a b c : Vertex} (h : (sort3 a b c).1.y = (sort3 a b c).2.2.1.y) :
    signedArea a b c = 0 := by
  have hr := sort3_rising a b c
  have hy : b.y.toNat = a.y.toNat ∧ c.y.toNat = a.y.toNat := by
    have h' : (sort3 a b c).1.y.toNat = (sort3 a b c).2.2.1.y.toNat := by rw [h]
    revert hr h'
    unfold sort3 condSwap
    by_cases h1 : b.y.toNat < a.y.toNat <;> simp only [h1, if_true, if_false] <;>
      split_ifs <;> dsimp only at * <;> omega
  simp [signedArea, hy.1, hy.2]

/-! ### The interval (42 R103) -/

/-- Ordering by SHORTLEFT and swapping when crossed gives the smaller end first, whichever edge is
left. -/
theorem interval_eq (sl : Bool) (lp sp : Fixed88) :
    interval sl lp sp
      = ((min (floorDiv lp.toInt 256) (floorDiv sp.toInt 256)).toNat,
         (max (floorDiv lp.toInt 256) (floorDiv sp.toInt 256)).toNat) := by
  unfold interval
  generalize floorDiv lp.toInt 256 = x
  generalize floorDiv sp.toInt 256 = y
  cases sl <;> simp only [if_true, Bool.false_eq_true, if_false] <;> split <;>
    simp only [Prod.mk.injEq] <;> constructor <;> congr 1 <;> omega

/-! ### The range of an edge (42 R110) -/

/-- Half a slope lies between 0 and the slope's half, up to the rounding of a negative odd one. -/
theorem halfSlope_bounds (h : HalfSlope) (v : Fixed88) :
    (0 ≤ v.toInt → 0 ≤ (halfSlope h v).toInt ∧ 2 * (halfSlope h v).toInt ≤ v.toInt) ∧
      (v.toInt ≤ 0 → (halfSlope h v).toInt ≤ 0 ∧ v.toInt ≤ 2 * (halfSlope h v).toInt + 1) := by
  have hv := BitVec.toInt_lt (x := v)
  have hv' := BitVec.le_toInt (x := v)
  norm_num at hv hv'
  have hf : ∀ i : Int, -32768 ≤ i → i < 32768 → (wrap16 i).toInt = i := by
    intro i h1 h2
    rw [wrap16, BitVec.toInt_ofInt]
    exact Int.bmod_eq_of_le (by norm_num; omega) (by norm_num; omega)
  cases h with
  | asr =>
    have hd : floorDiv v.toInt 2 = v.toInt / 2 := by
      rw [floorDiv, Int.fdiv_eq_ediv_of_nonneg _ (by norm_num)]
    rw [halfSlope, hd, hf _ (by omega) (by omega)]
    omega
  | trunc =>
    rw [halfSlope]
    simp only [tdiv]
    rcases le_total 0 v.toInt with h0 | h0
    · have hd : Int.tdiv v.toInt 2 = v.toInt / 2 := Int.tdiv_eq_ediv_of_nonneg h0
      rw [hd, hf _ (by omega) (by omega)]
      omega
    · have hd : Int.tdiv v.toInt 2 = -(-v.toInt / 2) := by
        rw [← Int.tdiv_eq_ediv_of_nonneg (by omega : 0 ≤ -v.toInt), Int.neg_tdiv, neg_neg]
      rw [hd, hf _ (by omega) (by omega)]
      omega

/-- A slope of the rasterizer never wraps and truncates toward zero (42 R98, R113). -/
theorem edgeSlope_toInt {p q : Vertex} (hp : p.x.toNat ≤ 79) (hq : q.x.toNat ≤ 79) :
    (edgeSlope p q).toInt
      = Int.tdiv (((q.x.toNat : Int) - p.x.toNat) * 256) ((q.y.toNat : Int) - p.y.toNat) := by
  have habs : |Int.tdiv (((q.x.toNat : Int) - p.x.toNat) * 256) ((q.y.toNat : Int) - p.y.toNat)|
      ≤ 20224 := by
    rw [← Int.natCast_natAbs, Int.natAbs_tdiv]
    refine le_trans (Int.ofNat_le.mpr (Nat.div_le_self _ _)) ?_
    omega
  rw [abs_le] at habs
  rw [edgeSlope, div88, wrap16, tdiv, BitVec.toInt_ofInt]
  exact Int.bmod_eq_of_le (by norm_num; omega) (by norm_num; omega)

/-- Row k of an edge lies between its two ends, and no addition on the way wraps (42 R110). -/
theorem edge_range (h : HalfSlope) {p q : Vertex} (hp : p.x.toNat ≤ 79) (hq : q.x.toNat ≤ 79)
    (hy : p.y.toNat < q.y.toNat) {k : Nat} (hk : k < q.y.toNat - p.y.toNat) :
    let pos := edgeStart h p (edgeSlope p q) + BitVec.ofNat 16 k * edgeSlope p q
    pos.toInt
        = (p.x.toNat : Int) * 256 + (halfSlope h (edgeSlope p q)).toInt + k * (edgeSlope p q).toInt ∧
      (min p.x.toNat q.x.toNat : Int) * 256 ≤ pos.toInt ∧
      pos.toInt ≤ (max p.x.toNat q.x.toNat : Int) * 256 := by
  intro pos
  have hs := edgeSlope_toInt hp hq
  obtain ⟨hpos, hneg⟩ := halfSlope_bounds h (edgeSlope p q)
  have hpos' : pos = BitVec.ofInt 16
      ((p.x.toNat : Int) * 256 + (halfSlope h (edgeSlope p q)).toInt
        + k * (edgeSlope p q).toInt) := by
    simp only [pos, edgeStart, wrap16]
    simp only [BitVec.ofInt_add, BitVec.ofInt_mul, BitVec.ofInt_toInt, BitVec.ofInt_natCast]
  generalize edgeSlope p q = v at *
  generalize (halfSlope h v).toInt = hf at *
  generalize hdv : (q.y.toNat : Int) - p.y.toNat = dy at *
  have hdy : (1 : Int) ≤ dy := by omega
  have hkd : (k : Int) + 1 ≤ dy := by omega
  generalize hdx : ((q.x.toNat : Int) - p.x.toNat) * 256 = dx at *
  have hval : (min p.x.toNat q.x.toNat : Int) * 256
        ≤ (p.x.toNat : Int) * 256 + hf + k * v.toInt ∧
      (p.x.toNat : Int) * 256 + hf + k * v.toInt ≤ (max p.x.toNat q.x.toNat : Int) * 256 := by
    have hk0 : (0 : Int) ≤ k := Int.natCast_nonneg k
    rcases le_total 0 dx with h0 | h0
    · have hv0 : 0 ≤ v.toInt := by rw [hs]; exact Int.tdiv_nonneg h0 (by omega)
      have hmul : v.toInt * dy ≤ dx := by
        rw [hs, Int.tdiv_eq_ediv_of_nonneg h0]
        exact Int.ediv_mul_le _ (by omega)
      obtain ⟨h1, h2⟩ := hpos hv0
      have h3 : 0 ≤ k * v.toInt := mul_nonneg hk0 hv0
      have h4 : k * v.toInt + v.toInt ≤ v.toInt * dy := by nlinarith
      have hmn : min (p.x.toNat : Int) q.x.toNat = p.x.toNat := min_eq_left (by omega)
      have hmx : max (p.x.toNat : Int) q.x.toNat = q.x.toNat := max_eq_right (by omega)
      rw [hmn, hmx]
      omega
    · have hv0 : v.toInt ≤ 0 := by
        rw [hs]
        have := Int.tdiv_nonneg (a := -dx) (b := dy) (by omega) (by omega)
        rw [Int.neg_tdiv] at this
        omega
      have hmul : dx ≤ v.toInt * dy := by
        have h5 : Int.tdiv dx dy = -(-dx / dy) := by
          rw [← Int.tdiv_eq_ediv_of_nonneg (by omega : 0 ≤ -dx), Int.neg_tdiv, neg_neg]
        rw [hs, h5]
        have := Int.ediv_mul_le (-dx) (b := dy) (by omega)
        nlinarith
      obtain ⟨h1, h2⟩ := hneg hv0
      have h3 : k * v.toInt ≤ 0 := mul_nonpos_of_nonneg_of_nonpos hk0 hv0
      have h4 : v.toInt * dy ≤ k * v.toInt + v.toInt := by nlinarith
      have hmn : min (p.x.toNat : Int) q.x.toNat = q.x.toNat := min_eq_right (by omega)
      have hmx : max (p.x.toNat : Int) q.x.toNat = p.x.toNat := max_eq_left (by omega)
      rw [hmn, hmx]
      omega
  have hexact : pos.toInt = (p.x.toNat : Int) * 256 + hf + k * v.toInt := by
    rw [hpos', BitVec.toInt_ofInt]
    have : (0 : Int) ≤ min (p.x.toNat : Int) q.x.toNat := by omega
    have : max (p.x.toNat : Int) q.x.toNat ≤ 79 := by omega
    exact Int.bmod_eq_of_le (by norm_num; omega) (by norm_num; omega)
  exact ⟨hexact, by rw [hexact]; exact hval.1, by rw [hexact]; exact hval.2⟩

/-! ### What a walk of rows covers (42 R102, R106) -/

/-- The interval k rows below the current one (42 R102: row y sees the initial position plus
`(y - Y) * slope`, whichever branches stepped over the rows between). -/
def EdgeState.rowAt (e : EdgeState) (k : Nat) : Nat × Nat :=
  interval e.shortLeft (e.lpos + BitVec.ofNat 16 k * e.lslope) (e.spos + BitVec.ofNat 16 k * e.sslope)

/-- The pixels of the next n rows. -/
def EdgeState.inRows (e : EdgeState) (n px py : Nat) : Bool :=
  decide (e.y.toNat ≤ py) && decide (py < e.y.toNat + n)
    && decide ((e.rowAt (py - e.y.toNat)).1 ≤ px) && decide (px < (e.rowAt (py - e.y.toNat)).2)

theorem EdgeState.rowAt_zero (e : EdgeState) : e.rowAt 0 = e.row := by
  simp [EdgeState.rowAt, EdgeState.row]

theorem ofNat_succ_mul (k : Nat) (v : Fixed88) :
    BitVec.ofNat 16 (k + 1) * v = v + BitVec.ofNat 16 k * v := by
  rw [BitVec.ofNat_add, BitVec.add_mul, BitVec.add_comm]
  congr 1
  exact BitVec.one_mul v

theorem EdgeState.rowAt_advance (e : EdgeState) (k : Nat) :
    e.advance.rowAt k = e.rowAt (k + 1) := by
  simp only [EdgeState.rowAt, EdgeState.advance, ofNat_succ_mul, BitVec.add_assoc]

theorem EdgeState.advance_y {e : EdgeState} (h : e.y.toNat < 255) :
    e.advance.y.toNat = e.y.toNat + 1 := by
  simp only [EdgeState.advance, BitVec.toNat_add]
  have : (1 : BitVec 8).toNat = 1 := rfl
  omega

/-- The next n + 1 rows are the current row and the n rows after it. -/
theorem EdgeState.inRows_succ {e : EdgeState} (h : e.y.toNat < 255) (n px py : Nat) :
    e.inRows (n + 1) px py
      = (inRow e.y.toNat e.row.1 e.row.2 px py || e.advance.inRows n px py) := by
  simp only [EdgeState.inRows, EdgeState.advance_y h, inRow, EdgeState.rowAt_advance]
  by_cases hy : py = e.y.toNat
  · subst hy
    have h1 : ¬e.y.toNat + 1 ≤ e.y.toNat := by omega
    simp [EdgeState.rowAt_zero, h1]
  · by_cases hle : e.y.toNat + 1 ≤ py
    · have : py - (e.y.toNat + 1) + 1 = py - e.y.toNat := by omega
      have h2 : e.y.toNat ≤ py := by omega
      have h3 : py < e.y.toNat + (n + 1) ↔ py < e.y.toNat + 1 + n := by omega
      simp [hy, hle, this, h2, h3]
    · have h2 : ¬e.y.toNat ≤ py := by omega
      simp [hy, hle, h2]

/-- What a walk of n rows does: the two positions and Y advance by n rows, the constants of the
triangle stay, and the cells covered are those of the n rows (42 R102, R106). -/
theorem Walk.rows_spec (base : Addr) {off : Nat} (hoff : off < 1000) :
    ∀ (n : Nat) (w : Walk), w.edge.y.toNat + n ≤ 50 →
      (∀ k < n, (w.edge.rowAt k).2 ≤ 80) →
      maskAt base (Walk.rows n w).cells (cellAddr base off)
          = maskAt base w.cells (cellAddr base off) ||| slotsOf (w.edge.inRows n) off := by
  intro n w
  induction n, w using Walk.rows.induct with
  | case1 w =>
    intro _ _
    rw [slotsOf_empty]
    · simp [Walk.rows]
    · intro px py _ _
      simp only [EdgeState.inRows]
      by_cases h : w.edge.y.toNat ≤ py <;> simp [h]
  | case2 w =>
    intro hy hr
    have h0 := hr 0 (by omega)
    rw [EdgeState.rowAt_zero] at h0
    rw [Walk.rows, Walk.single, maskAt_append, maskAt_rowCells (by omega) h0 hoff]
    congr 1
    refine slotsOf_congr fun px py _ _ => ?_
    rw [EdgeState.inRows_succ (by omega)]
    have : w.edge.advance.inRows 0 px py = false := by
      simp only [EdgeState.inRows]
      by_cases h : w.edge.advance.y.toNat ≤ py <;> simp [h]
    rw [this, Bool.or_false]
  | case3 n w he ih =>
    intro hy hr
    have h0 := hr 0 (by omega)
    have h1 := hr 1 (by omega)
    rw [EdgeState.rowAt_zero] at h0
    rw [← EdgeState.rowAt_advance, EdgeState.rowAt_zero] at h1
    have hy1 := EdgeState.advance_y (e := w.edge) (by omega)
    have hy2 := EdgeState.advance_y (e := w.edge.advance) (by omega)
    rw [Walk.rows, if_pos he, ih]
    · rw [Walk.dual, maskAt_append, maskAt_dispatchCells (by omega) he h0 h1 hoff, BitVec.or_assoc,
        ← slotsOf_or]
      congr 1
      refine slotsOf_congr fun px py _ _ => ?_
      rw [EdgeState.inRows_succ (by omega), EdgeState.inRows_succ (by omega), hy1, Bool.or_assoc]
    · simp only [Walk.dual]; omega
    · intro k hk
      have := hr (k + 2) (by omega)
      simp only [Walk.dual, EdgeState.rowAt_advance]
      exact this
  | case4 n w he ih =>
    intro hy hr
    have h0 := hr 0 (by omega)
    rw [EdgeState.rowAt_zero] at h0
    have hy1 := EdgeState.advance_y (e := w.edge) (by omega)
    rw [Walk.rows, if_neg he, ih]
    · rw [Walk.single, maskAt_append, maskAt_rowCells (by omega) h0 hoff, BitVec.or_assoc,
        ← slotsOf_or]
      congr 1
      exact slotsOf_congr fun px py _ _ => (EdgeState.inRows_succ (by omega) (n + 1) px py).symm
    · simp only [Walk.single]; omega
    · intro k hk
      have := hr (k + 1) (by omega)
      simp only [Walk.single, EdgeState.rowAt_advance]
      exact this

/-- A walk of n rows leaves the triangle's constants alone and moves LPOS by n slopes (42 R101,
R102). -/
theorem Walk.rows_edge :
    ∀ (n : Nat) (w : Walk),
      (Walk.rows n w).edge.lpos = w.edge.lpos + BitVec.ofNat 16 n * w.edge.lslope ∧
      (Walk.rows n w).edge.lslope = w.edge.lslope ∧
      (Walk.rows n w).edge.shortLeft = w.edge.shortLeft := by
  intro n w
  induction n, w using Walk.rows.induct with
  | case1 w => simp [Walk.rows]
  | case2 w =>
    rw [Walk.rows, ofNat_succ_mul]
    simp [Walk.single, EdgeState.advance]
  | case3 n w he ih =>
    rw [Walk.rows, if_pos he, ih.1, ih.2.1, ih.2.2, ofNat_succ_mul, ofNat_succ_mul]
    simp [Walk.dual, EdgeState.advance, BitVec.add_assoc]
  | case4 n w he ih =>
    rw [Walk.rows, if_neg he, ih.1, ih.2.1, ih.2.2, ofNat_succ_mul (n + 1)]
    simp [Walk.single, EdgeState.advance, BitVec.add_assoc]

/-- Every cell a walk of rows writes lies in the region, if its rows do. -/
theorem Walk.rows_off :
    ∀ (n : Nat) (w : Walk), w.edge.y.toNat + n ≤ 50 → (∀ k < n, (w.edge.rowAt k).2 ≤ 80) →
      (∀ c ∈ w.cells, c.off < 1000) → ∀ c ∈ (Walk.rows n w).cells, c.off < 1000 := by
  intro n w
  induction n, w using Walk.rows.induct with
  | case1 w => intro _ _ h; exact h
  | case2 w =>
    intro hy hr h c hc
    have h0 := hr 0 (by omega)
    rw [EdgeState.rowAt_zero] at h0
    rw [Walk.rows, Walk.single, List.mem_append] at hc
    exact hc.elim (h c) (spanCells_off (by omega) h0 c)
  | case3 n w he ih =>
    intro hy hr h
    have h0 := hr 0 (by omega)
    have h1 := hr 1 (by omega)
    rw [EdgeState.rowAt_zero] at h0
    rw [← EdgeState.rowAt_advance, EdgeState.rowAt_zero] at h1
    have hy1 := EdgeState.advance_y (e := w.edge) (by omega)
    have hy2 := EdgeState.advance_y (e := w.edge.advance) (by omega)
    rw [Walk.rows, if_pos he]
    refine ih (by simp only [Walk.dual]; omega) ?_ ?_
    · intro k hk
      simp only [Walk.dual, EdgeState.rowAt_advance]
      exact hr (k + 2) (by omega)
    · intro c hc
      rw [Walk.dual, List.mem_append] at hc
      exact hc.elim (h c) (dispatchCells_off (by omega) he h0 h1 c)
  | case4 n w he ih =>
    intro hy hr h
    have h0 := hr 0 (by omega)
    rw [EdgeState.rowAt_zero] at h0
    have hy1 := EdgeState.advance_y (e := w.edge) (by omega)
    rw [Walk.rows, if_neg he]
    refine ih (by simp only [Walk.single]; omega) ?_ ?_
    · intro k hk
      simp only [Walk.single, EdgeState.rowAt_advance]
      exact hr (k + 1) (by omega)
    · intro c hc
      rw [Walk.single, List.mem_append] at hc
      exact hc.elim (h c) (spanCells_off (by omega) h0 c)

/-- Every cell write of a walk of rows covers a slot. -/
theorem Walk.rows_mask :
    ∀ (n : Nat) (w : Walk), (∀ c ∈ w.cells, c.mask ≠ 0) → ∀ c ∈ (Walk.rows n w).cells, c.mask ≠ 0 := by
  intro n w
  induction n, w using Walk.rows.induct with
  | case1 w => exact id
  | case2 w =>
    intro h c hc
    rw [Walk.rows, Walk.single, List.mem_append] at hc
    exact hc.elim (h c) (rowCells_mask c)
  | case3 n w he ih =>
    intro h
    rw [Walk.rows, if_pos he]
    exact ih fun c hc => (List.mem_append.mp hc).elim (h c) (dispatchCells_mask c)
  | case4 n w he ih =>
    intro h
    rw [Walk.rows, if_neg he]
    exact ih fun c hc => (List.mem_append.mp hc).elim (h c) (rowCells_mask c)

/-! ### What a fill covers (42 R93, R106) -/

/-- Row k of an edge on the grid lies in 0..0x4F00 (42 R110). -/
theorem edge_on_grid (h : HalfSlope) {p q : Vertex} (hp : p.x.toNat ≤ 79) (hq : q.x.toNat ≤ 79)
    {y : Nat} (hy : p.y.toNat ≤ y) (hy' : y < q.y.toNat) :
    0 ≤ (shortPos h p q y).toInt ∧ (shortPos h p q y).toInt ≤ 79 * 256 := by
  have hr := edge_range h hp hq (by omega) (k := y - p.y.toNat) (by omega)
  simp only at hr
  unfold shortPos
  omega

/-- The interval of two positions on the grid ends on the grid (42 R110). -/
theorem interval_on_grid (sl : Bool) {lp sp : Fixed88} (h1 : lp.toInt ≤ 79 * 256)
    (h2 : sp.toInt ≤ 79 * 256) : (interval sl lp sp).2 ≤ 79 := by
  have hfd : ∀ x : Int, floorDiv x 256 = x / 256 := fun x => by
    rw [floorDiv, Int.fdiv_eq_ediv_of_nonneg _ (by norm_num)]
  rw [interval_eq, hfd, hfd]
  simp only
  omega

/-- What one trapezoid does: its cells cover the pixels of its rows, LPOS moves on by its height, and
LSLOPE and SHORTLEFT stay (42 R100 to R102). -/
theorem Walk.trap_spec (base : Addr) {off : Nat} (hoff : off < 1000) (h : HalfSlope) (w : Walk)
    {p q : Vertex} (hpq : p.y.toNat ≤ q.y.toNat) (hq : q.y.toNat ≤ 49) (hpx : p.x.toNat ≤ 79)
    (hqx : q.x.toNat ≤ 79)
    (hl : ∀ y, p.y.toNat ≤ y → y < q.y.toNat →
      (w.edge.lpos + BitVec.ofNat 16 (y - p.y.toNat) * w.edge.lslope).toInt ≤ 79 * 256)
    (hc : ∀ c ∈ w.cells, c.off < 1000) :
    maskAt base (w.trap h p q).cells (cellAddr base off)
        = maskAt base w.cells (cellAddr base off) |||
          slotsOf
            (fun px py =>
              decide (p.y.toNat ≤ py) && decide (py < q.y.toNat)
                && decide
                  ((interval w.edge.shortLeft
                      (w.edge.lpos + BitVec.ofNat 16 (py - p.y.toNat) * w.edge.lslope)
                      (shortPos h p q py)).1 ≤ px)
                && decide
                  (px <
                    (interval w.edge.shortLeft
                      (w.edge.lpos + BitVec.ofNat 16 (py - p.y.toNat) * w.edge.lslope)
                      (shortPos h p q py)).2)) off ∧
      (∀ c ∈ (w.trap h p q).cells, c.off < 1000) ∧
      (w.trap h p q).edge.lpos
          = w.edge.lpos + BitVec.ofNat 16 (q.y.toNat - p.y.toNat) * w.edge.lslope ∧
      (w.trap h p q).edge.lslope = w.edge.lslope ∧
      (w.trap h p q).edge.shortLeft = w.edge.shortLeft := by
  unfold Walk.trap
  by_cases hle : q.y.toNat ≤ p.y.toNat
  · have h0 : q.y.toNat - p.y.toNat = 0 := by omega
    simp only [hle, if_true, h0]
    refine ⟨?_, hc, by simp, by simp, by simp⟩
    rw [slotsOf_empty]
    · simp
    · intro px py _ _
      by_cases hp : p.y.toNat ≤ py
      · have : ¬py < q.y.toNat := by omega
        simp [this]
      · simp [hp]
  · simp only [if_neg hle]
    have hy : ({ w with edge := w.edge.startTrap h p q } : Walk).edge.y.toNat
        + (q.y.toNat - p.y.toNat) ≤ 50 := by
      show p.y.toNat + _ ≤ 50
      omega
    have hr : ∀ k < q.y.toNat - p.y.toNat,
        (({ w with edge := w.edge.startTrap h p q } : Walk).edge.rowAt k).2 ≤ 80 := by
      intro k hk
      have h1 := hl (p.y.toNat + k) (by omega) (by omega)
      have h2 := (edge_on_grid h hpx hqx (y := p.y.toNat + k) (by omega) (by omega)).2
      unfold shortPos at h2
      rw [Nat.add_sub_cancel_left] at h1 h2
      exact le_trans (interval_on_grid _ h1 h2) (by norm_num)
    have he := Walk.rows_edge (q.y.toNat - p.y.toNat) { w with edge := w.edge.startTrap h p q }
    refine ⟨?_, Walk.rows_off _ _ hy hr hc, he.1, he.2.1, he.2.2⟩
    rw [Walk.rows_spec base hoff _ _ hy hr]
    congr 1
    refine slotsOf_congr fun px py _ _ => ?_
    have e1 : ({ w with edge := w.edge.startTrap h p q } : Walk).edge.y.toNat = p.y.toNat := rfl
    have e2 : py < p.y.toNat + (q.y.toNat - p.y.toNat) ↔ py < q.y.toNat := by omega
    simp only [EdgeState.inRows, EdgeState.rowAt, e1, e2]
    rfl

/-- The cells of a fill of a triangle on the grid cover exactly the pixels of its rows, whatever the
hidden edge state was, and lie in the region (42 R106). -/
theorem fillWalk_spec (base : Addr) {off : Nat} (hoff : off < 1000) (e : EdgeState)
    (h : HalfSlope) {a b c : Vertex} (ha : a.x.toNat ≤ 79) (hb : b.x.toNat ≤ 79)
    (hc : c.x.toNat ≤ 79) (ha' : a.y.toNat ≤ 49) (hb' : b.y.toNat ≤ 49) (hc' : c.y.toNat ≤ 49) :
    maskAt base (fillWalk e h a b c).cells (cellAddr base off)
        = slotsOf (inTriangle h a b c) off ∧
      ∀ w ∈ (fillWalk e h a b c).cells, w.off < 1000 := by
  have hx := sort3_all (p := fun v => v.x.toNat ≤ 79) ha hb hc
  have hy := sort3_all (p := fun v => v.y.toNat ≤ 49) ha' hb' hc'
  have hr := sort3_rising a b c
  generalize hv : sort3 a b c = v at *
  obtain ⟨v0, v1, v2, par⟩ := v
  simp only at hx hy hr
  have t1 := Walk.trap_spec base hoff h { edge := e.startFill h a b c, cells := [] } hr.1 hy.2.1
    hx.1 hx.2.1
    (fun y h1 h2 => by
      have := (edge_on_grid h hx.1 hx.2.2 h1 (by omega)).2
      unfold shortPos at this
      simp only [EdgeState.startFill, hv]
      exact this)
    (by simp)
  have hfw : fillWalk e h a b c
      = (Walk.trap { edge := e.startFill h a b c, cells := [] } h v0 v1).trap h v1 v2 := by
    simp only [fillWalk, EdgeState.startFill, hv]
  have hl : (e.startFill h a b c).lpos = edgeStart h v0 (edgeSlope v0 v2) ∧
      (e.startFill h a b c).lslope = edgeSlope v0 v2 ∧
      (e.startFill h a b c).shortLeft = par := by
    simp [EdgeState.startFill, hv]
  rw [hfw]
  generalize Walk.trap { edge := e.startFill h a b c, cells := [] } h v0 v1 = w1 at *
  have hlong : ∀ y, v1.y.toNat ≤ y →
      w1.edge.lpos + BitVec.ofNat 16 (y - v1.y.toNat) * w1.edge.lslope = longPos h v0 v2 y := by
    intro y h1
    rw [t1.2.2.1, t1.2.2.2.1, hl.1, hl.2.1, longPos, BitVec.add_assoc, ← BitVec.add_mul,
      ← BitVec.ofNat_add]
    congr 3
    omega
  have t2 := Walk.trap_spec base hoff h w1 hr.2 hy.2.2 hx.2.1 hx.2.2
    (fun y h1 h2 => by
      rw [hlong y h1]
      exact (edge_on_grid h hx.1 hx.2.2 (by omega) h2).2)
    t1.2.1
  refine ⟨?_, t2.2.1⟩
  rw [t2.1, t1.1, maskAt_nil, BitVec.zero_or, ← slotsOf_or]
  refine slotsOf_congr fun px py _ _ => ?_
  simp only [inTriangle, walked, fillRow, hv, t1.2.2.2.2, hl.1, hl.2.1, hl.2.2]
  by_cases c1 : v0.y.toNat ≤ py
  · by_cases c2 : py < v1.y.toNat
    · have c3 : ¬v1.y.toNat ≤ py := by omega
      have c4 : py < v2.y.toNat := by omega
      simp only [c1, c2, c3, c4, decide_true, decide_false, Bool.true_and, Bool.false_and,
        Bool.or_false, if_true]
      rfl
    · have c3 : v1.y.toNat ≤ py := by omega
      rw [hlong py c3]
      simp [c1, c2, c3]
  · have c3 : ¬v1.y.toNat ≤ py := by omega
    simp [c1, c3]

/-- Every cell write of a fill covers a slot: a fill writes exactly the bytes with a pixel of its rows,
and none when there is no pixel (42 R106). -/
theorem fillWalk_mask (e : EdgeState) (h : HalfSlope) (a b c : Vertex) :
    ∀ w ∈ (fillWalk e h a b c).cells, w.mask ≠ 0 := by
  have trap : ∀ (w : Walk) (p q : Vertex), (∀ c ∈ w.cells, c.mask ≠ 0) →
      ∀ c ∈ (w.trap h p q).cells, c.mask ≠ 0 := by
    intro w p q hw
    unfold Walk.trap
    split
    · exact hw
    · exact Walk.rows_mask _ _ hw
  exact trap _ _ _ (trap _ _ _ (by simp))

/-- A trapezoid starts from two walks that agree on everything it reads as from one, or leaves each as
it is when it is empty: it sets SPOS, SSLOPE, Y and YEND before use (10 R33, 42 R102). -/
theorem Walk.trap_congr {w w' : Walk} (h : HalfSlope) (p q : Vertex)
    (he : w'.edge = { w.edge with
      spos := w'.edge.spos, sslope := w'.edge.sslope, y := w'.edge.y, yend := w'.edge.yend })
    (hc : w'.cells = w.cells) :
    w'.trap h p q = w.trap h p q ∨ (w.trap h p q = w ∧ w'.trap h p q = w') := by
  unfold Walk.trap
  split
  · exact .inr ⟨rfl, rfl⟩
  · left
    congr 1
    simp only [EdgeState.startTrap, hc]
    rw [he]

/-- A fill's cells do not depend on the edge state an earlier FILLTRI left (10 R33). -/
theorem fillWalk_cells_edge (e e' : EdgeState) (h : HalfSlope) (a b c : Vertex) :
    (fillWalk e' h a b c).cells = (fillWalk e h a b c).cells := by
  have h1 := Walk.trap_congr (w := { edge := e.startFill h a b c, cells := [] })
    (w' := { edge := e'.startFill h a b c, cells := [] }) h (sort3 a b c).1 (sort3 a b c).2.1 rfl rfl
  have h2 := Walk.trap_congr (w := { edge := e.startFill h a b c, cells := [] })
    (w' := { edge := e'.startFill h a b c, cells := [] }) h (sort3 a b c).2.1 (sort3 a b c).2.2.1
    rfl rfl
  simp only [fillWalk, EdgeState.startFill] at *
  rcases h1 with h1 | ⟨h1, h1'⟩
  · rw [h1]
  · rw [h1, h1']
    rcases h2 with h2 | ⟨h2, h2'⟩
    · rw [h2]
    · rw [h2, h2']

end Sys2Proof.Machine
end

