-- ==== Sys2Proof/Laws/Exec.lean ====
section
/-! SUPPORT. One lemma per shared operation of the meanings, saying once everything it can do, and what
any command can do at most. -/

namespace Sys2Proof.Machine

/-! ### What a command may write at most -/

/-- `t` differs from `s` at most where a command may write: RES, memory, ERR, ERRCODE, TRIRES, the
hidden edge state and the model's bookkeeping. The registers, the sequencer and the host's side are
`s`'s (30 R64). -/
def State.UnitWrites (s t : State) : Prop :=
  t = { s with
        res := t.res, resWritten := t.resWritten, mem := t.mem, unknown := t.unknown, err := t.err
        errCode := t.errCode, triRes := t.triRes, edge := t.edge, draws := t.draws
        record := t.record }

theorem State.UnitWrites.refl (s : State) : s.UnitWrites s := rfl

theorem State.UnitWrites.trans {s t u : State} (h : s.UnitWrites t) (k : t.UnitWrites u) :
    s.UnitWrites u := by
  unfold State.UnitWrites at *
  rw [k, h]

theorem State.unitWrites_noteReads (s : State) (ds : List DataReg) :
    s.UnitWrites (s.noteReads ds) := by
  unfold State.noteReads; split <;> rfl

theorem State.unitWrites_noteByteRead (s : State) (a : Nat) :
    s.UnitWrites (s.noteByteRead a) := by
  unfold State.noteByteRead; split <;> rfl

theorem State.unitWrites_raise (s : State) (c : FaultCode) : s.UnitWrites (s.raise c) := rfl

theorem State.unitWrites_setRes (s : State) (v : Res24) : s.UnitWrites (s.setRes v) := rfl

theorem State.unitWrites_clearErr (s : State) : s.UnitWrites s.clearErr := rfl

theorem State.unitWrites_putCells (s : State) (ws : List CellWrite) :
    s.UnitWrites (s.putCells ws) := rfl

theorem State.unitWrites_endFill (s : State) (r : TriRes) : s.UnitWrites (s.endFill r) := rfl

/-! ### drawCells and carryOut -/

/-- Carrying out cell writes is making them; carrying out a fault is raising it. -/
@[simp] theorem State.carryOut_ok (s : State) (ws : List CellWrite) :
    s.carryOut (.ok ws) = s.drawCells ws := rfl

@[simp] theorem State.carryOut_error (s : State) (c : FaultCode) :
    s.carryOut (.error c) = .next (s.raise c) := rfl

/-- No cell write: no access and no change (41 R89). -/
@[simp] theorem State.drawCells_nil (s : State) : s.drawCells [] = .next s := rfl

/-- Some cell write, and the region clear of the register window: the writes happen. -/
theorem State.drawCells_clear {s : State} {ws : List CellWrite} (hw : ws ≠ [])
    (h : s.misplaced = false) : s.drawCells ws = .next (s.putCells ws) := by
  cases ws with
  | nil => exact absurd rfl hw
  | cons w rest => simp [State.drawCells, h]

/-- Some cell write, and the region over the register window: refused (70 R140). -/
theorem State.drawCells_misplaced {s : State} {ws : List CellWrite} (hw : ws ≠ [])
    (h : s.misplaced = true) : s.drawCells ws = .refused .framebufferMisplaced := by
  cases ws with
  | nil => exact absurd rfl hw
  | cons w rest => simp [State.drawCells, h]

/-- Everything drawCells can do when it answers a next state. -/
theorem State.drawCells_next {s t : State} {ws : List CellWrite} (h : s.drawCells ws = .next t) :
    (ws = [] ∧ t = s) ∨ (ws ≠ [] ∧ s.misplaced = false ∧ t = s.putCells ws) := by
  cases ws with
  | nil => exact .inl ⟨rfl, by simpa using h.symm⟩
  | cons w rest =>
    cases ho : s.misplaced with
    | true => rw [State.drawCells_misplaced (List.cons_ne_nil _ _) ho] at h; cases h
    | false =>
      rw [State.drawCells_clear (List.cons_ne_nil _ _) ho] at h
      exact .inr ⟨List.cons_ne_nil _ _, rfl, by simpa using h.symm⟩

/-- Everything carrying out a plan can do when it answers a next state. -/
theorem State.carryOut_next {s t : State} {p : Plan} (h : s.carryOut p = .next t) :
    (∃ c, p = .error c ∧ t = s.raise c) ∨ (p = .ok [] ∧ t = s) ∨
      (∃ ws, ws ≠ [] ∧ p = .ok ws ∧ s.misplaced = false ∧ t = s.putCells ws) := by
  cases p with
  | error c => exact .inl ⟨c, rfl, by simpa [State.carryOut] using h.symm⟩
  | ok ws =>
    rcases State.drawCells_next h with ⟨rfl, rfl⟩ | ⟨hw, ho, rfl⟩
    · exact .inr (.inl ⟨rfl, rfl⟩)
    · exact .inr (.inr ⟨ws, hw, rfl, ho, rfl⟩)

/-- Cell writes, as they stand or after none: the one memory that results. -/
theorem State.drawCells_mem {s t : State} {ws : List CellWrite} (h : s.drawCells ws = .next t) :
    t.mem = writeCells s.fbbase (spread s.regs.color.val) s.mem ws := by
  rcases State.drawCells_next h with ⟨rfl, rfl⟩ | ⟨_, _, rfl⟩
  · rfl
  · rfl

/-- The record after cell writes grows at most by UNINIT (70 R146). -/
theorem State.putCells_uninit (s : State) (ws : List CellWrite) :
    ∃ l, (s.putCells ws).record = s.record ++ l ∧ ∀ e ∈ l, e.kind = .uninit := by
  rw [State.putCells_record]
  split
  · exact ⟨[{ kind := .uninit, pos := s.cmdPos }], rfl, by simp⟩
  · exact ⟨[], by simp⟩

/-- With no unknown byte, cell writes record nothing. -/
theorem State.putCells_known {s : State} (h : s.unknown = []) (ws : List CellWrite) :
    (s.putCells ws).record = s.record ∧ (s.putCells ws).unknown = [] := by
  rw [State.putCells_record, State.putCells_unknown, h]
  simp [readsUnknown, stillUnknown]

/-- The color check in numbers (41 R80). -/
@[simp] theorem State.badColor_eq_true (s : State) : s.badColor = true ↔ 3 < s.color := by
  simp [State.badColor]

@[simp] theorem State.badColor_eq_false (s : State) : s.badColor = false ↔ s.color ≤ 3 := by
  simp [State.badColor]

/-- The span checks pass exactly for legal operands (41 R80). -/
theorem State.spanFault_none {s : State} {par : Nat} :
    s.spanFault par = none ↔ spanLegal s par := by
  unfold State.spanFault spanLegal
  by_cases hb : 3 < s.color
  · rw [if_pos ((State.badColor_eq_true s).mpr hb)]
    simp only [reduceCtorEq, false_iff]
    omega
  · rw [if_neg (mt (State.badColor_eq_true s).mp hb)]
    split_ifs <;> simp only [false_iff, true_iff] <;> omega

/-- FILLTRI's checks pass exactly for legal operands (42 R92). -/
theorem State.fillFault_none {s : State} : s.fillFault = none ↔ fillLegal s := by
  unfold State.fillFault fillLegal
  by_cases hb : 3 < s.color
  · rw [if_pos ((State.badColor_eq_true s).mpr hb)]
    simp only [reduceCtorEq, false_iff]
    omega
  · rw [if_neg (mt (State.badColor_eq_true s).mp hb)]
    split_ifs <;> simp only [false_iff, true_iff] <;> omega

/-- SPAN2's checks pass exactly for legal operands (42 R107). -/
theorem State.span2Fault_none {s : State} :
    s.span2Fault = none ↔
      s.color ≤ 3 ∧ s.p1 ≤ 49 ∧ s.p0 ≤ 80 ∧ s.p2 ≤ 80 ∧ s.p4 ≤ 80 ∧ s.p5 ≤ 80 ∧ s.p1 % 2 = 0 := by
  unfold State.span2Fault
  by_cases hb : 3 < s.color
  · rw [if_pos ((State.badColor_eq_true s).mpr hb)]
    simp only [reduceCtorEq, false_iff]
    omega
  · rw [if_neg (mt (State.badColor_eq_true s).mp hb)]
    split_ifs <;> simp only [false_iff, true_iff] <;> omega

/-- A command's reads and then its fault, in the terms of the claims (60 R121). -/
theorem raised_eq (s : State) (i : Instr) (c : FaultCode) :
    raised s i c = .next ((s.noteReads (readSet i)).raise c) := by
  unfold raised State.raise State.noteReads
  split <;> rfl

/-- The record after a command's reads grows as QuietRecord says. -/
theorem quietRecord_noteReads (s : State) (i : Instr) :
    QuietRecord s (s.noteReads (readSet i)) i :=
  ⟨State.noteReads_record s _, fun h _ => by rw [State.noteReads_allWritten s _ h]⟩

/-- The record after a command's reads and cell writes grows as QuietRecord says. -/
theorem quietRecord_putCells (s : State) (i : Instr) (ws : List CellWrite) :
    QuietRecord s ((s.noteReads (readSet i)).putCells ws) i := by
  obtain ⟨l1, h1, k1⟩ := State.noteReads_record s (readSet i)
  obtain ⟨l2, h2, k2⟩ := State.putCells_uninit (s.noteReads (readSet i)) ws
  refine ⟨⟨l1 ++ l2, by rw [h2, h1, List.append_assoc], fun e he => ?_⟩, fun ha hu => ?_⟩
  · exact (List.mem_append.mp he).elim (k1 e) (k2 e)
  · rw [State.noteReads_allWritten s _ ha, (State.putCells_known hu ws).1]

/-- Cell writes that cover the slots of a pixel set are that set's WritePixels (20 R46). -/
theorem writesPixels_of_cells {s t : State} {ws : List CellWrite} {f : Nat → Nat → Bool}
    (hm : Mem.wf s.mem = true)
    (ht : t.mem = writeCells s.fbbase (spread s.regs.color.val) s.mem ws)
    (hf : ∀ off < 1000, maskAt s.fbbase ws (cellAddr s.fbbase off) = slotsOf f off)
    (hw : ∀ w ∈ ws, w.off < 1000) : WritesPixels s t f s.regs.color.val := by
  refine ⟨fun off hoff => ?_, fun a ha => ?_⟩
  · rw [ht, read_writeCells _ _ hm, hf off hoff]; rfl
  · rw [ht, read_writeCells _ _ hm, maskAt_outside hw ha, mergeCell_zero]

/-- Cell writes that cover a pixel set treat the unknown bytes as DrawsUnknown says (70 R146). -/
theorem drawsUnknown_of_cells {s t : State} {ws : List CellWrite} {f : Nat → Nat → Bool}
    (ht : t.unknown = stillUnknown s.fbbase s.unknown ws)
    (hr : readsUnknown s.fbbase s.unknown ws = true →
      { kind := .uninit, pos := s.cmdPos } ∈ t.record)
    (hf : ∀ off < 1000, maskAt s.fbbase ws (cellAddr s.fbbase off) = slotsOf f off)
    (hw : ∀ w ∈ ws, w.off < 1000) : DrawsUnknown s t f := by
  have mem : ∀ a, a ∈ t.unknown ↔ a ∈ s.unknown ∧ maskAt s.fbbase ws a ≠ 0xFF := fun a => by
    rw [ht, stillUnknown, List.mem_filter, decide_eq_true_eq]
  refine ⟨fun a ha => ((mem a).mp ha).1, fun off hoff hu => ⟨?_, fun h0 h1 => hr ?_⟩, fun a ha => ?_⟩
  · rw [mem, hf off hoff]
    exact ⟨And.right, fun h => ⟨hu, h⟩⟩
  · rw [← hf off hoff] at h0 h1
    exact readsUnknown_of_partial hu h0 h1
  · rw [mem, maskAt_outside hw ha]
    exact ⟨And.left, fun h => ⟨h, by decide⟩⟩

/-- Carrying out a list of cell writes that covers a pixel set, with the region clear of the window
unless the list is empty, draws that set. -/
theorem carryOut_draws {s : State} {i : Instr} {ws : List CellWrite} {f : Nat → Nat → Bool}
    (hm : Mem.wf s.mem = true) (ho : ws ≠ [] → s.misplaced = false)
    (hf : ∀ off < 1000, maskAt s.fbbase ws (cellAddr s.fbbase off) = slotsOf f off)
    (hw : ∀ w ∈ ws, w.off < 1000) :
    ∃ t, (s.noteReads (readSet i)).carryOut (.ok ws) = .next t ∧ Draws s t i f := by
  by_cases hn : ws = []
  · subst hn
    refine ⟨s.noteReads (readSet i), rfl, ?_, ?_, ?_, quietRecord_noteReads s i⟩
    · rw [State.noteReads_mem, State.noteReads_unknown]; exact State.noteReads_eq s _
    · exact writesPixels_of_cells hm (by rw [State.noteReads_mem]; rfl) hf hw
    · exact drawsUnknown_of_cells (ws := []) (by simp [stillUnknown]) (by simp [readsUnknown]) hf hw
  · refine ⟨(s.noteReads (readSet i)).putCells ws,
      State.drawCells_clear hn (by rw [State.noteReads_misplaced]; exact ho hn), ?_, ?_, ?_,
      quietRecord_putCells s i ws⟩
    · simp only [State.putCells]
      rw [State.noteReads_eq]
    · exact writesPixels_of_cells hm (by simp [State.putCells]) hf hw
    · refine drawsUnknown_of_cells (by simp [State.putCells]) (fun h => ?_) hf hw
      rw [State.putCells_record, State.noteReads_fbbase, State.noteReads_unknown, if_pos h]
      simp

/-- Cell writes in a region that is not misplaced answer a next state, whatever they are. -/
theorem State.drawCells_progress {s : State} (h : s.misplaced = false) (ws : List CellWrite) :
    ∃ t, s.drawCells ws = .next t := by
  by_cases hw : ws = []
  · exact ⟨s, by rw [hw]; rfl⟩
  · exact ⟨_, State.drawCells_clear hw h⟩

/-- So does carrying out a plan. -/
theorem State.carryOut_progress {s : State} (h : s.misplaced = false) :
    ∀ p : Plan, ∃ t, s.carryOut p = .next t
  | .error _ => ⟨_, rfl⟩
  | .ok ws => State.drawCells_progress h ws

/-- Every command answers a next state, unless it reads FBBASE and the framebuffer is misplaced
(70 R140). -/
theorem exec_progress (i : Instr) (s : State)
    (h : .fbbaseL ∈ readSet i → s.misplaced = false) : ∃ t, exec i s = .next t := by
  have plan : s.misplaced = false → ∀ ds p, ∃ t, (s.noteReads ds).carryOut p = .next t := fun hm ds =>
    State.carryOut_progress (by rw [State.noteReads_misplaced]; exact hm)
  cases i with
  | nop => exact ⟨_, rfl⟩
  | clrerr => exact ⟨_, rfl⟩
  | mulu8 => exact ⟨_, rfl⟩
  | muls8 => exact ⟨_, rfl⟩
  | muls8u8 => exact ⟨_, rfl⟩
  | muls16u8 => exact ⟨_, rfl⟩
  | divfx => simp only [exec, execDivfx]; split <;> exact ⟨_, rfl⟩
  | clear => exact plan (h (by decide)) _ _
  | setpix => exact plan (h (by decide)) _ _
  | getpix =>
    simp only [exec, execGetpix, h (by decide), Bool.false_eq_true, if_false]
    split <;> exact ⟨_, rfl⟩
  | spantop => exact plan (h (by decide)) _ _
  | spanbot => exact plan (h (by decide)) _ _
  | spandual => exact plan (h (by decide)) _ _
  | filltri =>
    simp only [exec, execFilltri]
    split
    · exact ⟨_, rfl⟩
    · obtain ⟨t, ht⟩ := State.drawCells_progress (s := s.noteReads (readSet .filltri))
        (by rw [State.noteReads_misplaced]; exact h (by decide)) s.fill.2
      rw [ht]
      exact ⟨_, rfl⟩
  | span2 => exact plan (h (by decide)) _ _

/-- Every meaning writes at most what a command may write (30 R64). -/
theorem exec_unitWrites {i : Instr} {s t : State} (h : exec i s = .next t) : s.UnitWrites t := by
  have plan : ∀ (ds : List DataReg) (p : Plan), (s.noteReads ds).carryOut p = .next t →
      s.UnitWrites t := by
    intro ds p hp
    refine (s.unitWrites_noteReads ds).trans ?_
    rcases State.carryOut_next hp with ⟨c, -, rfl⟩ | ⟨-, rfl⟩ | ⟨ws, -, -, -, rfl⟩
    · exact State.unitWrites_raise _ c
    · exact State.UnitWrites.refl _
    · exact State.unitWrites_putCells _ ws
  have res : ∀ (ds : List DataReg) (r : Int), (s.noteReads ds).result r = .next t →
      s.UnitWrites t := by
    intro ds r hr
    simp only [State.result, Host.Outcome.next.injEq] at hr
    rw [← hr]
    exact (s.unitWrites_noteReads ds).trans (State.unitWrites_setRes _ _)
  cases i with
  | nop => simp only [exec, execNop, Host.Outcome.next.injEq] at h; rw [← h]; exact .refl s
  | clrerr =>
    simp only [exec, execClrerr, Host.Outcome.next.injEq] at h
    rw [← h]; exact State.unitWrites_clearErr s
  | mulu8 => exact res _ _ h
  | muls8 => exact res _ _ h
  | muls8u8 => exact res _ _ h
  | muls16u8 => exact res _ _ h
  | divfx =>
    simp only [exec, execDivfx] at h
    split at h
    · simp only [Host.Outcome.next.injEq] at h
      rw [← h]
      exact (s.unitWrites_noteReads _).trans (State.unitWrites_raise _ _)
    · exact res _ _ h
  | clear => exact plan _ _ h
  | setpix => exact plan _ _ h
  | getpix =>
    simp only [exec, execGetpix] at h
    split at h
    · split at h
      · cases h
      · simp only [Host.Outcome.next.injEq] at h
        rw [← h]
        exact ((s.unitWrites_noteReads _).trans (State.unitWrites_noteByteRead _ _)).trans
          (State.unitWrites_setRes _ _)
    · simp only [Host.Outcome.next.injEq] at h
      rw [← h]
      exact (s.unitWrites_noteReads _).trans (State.unitWrites_setRes _ _)
  | spantop => exact plan _ _ h
  | spanbot => exact plan _ _ h
  | spandual => exact plan _ _ h
  | filltri =>
    simp only [exec, execFilltri] at h
    split at h
    · simp only [Host.Outcome.next.injEq] at h
      rw [← h]
      exact (s.unitWrites_noteReads _).trans (State.unitWrites_raise _ _)
    · split at h
      · rename_i u hu
        simp only [Host.Outcome.next.injEq] at h
        rw [← h]
        refine (s.unitWrites_noteReads (readSet .filltri)).trans (State.UnitWrites.trans ?_
          (State.unitWrites_endFill u _))
        rcases State.drawCells_next hu with ⟨-, rfl⟩ | ⟨-, -, rfl⟩
        · exact .refl _
        · exact State.unitWrites_putCells _ _
      · cases h
      · cases h
  | span2 => exact plan _ _ h

/-! ### What any command does to the record and to memory -/

/-- The record grows from one list to another by entries that are no host hazard. -/
def GrowsQuietly (r r' : List RecordEntry) : Prop :=
  ∃ l, r' = r ++ l ∧ ∀ e ∈ l, e.kind ≠ .hostHazard

theorem GrowsQuietly.refl (r : List RecordEntry) : GrowsQuietly r r := ⟨[], by simp⟩

theorem GrowsQuietly.trans {r r' r'' : List RecordEntry} (h : GrowsQuietly r r')
    (k : GrowsQuietly r' r'') : GrowsQuietly r r'' := by
  obtain ⟨l, h1, h2⟩ := h
  obtain ⟨l', k1, k2⟩ := k
  exact ⟨l ++ l', by rw [k1, h1, List.append_assoc],
    fun e he => (List.mem_append.mp he).elim (h2 e) (k2 e)⟩

/-- Entries that are no host hazard change nothing about whether one is recorded. -/
theorem GrowsQuietly.hazarded {r r' : List RecordEntry} (h : GrowsQuietly r r') :
    (r'.any fun e => decide (e.kind = .hostHazard))
      = r.any fun e => decide (e.kind = .hostHazard) := by
  obtain ⟨l, rfl, h2⟩ := h
  rw [List.any_append]
  have : (l.any fun e => decide (e.kind = .hostHazard)) = false := by
    rw [List.any_eq_false]
    intro e he
    simp [h2 e he]
  rw [this, Bool.or_false]

theorem growsQuietly_noteReads (s : State) (ds : List DataReg) :
    GrowsQuietly s.record (s.noteReads ds).record := by
  obtain ⟨l, h1, h2⟩ := State.noteReads_record s ds
  exact ⟨l, h1, fun e he => by rw [h2 e he]; simp⟩

theorem growsQuietly_raise (s : State) (c : FaultCode) :
    GrowsQuietly s.record (s.raise c).record := ⟨_, rfl, by simp⟩

theorem growsQuietly_putCells (s : State) (ws : List CellWrite) :
    GrowsQuietly s.record (s.putCells ws).record := by
  obtain ⟨l, h1, h2⟩ := State.putCells_uninit s ws
  exact ⟨l, h1, fun e he => by rw [h2 e he]; simp⟩

/-- A command keeps every entry of the record and adds no host hazard (60 R121). -/
theorem exec_record {i : Instr} {s t : State} (h : exec i s = .next t) :
    GrowsQuietly s.record t.record := by
  have plan : ∀ (ds : List DataReg) (p : Plan), (s.noteReads ds).carryOut p = .next t →
      GrowsQuietly s.record t.record := by
    intro ds p hp
    refine (growsQuietly_noteReads s ds).trans ?_
    rcases State.carryOut_next hp with ⟨c, -, rfl⟩ | ⟨-, rfl⟩ | ⟨ws, -, -, -, rfl⟩
    · exact growsQuietly_raise _ c
    · exact .refl _
    · exact growsQuietly_putCells _ ws
  have res : ∀ (ds : List DataReg) (r : Int), (s.noteReads ds).result r = .next t →
      GrowsQuietly s.record t.record := by
    intro ds r hr
    simp only [State.result, Host.Outcome.next.injEq] at hr
    rw [← hr]
    exact growsQuietly_noteReads s ds
  cases i with
  | nop => simp only [exec, execNop, Host.Outcome.next.injEq] at h; rw [← h]; exact .refl _
  | clrerr =>
    simp only [exec, execClrerr, Host.Outcome.next.injEq] at h
    rw [← h]; exact .refl _
  | mulu8 => exact res _ _ h
  | muls8 => exact res _ _ h
  | muls8u8 => exact res _ _ h
  | muls16u8 => exact res _ _ h
  | divfx =>
    simp only [exec, execDivfx] at h
    split at h
    · simp only [Host.Outcome.next.injEq] at h
      rw [← h]
      exact (growsQuietly_noteReads s _).trans (growsQuietly_raise _ _)
    · exact res _ _ h
  | clear => exact plan _ _ h
  | setpix => exact plan _ _ h
  | getpix =>
    simp only [exec, execGetpix] at h
    split at h
    · split at h
      · cases h
      · simp only [Host.Outcome.next.injEq] at h
        rw [← h]
        refine (growsQuietly_noteReads s (readSet .getpix)).trans ?_
        rw [State.setRes_record]
        unfold State.noteByteRead
        split
        · exact ⟨_, rfl, by simp⟩
        · exact .refl _
    · simp only [Host.Outcome.next.injEq] at h
      rw [← h]
      exact growsQuietly_noteReads s _
  | spantop => exact plan _ _ h
  | spanbot => exact plan _ _ h
  | spandual => exact plan _ _ h
  | filltri =>
    simp only [exec, execFilltri] at h
    split at h
    · simp only [Host.Outcome.next.injEq] at h
      rw [← h]
      exact (growsQuietly_noteReads s _).trans (growsQuietly_raise _ _)
    · split at h
      · rename_i u hu
        simp only [Host.Outcome.next.injEq] at h
        rw [← h]
        refine (growsQuietly_noteReads s (readSet .filltri)).trans ?_
        rcases State.drawCells_next hu with ⟨-, rfl⟩ | ⟨-, -, rfl⟩
        · exact .refl _
        · exact growsQuietly_putCells _ _
      · cases h
      · cases h
  | span2 => exact plan _ _ h

/-- A command's effect on memory and on the unknown bytes, as cell writes inside the region: the empty
list where it writes none (20 R46, R48). -/
def WritesCells (s t : State) : Prop :=
  ∃ ws : List CellWrite, (∀ w ∈ ws, w.off < 1000) ∧
    t.mem = writeCells s.fbbase (spread s.regs.color.val) s.mem ws ∧
    t.unknown = stillUnknown s.fbbase s.unknown ws

/-- No cell write: memory and the unknown bytes as before. -/
theorem WritesCells.none {s t : State} (hm : t.mem = s.mem) (hu : t.unknown = s.unknown) :
    WritesCells s t := by
  refine ⟨[], by simp, hm, ?_⟩
  rw [hu]
  simp [stillUnknown]

/-- Carrying out a plan whose cell writes lie in the region. -/
theorem WritesCells.of_carryOut {s t : State} {ds : List DataReg} {p : Plan}
    (hp : ∀ ws, p = .ok ws → ∀ w ∈ ws, w.off < 1000) (h : (s.noteReads ds).carryOut p = .next t) :
    WritesCells s t := by
  rcases State.carryOut_next h with ⟨c, -, rfl⟩ | ⟨-, rfl⟩ | ⟨ws, -, hpw, -, rfl⟩
  · exact .none (by rw [State.raise_mem, State.noteReads_mem])
      (by rw [State.raise_unknown, State.noteReads_unknown])
  · exact .none (State.noteReads_mem s ds) (State.noteReads_unknown s ds)
  · exact ⟨ws, hp ws hpw, by simp [State.putCells], by simp [State.putCells]⟩

/-- Every command writes memory by cell writes inside the framebuffer region only (20 R42, R48). -/
theorem exec_writesCells {i : Instr} {s t : State} (h : exec i s = .next t) : WritesCells s t := by
  have res : ∀ (ds : List DataReg) (r : Int), (s.noteReads ds).result r = .next t →
      WritesCells s t := by
    intro ds r hr
    simp only [State.result, Host.Outcome.next.injEq] at hr
    rw [← hr]
    exact .none (by simp) (by simp)
  have raised : ∀ (ds : List DataReg) (c : FaultCode), WritesCells s ((s.noteReads ds).raise c) :=
    fun ds c => .none (by simp) (by simp)
  cases i with
  | nop => simp only [exec, execNop, Host.Outcome.next.injEq] at h; rw [← h]; exact .none rfl rfl
  | clrerr =>
    simp only [exec, execClrerr, Host.Outcome.next.injEq] at h
    rw [← h]; exact .none rfl rfl
  | mulu8 => exact res _ _ h
  | muls8 => exact res _ _ h
  | muls8u8 => exact res _ _ h
  | muls16u8 => exact res _ _ h
  | divfx =>
    simp only [exec, execDivfx] at h
    split at h
    · simp only [Host.Outcome.next.injEq] at h
      rw [← h]; exact raised _ _
    · exact res _ _ h
  | clear =>
    refine .of_carryOut (fun ws hp w hw => ?_) h
    unfold State.planClear at hp
    split at hp
    · cases hp
    · rw [Except.ok.injEq] at hp
      rw [← hp, List.mem_map] at hw
      obtain ⟨k, hk, rfl⟩ := hw
      exact List.mem_range.mp hk
  | setpix =>
    refine .of_carryOut (fun ws hp w hw => ?_) h
    unfold State.planSetpix at hp
    split at hp
    · cases hp
    · split at hp
      · rename_i hxy
        rw [Except.ok.injEq] at hp
        rw [← hp, List.mem_singleton] at hw
        rw [hw]
        simp only [cellOff]
        omega
      · rw [Except.ok.injEq] at hp
        rw [← hp] at hw
        exact absurd hw List.not_mem_nil
  | getpix =>
    have hb : ∀ u : State, (∀ a, (u.noteByteRead a).mem = u.mem) ∧
        ∀ a, (u.noteByteRead a).unknown = u.unknown := by
      intro u
      unfold State.noteByteRead
      constructor <;> intro a <;> split <;> rfl
    simp only [exec, execGetpix] at h
    split at h
    · split at h
      · cases h
      · simp only [Host.Outcome.next.injEq] at h
        rw [← h]
        exact .none (by rw [State.setRes_mem, (hb _).1, State.noteReads_mem])
          (by rw [State.setRes_unknown, (hb _).2, State.noteReads_unknown])
    · simp only [Host.Outcome.next.injEq] at h
      rw [← h]
      exact .none (by simp) (by simp)
  | spantop =>
    refine .of_carryOut (fun ws hp w hw => ?_) h
    unfold State.planSpantop at hp
    split at hp
    · cases hp
    · rename_i hf
      rw [Except.ok.injEq] at hp
      rw [← hp] at hw
      have hr := State.spanFault_none.mp hf
      unfold spanLegal at hr
      exact spanCells_off (by omega) (by omega) w hw
  | spanbot =>
    refine .of_carryOut (fun ws hp w hw => ?_) h
    unfold State.planSpanbot at hp
    split at hp
    · cases hp
    · rename_i hf
      rw [Except.ok.injEq] at hp
      rw [← hp] at hw
      have hr := State.spanFault_none.mp hf
      unfold spanLegal at hr
      exact spanCells_off (by omega) (by omega) w hw
  | spandual =>
    refine .of_carryOut (fun ws hp w hw => ?_) h
    unfold State.planSpandual at hp
    split at hp
    · cases hp
    · rename_i hf
      rw [Except.ok.injEq] at hp
      rw [← hp] at hw
      have hr := State.spanFault_none.mp hf
      unfold spanLegal at hr
      exact spanCells_off (by omega) (by omega) w hw
  | filltri =>
    simp only [exec, execFilltri] at h
    split at h
    · simp only [Host.Outcome.next.injEq] at h
      rw [← h]; exact raised _ _
    · rename_i hf
      have hr := State.fillFault_none.mp hf
      split at h
      · rename_i u hu
        simp only [Host.Outcome.next.injEq] at h
        have hc : WritesCells s u := by
          refine .of_carryOut (p := .ok s.fill.2) (fun ws hp w hw => ?_) hu
          rw [Except.ok.injEq] at hp
          rw [← hp] at hw
          unfold State.fill at hw
          split at hw
          · exact absurd hw List.not_mem_nil
          · split at hw
            · exact absurd hw List.not_mem_nil
            · exact (fillWalk_spec s.fbbase (off := 0) (by norm_num) s.edge s.cfg.halfSlope
                (a := s.vertexA) (b := s.vertexB) (c := s.vertexC) hr.2.1 hr.2.2.1 hr.2.2.2.1 hr.2.2.2.2.1 hr.2.2.2.2.2.1 hr.2.2.2.2.2.2).2 w hw
        obtain ⟨ws, h1, h2, h3⟩ := hc
        rw [← h]
        exact ⟨ws, h1, h2, h3⟩
      · cases h
      · cases h
  | span2 =>
    refine .of_carryOut (fun ws hp w hw => ?_) h
    unfold State.planSpan2 at hp
    split at hp
    · cases hp
    · rename_i hf
      rw [Except.ok.injEq] at hp
      rw [← hp] at hw
      have hr := State.span2Fault_none.mp hf
      exact dispatchCells_off (by omega) (by omega) (by omega) (by omega) w hw

end Sys2Proof.Machine
end

