-- ==== Sys2Proof/Laws/Step.lean ====
section
/-! SUPPORT. Everything one step can do, and everything one host operation can do: the inversion lemmas
that the claims about every step cite. -/

namespace Sys2Proof.Machine

/-- Everything the unit's atomic step can do when it answers a next state (10 R20, 60 R119). -/
theorem unitStep_next {op : Byte} {s t : State} (h : unitStep op s = .next t) :
    (∃ i u, decode op = .ok i ∧ exec i s = .next u ∧ t = u.complete) ∨
      (∃ e, decode op = .error e ∧ t = (s.raise .illegalCmd).complete) := by
  unfold unitStep at h
  split at h
  · rename_i i hi
    cases he : exec i s with
    | next u =>
      rw [he] at h
      exact .inl ⟨i, u, hi, he, by simpa [completeOutcome] using h.symm⟩
    | fault f => rw [he] at h; cases h
    | refused r => rw [he] at h; cases h
  · rename_i e he
    exact .inr ⟨e, he, by simpa using h.symm⟩

/-- Everything a step can do when it answers a next state: the unit's atomic step on the BUSY command,
or one turn of the host. -/
theorem step_next {s t : State} (h : step s = .next t) :
    s.hazarded = false ∧
      ((∃ op, s.seq = .busy op ∧ s.unitsTurn = true ∧ unitStep op s = .next t) ∨
        ((s.seq = .idle ∨ s.unitsTurn = false) ∧ s.hostTurn = .next t)) := by
  unfold step at h
  cases hz : s.hazarded with
  | true => simp [hz] at h
  | false =>
    refine ⟨rfl, ?_⟩
    simp only [hz, Bool.false_eq_true, if_false] at h
    split at h
    · rename_i hs; exact .inr ⟨.inl hs, h⟩
    · rename_i op hs
      split at h
      · rename_i hu; exact .inl ⟨op, hs, hu, h⟩
      · rename_i hu; exact .inr ⟨.inr (by simpa using hu), h⟩

/-- On the host's turn a step is the host's. -/
theorem step_hostsTurn {s : State} (h : s.hostsTurn) : step s = s.hostTurn := by
  obtain ⟨h1, h2⟩ := h
  unfold step
  rw [h1]
  rcases h2 with h2 | h2
  · simp [h2]
  · cases s.seq <;> simp [h2]

/-- Everything noting the framebuffer region can do (10 R37; log 27). -/
theorem State.noteRegion_cases (s : State) (pos : Nat) :
    (s.mustWait = true ∧ s.regs.placed = false ∧ s.noteRegion pos = s.log .uninit pos) ∨
      (¬(s.mustWait = true ∧ s.regs.placed = false) ∧ s.noteRegion pos = s) := by
  unfold State.noteRegion
  cases hm : s.mustWait <;> cases hp : s.regs.placed <;> simp

/-- Everything a turn of the host can do: nothing, with no operation left; a poll that goes on; one
resolved operation; or the refusal of a memory access that is not plain RAM. -/
theorem hostTurn_cases (s : State) :
    (s.script = [] ∧ s.hostTurn = .next s) ∨
      ∃ op rest, s.script = op :: rest ∧
        ((∃ off v, s.cfg.resolve op = .write off v ∧
            s.hostTurn = .next ((s.taken rest).hostWrite off v s.pos)) ∨
          (∃ off, (s.cfg.resolve op = .read off ∨
              s.cfg.resolve op = .wait ∧ off = 0x01 ∧ (s.inReset = true ∨ s.busy = false)) ∧
            s.hostTurn = .next ((s.taken rest).hostRead off s.pos)) ∨
          (s.cfg.resolve op = .wait ∧ s.inReset = false ∧ s.busy = true ∧ s.hostTurn = .next s.poll) ∨
          (∃ a, (s.cfg.resolve op = .readMem a ∨ ∃ v, s.cfg.resolve op = .writeMem a v) ∧
            s.offRam a = true ∧ s.hostTurn = .refused .notPlainRam) ∨
          (∃ a v, s.cfg.resolve op = .writeMem a v ∧ s.offRam a = false ∧
            s.hostTurn = .next ((s.taken rest).hostWriteMem a v s.pos)) ∨
          (∃ a, s.cfg.resolve op = .readMem a ∧ s.offRam a = false ∧
            s.hostTurn = .next ((s.taken rest).hostReadMem a s.pos)) ∨
          (s.cfg.resolve op = .assertReset ∧ s.hostTurn = (s.taken rest).assertReset) ∨
          (s.cfg.resolve op = .releaseReset ∧
            s.hostTurn = .next { s.taken rest with inReset := false })) := by
  unfold State.hostTurn
  cases hs : s.script with
  | nil => exact .inl ⟨rfl, rfl⟩
  | cons op rest =>
    refine .inr ⟨op, rest, rfl, ?_⟩
    cases hr : s.cfg.resolve op with
    | write off v => exact .inl ⟨off, v, rfl, by simp only [hr]⟩
    | read off => exact .inr (.inl ⟨off, .inl rfl, by simp only [hr]⟩)
    | writeMem a v =>
      cases ho : s.offRam a with
      | true =>
        exact .inr (.inr (.inr (.inl ⟨a, .inr ⟨v, rfl⟩, ho, by simp only [hr, ho, if_true]⟩)))
      | false => exact .inr (.inr (.inr (.inr (.inl ⟨a, v, rfl, ho, by simp [hr, ho]⟩))))
    | readMem a =>
      cases ho : s.offRam a with
      | true => exact .inr (.inr (.inr (.inl ⟨a, .inl rfl, ho, by simp only [hr, ho, if_true]⟩)))
      | false => exact .inr (.inr (.inr (.inr (.inr (.inl ⟨a, rfl, ho, by simp [hr, ho]⟩)))))
    | wait =>
      by_cases hw : s.inReset = true ∨ s.busy = false
      · refine .inr (.inl ⟨0x01, .inr ⟨rfl, rfl, hw⟩, ?_⟩)
        rcases hw with hw | hw <;> simp [hr, hw, Reg.offset]
      · rw [not_or, Bool.not_eq_true, Bool.not_eq_false] at hw
        exact .inr (.inr (.inl ⟨rfl, hw.1, hw.2, by simp [hr, hw]⟩))
    | assertReset => exact .inr (.inr (.inr (.inr (.inr (.inr (.inl ⟨rfl, by simp only [hr]⟩))))))
    | releaseReset => exact .inr (.inr (.inr (.inr (.inr (.inr (.inr ⟨rfl, by simp only [hr]⟩))))))

/-! ### Reset -/

/-- What marking bytes unknown changes: memory, the unknown list and the draws only; both lists keep
their canonical forms, the marked addresses are exactly the new unknown ones, and every other byte
of memory reads as before (70 R146). -/
theorem State.forget_spec (addrs : List Nat) :
    ∀ s : State, (∀ a ∈ addrs, a < 65536) →
      s.forget addrs
          = { s with
              mem := (s.forget addrs).mem
              unknown := (s.forget addrs).unknown
              draws := (s.forget addrs).draws } ∧
        (Mem.wf s.mem = true → Mem.wf (s.forget addrs).mem = true) ∧
        (risingFrom 0 s.unknown = true → risingFrom 0 (s.forget addrs).unknown = true) ∧
        (∀ a, a ∈ (s.forget addrs).unknown ↔ a ∈ addrs ∨ a ∈ s.unknown) ∧
        ∀ a, a ∉ addrs → Mem.read (s.forget addrs).mem a = Mem.read s.mem a := by
  induction addrs with
  | nil => intro s _; exact ⟨rfl, id, id, by simp [State.forget], fun _ _ => rfl⟩
  | cons b addrs ih =>
    intro s hb
    have h := ih { s with
      mem := Mem.write s.mem b (Config.freeByte s.draws)
      unknown := insertAddr b s.unknown
      draws := s.draws + 1 } fun a ha => hb a (List.mem_cons_of_mem _ ha)
    have hb' : b < 65536 := hb b (List.mem_cons_self ..)
    have hf : s.forget (b :: addrs) = State.forget { s with
      mem := Mem.write s.mem b (Config.freeByte s.draws)
      unknown := insertAddr b s.unknown
      draws := s.draws + 1 } addrs := rfl
    rw [hf]
    obtain ⟨h1, h2, h3, h4, h5⟩ := h
    refine ⟨?_, ?_, ?_, ?_, ?_⟩
    · rw [h1]
    · exact fun hm => h2 (Mem.write_wf hb' hm)
    · exact fun hu => h3 (insertAddr_rising (Nat.zero_le b) hu)
    · intro a
      rw [h4, mem_insertAddr, List.mem_cons]
      tauto
    · intro a ha
      rw [List.mem_cons, not_or] at ha
      rw [h5 a ha.2]
      exact Mem.read_write_other ha.1

/-- The cells of an abandoned command are those of a pixel set, if its cell writes lie in the region, each
covers a slot, and together they cover the set's slots (70 R146). -/
theorem abandonsCells_of_cells {s : State} {ws : List CellWrite} {f : Nat → Nat → Bool}
    (ha : s.abandoned = ws) (hm : ∀ w ∈ ws, w.mask ≠ 0) (ho : ∀ w ∈ ws, w.off < 1000)
    (h : ∀ off < 1000, maskAt s.fbbase ws (cellAddr s.fbbase off) = slotsOf f off) :
    AbandonsCells s f := by
  intro a
  rw [ha, written_iff_maskAt hm]
  constructor
  · intro h0
    obtain ⟨w, hw, rfl⟩ := exists_of_maskAt h0
    exact ⟨w.off, ho w hw, by rw [← h _ (ho w hw)]; exact h0, rfl⟩
  · rintro ⟨off, h1, h2, rfl⟩
    rw [h off h1]
    exact h2

/-- The commands that write memory, listed (30 R64). -/
theorem writesMemory_iff (i : Instr) : writesMemory i = true ↔
    i ∈ [Instr.clear, .setpix, .spantop, .spanbot, .spandual, .filltri, .span2] := by
  cases i <;> decide

/-- Everything noting the reads of an abandoned command can do (log 12). -/
theorem State.noteAbandoned_cases (s : State) :
    (¬s.AbandonsUnplaced ∧ s.noteAbandoned = s) ∨
      (s.AbandonsUnplaced ∧ s.noteAbandoned = s.log .uninit s.cmdPos) := by
  by_cases h : s.AbandonsUnplaced
  · refine .inr ⟨h, ?_⟩
    obtain ⟨op, i, hs, hd, hw, d, hm, hu⟩ := h
    simp only [State.noteAbandoned, hs, hd, (writesMemory_iff i).mpr hw, if_true]
    exact State.noteReads_unwritten s _ d hm hu
  · refine .inl ⟨h, ?_⟩
    unfold State.noteAbandoned
    split
    · rfl
    · rename_i op hs
      split
      · rename_i i hd
        split
        · rename_i hw
          exact State.noteReads_allWritten s _ fun d hm => by
            by_contra hc
            exact h ⟨op, i, hs, hd, (writesMemory_iff i).mp hw, d, hm, by simpa using hc⟩
        · rfl
      · rfl

/-- Everything asserting reset can do when it answers a next state (70 R132, R133, R146). -/
theorem State.assertReset_next {s t : State} (h : s.assertReset = .next t) :
    (s.abandoned = [] ∨ s.misplaced = false) ∧
      t = { (s.noteAbandoned.forget (s.abandoned.map fun w => cellAddr s.fbbase w.off)).resetUnit with
            inReset := true } := by
  unfold State.assertReset at h
  split at h
  · cases h
  · rename_i hn
    refine ⟨?_, by simpa using h.symm⟩
    by_cases ha : s.abandoned = []
    · exact .inl ha
    · exact .inr (by simpa [ha] using hn)

end Sys2Proof.Machine
end

