-- ==== Sys2Proof/Laws/PerInstr.lean ====
section
/-! SUPPORT. The statements made per instruction: about a command as syntax. -/

namespace Sys2Proof.Laws.RoundTrip

/-- A command is well formed, its byte decodes to it and is the only byte that does, and the table's
numbering of its bits decodes to it too (30 R59, R61). -/
def Statement (i : Instr) : Prop :=
  i.wellFormed = true ∧ decode (encode i) = .ok i ∧ (∀ b, decode b = .ok i → b = encode i) ∧
    decodeTableWord 8 (encode i).toNat = some i

theorem nop : Statement .nop := by unfold Statement; decide
theorem clrerr : Statement .clrerr := by unfold Statement; decide
theorem mulu8 : Statement .mulu8 := by unfold Statement; decide
theorem muls8 : Statement .muls8 := by unfold Statement; decide
theorem muls8u8 : Statement .muls8u8 := by unfold Statement; decide
theorem muls16u8 : Statement .muls16u8 := by unfold Statement; decide
theorem divfx : Statement .divfx := by unfold Statement; decide
theorem clear : Statement .clear := by unfold Statement; decide
theorem setpix : Statement .setpix := by unfold Statement; decide
theorem getpix : Statement .getpix := by unfold Statement; decide
theorem spantop : Statement .spantop := by unfold Statement; decide
theorem spanbot : Statement .spanbot := by unfold Statement; decide
theorem spandual : Statement .spandual := by unfold Statement; decide
theorem filltri : Statement .filltri := by unfold Statement; decide
theorem span2 : Statement .span2 := by unfold Statement; decide

end Sys2Proof.Laws.RoundTrip
end

