-- ==== Sys2Proof/Certificates/Slice0/Obligations.lean ====
section
/-! DEFINITION. The statements for the provers. Each docstring names the rule of spec/ it formalises. -/

open Sys2Proof Sys2Proof.Machine

/-! ### Encoding -/

/-- 30 R61: the assigned opcodes, and every other byte value is reserved. The table is written out
from the rule. -/
def Obligations.OpcodeMapIsTheTable : Prop :=
  ∀ (b : Byte) (i : Instr), decode b = .ok i ↔
    (b, i) ∈ ([(0x00, .nop), (0x0F, .clrerr), (0x10, .mulu8), (0x11, .muls8), (0x12, .muls8u8),
      (0x13, .muls16u8), (0x14, .divfx), (0x20, .clear), (0x21, .setpix), (0x22, .getpix),
      (0x23, .spantop), (0x24, .spanbot), (0x25, .spandual), (0x30, .filltri), (0x31, .span2)] :
        List (Byte × Instr))

/-- Decode and encode agree on every command, the table's numbering included (30 R59, R61). -/
def Obligations.DecodeOfEncodeIsTheCommand : Prop :=
  ∀ i : Instr, i.wellFormed = true ∧ decode (encode i) = .ok i ∧ decodeBytes [encode i] = .ok i ∧
    decodeTableWord 8 (encode i).toNat = some i

/-- 30 R62 and 60 R119: the reserved byte values raise ILLEGAL_CMD when they execute, with no other
effect and no operand read, and are dropped when written while ERR = 1. (What counts as the position
in the fault record is the model's, log 23.) -/
def Obligations.ReservedBytesRaiseIllegalCommand : Prop :=
  ∀ (s : Machine.State) (op : Byte),
    (0x01 ≤ op.toNat ∧ op.toNat ≤ 0x0E) ∨ (0x15 ≤ op.toNat ∧ op.toNat ≤ 0x1F) ∨
      (0x26 ≤ op.toNat ∧ op.toNat ≤ 0x2F) ∨ 0x32 ≤ op.toNat →
    (∃ e, decode op = .error e) ∧
      unitStep op s
        = .next { s with
            err := true
            errCode := .illegalCmd
            record := s.record ++ [{ kind := .arch .illegalCmd, pos := s.cmdPos }]
            busy := false
            seq := .idle } ∧
      ∀ p, s.err = true → s.issue op p = s

/-- The register map and a script's immediates (10 R16, 30 R66 to R68): the register at each offset is
the one of the table, written out from 10 R16; a well-formed `st`, `stm` or `st16` writes the
two's-complement bytes of its immediate, low byte at the lower offset. -/
def Obligations.ScriptWritesTheBytesOfItsImmediates : Prop :=
  (∀ (r : Reg) (off : Offset),
    (Reg.ofOffset off = some r ↔ off = r.offset) ∧
    (off = r.offset ↔
      (off, r) ∈ ([(0x00, .cmd), (0x01, .status), (0x02, .errCode), (0x03, .triRes),
        (0x04, .data .fbbaseL), (0x05, .data .fbbaseH), (0x06, .data .opaL), (0x07, .data .opaH),
        (0x08, .data .opb), (0x09, .data .color), (0x0A, .res0), (0x0B, .res1), (0x0C, .res2),
        (0x10, .data .p0), (0x11, .data .p1), (0x12, .data .p2), (0x13, .data .p3),
        (0x14, .data .p4), (0x15, .data .p5)] : List (Offset × Reg)))) ∧
    (∀ d : DataReg, (Reg.data d).offset = d.offset) ∧
    (∀ (r : Reg) (v : Int), (Stmt.st r v).wellFormed = true →
      ∃ b : Byte, (Stmt.st r v).encode = [.write r.offset b] ∧ (b.toNat : Int) = v % 256) ∧
    (∀ (a : Addr) (v : Int), (Stmt.stm a v).wellFormed = true →
      ∃ b : Byte, (Stmt.stm a v).encode = [.writeMem a b] ∧ (b.toNat : Int) = v % 256) ∧
    ∀ (r : Reg16) (v : Int), (Stmt.st16 r v).wellFormed = true →
      ∃ lo hi : Byte, (Stmt.st16 r v).encode = [.write r.low.offset lo, .write r.high.offset hi] ∧
        (lo.toNat : Int) = v % 256 ∧ (hi.toNat : Int) = v / 256 % 256 ∧
        r.high.offset = r.low.offset + 1

/-! ### The step -/

/-- A step runs the decoded command: when a command is BUSY and the unit moves next, step is exec of
it, and around exec only BUSY and the sequencer are cleared (10 R20). -/
def Obligations.StepRunsTheBusyCommand : Prop :=
  ∀ (s : Machine.State) (op : Byte) (i : Instr),
    s.hazarded = false → s.seq = .busy op → s.unitsTurn = true → decode op = .ok i →
    i.wellFormed = true ∧
      step s
        = match exec i s with
          | .next t => .next { t with busy := false, seq := .idle }
          | .fault f => .fault f
          | .refused r => .refused r

/-- Placing a command byte makes the very next step run it (10 R17, R20). -/
def Obligations.PlacedCommandIsRunNext : Prop :=
  ∀ (s : Machine.State) (nbits w : Nat) (i : Instr),
    s.hazarded = false → decodeTableWord nbits w = some i →
    step (s.withFetchWord nbits w) = completeOutcome (exec i (s.withFetchWord nbits w))

/-- Every BUSY command completes while the host only waits, after the host turns the free latency
allows and not later, every poll before it having observed STATUS with BUSY = 1 (10 R20, 30 R67,
70 R143). Counting LATENCY in host turns, and a poll as one of them, is the model's choice (log 9,
13). -/
def Obligations.WaitingHostSeesCompletion : Prop :=
  ∀ (s : Machine.State) (op : Byte) (rest : List HostOp),
    s.hazarded = false → s.inReset = false → s.seq = .busy op → s.busy = true →
    s.script = .wait :: rest →
    Host.Core.run Sys2Proof.core (s.turns + 1) s
      = unitStep op
          { s with turns := 0, obs := s.obs ++ List.replicate s.turns (some s.status) }

/-! ### The host interface -/

/-- 10 R19: command issue. While IDLE a write of CMD is dropped when ERR = 1 and it is not CLRERR, and
otherwise sets LASTCMD, BUSY and the sequencer and nothing else of the unit; while BUSY it is a host
hazard, which having no other effect is the model's choice (log 1). -/
def Obligations.CommandIssue : Prop :=
  ∀ (s : Machine.State) (v : Byte) (rest : List HostOp), s.script = .write 0x00 v :: rest →
    (s.hostFree → s.err = true → v ≠ 0x0F →
      step s = .next { s with script := rest, pos := s.pos + 1, turns := s.turns - 1 }) ∧
    (s.hostFree → s.err = false ∨ v = 0x0F →
      ∃ t, step s = .next t ∧
        t = { s with
              lastCmd := v, busy := true, seq := .busy v
              script := rest, pos := s.pos + 1, cmdPos := s.pos, awaiting := true
              turns := t.turns, draws := t.draws }) ∧
    (s.hostsTurn → s.busy = true →
      step s
        = .next { s with
            script := rest, pos := s.pos + 1, turns := s.turns - 1
            record := s.record ++ [{ kind := .hostHazard, pos := s.pos }] })

/-- A host write of a data register's offset changes that byte and its mark only, and every register
then reads as before but this one, which reads back as written (10 R24 to R29, R32). -/
def Obligations.RegisterWriteReadsBack : Prop :=
  ∀ (s : Machine.State) (d : DataReg) (v : Byte) (rest : List HostOp),
    s.hostFree → s.script = .write d.offset v :: rest →
    ∃ t, step s = .next t ∧
      t = { s with regs := t.regs, script := rest, pos := s.pos + 1, turns := s.turns - 1 } ∧
      t.regs.get d = { val := v, written := true } ∧
      (∀ e, e ≠ d → t.regs.get e = s.regs.get e) ∧
      ∀ off, t.readReg off = if off = d.offset then some v else s.readReg off

/-- Multi-byte registers are little endian over adjacent offsets: FBBASE at 0x04 and 0x05, OPA at 0x06
and 0x07, RES at 0x0A to 0x0C (10 R24, R25, R28, R32). Each is read through its offsets, which show
the bytes once they have their written marks (10 R37). -/
def Obligations.LittleEndianRegisters : Prop :=
  ∀ s : Machine.State,
    (s.regs.fbbaseL.written = true → s.regs.fbbaseH.written = true →
      ∃ lo hi : Byte, s.readReg 0x04 = some lo ∧ s.readReg 0x05 = some hi ∧
        s.fbbase.toNat = 256 * hi.toNat + lo.toNat) ∧
    (s.regs.opaL.written = true → s.regs.opaH.written = true →
      ∃ lo hi : Byte, s.readReg 0x06 = some lo ∧ s.readReg 0x07 = some hi ∧
        s.opaS16 % 65536 = 256 * (hi.toNat : Int) + lo.toNat) ∧
    (s.resWritten = true →
      ∃ r0 r1 r2 : Byte, s.readReg 0x0A = some r0 ∧ s.readReg 0x0B = some r1 ∧
        s.readReg 0x0C = some r2 ∧
        s.res.toNat = 65536 * r2.toNat + 256 * r1.toNat + r0.toNat)

/-- 10 R30 and R31: a host write to a read-only register or a reserved offset changes nothing; in every
state a reserved offset reads 0x00 and STATUS bits 7:2 read 0, and a host that may read observes
that. -/
def Obligations.ReadOnlyAndReservedIgnoreWrites : Prop :=
  (∀ (s : Machine.State) (off : Offset) (v : Byte) (rest : List HostOp),
    s.hostFree → s.script = .write off v :: rest →
    off.toNat ∈ [0x01, 0x02, 0x03, 0x0A, 0x0B, 0x0C] ∨
      off.toNat ∈ [0x0D, 0x0E, 0x0F] ∨ 0x16 ≤ off.toNat →
    step s = .next { s with script := rest, pos := s.pos + 1, turns := s.turns - 1 }) ∧
  ∀ (s : Machine.State) (off : Offset),
    (off.toNat ∈ [0x0D, 0x0E, 0x0F] ∨ 0x16 ≤ off.toNat → s.readReg off = some 0x00 ∧
      ∀ rest, s.hostFree → s.script = .read off :: rest →
        step s
          = .next { s with
              script := rest, pos := s.pos + 1, turns := s.turns - 1
              obs := s.obs ++ [some 0x00] }) ∧
    s.status.toNat < 4 ∧ s.readReg 0x01 = some s.status

/-- A host read of a register has no side effect but what the script observes; a read of RES without
its mark observes no value (log 16) and records UNINIT (20 R51, 10 R37). STATUS may be read at any
time out of reset, a command BUSY or its completion unobserved included, and the read that finds
BUSY = 0 is the completion barrier (20 R54, 70 R137). -/
def Obligations.RegisterReadHasNoSideEffect : Prop :=
  (∀ (s : Machine.State) (off : Offset) (rest : List HostOp),
    s.hostFree → s.script = .read off :: rest →
    (s.resWritten = true ∨ off.toNat ∉ [0x0A, 0x0B, 0x0C] →
      step s
        = .next { s with
            script := rest, pos := s.pos + 1, turns := s.turns - 1
            obs := s.obs ++ [s.readReg off] }) ∧
    (s.resWritten = false → off.toNat ∈ [0x0A, 0x0B, 0x0C] →
      step s
        = .next { s with
            script := rest, pos := s.pos + 1, turns := s.turns - 1, obs := s.obs ++ [none]
            record := s.record ++ [{ kind := .uninit, pos := s.pos }] })) ∧
  ∀ (s : Machine.State) (rest : List HostOp),
    s.hostsTurn → s.inReset = false → s.script = .read 0x01 :: rest →
    step s
      = .next { s with
          script := rest, pos := s.pos + 1, turns := s.turns - 1
          obs := s.obs ++ [some s.status]
          awaiting := if s.busy then s.awaiting else false }

/-- Host memory accesses (10 R16, 20 R39, R53, 30 R68, 70 R137). The register window is the 32 addresses
from UNIT_BASE on, and an access there is the register access (log 17). Outside it, where the host may
access memory, a write changes one byte, which becomes known (log 12), and a read observes it: what
plain RAM does (log 5). While a command's completion is awaited that holds outside the framebuffer
region; if FBBASE has no written mark the region is that of the value held, and UNINIT is recorded
(log 27). An address the platform lists as no plain RAM is refused (log 5). -/
def Obligations.HostMemoryAccess : Prop :=
  (∀ (c : Config) (a : Addr) (off : Offset),
    c.windowOffset a = some off ↔ a.toNat = c.unitBase.val + off.toNat) ∧
  (∀ (s : Machine.State) (a : Addr) (off : Offset) (v : Byte) (rest : List HostOp),
    s.hostsTurn → s.cfg.windowOffset a = some off →
    step { s with script := .writeMem a v :: rest } = step { s with script := .write off v :: rest } ∧
    step { s with script := .readMem a :: rest } = step { s with script := .read off :: rest }) ∧
  ∀ (s : Machine.State) (a : Addr) (v : Byte) (rest : List HostOp),
    s.mayAccess a → Mem.wf s.mem = true → s.cfg.windowOffset a = none →
    let noted :=
      if s.mustWait ∧ s.regs.placed = false then s.record ++ [{ kind := .uninit, pos := s.pos }]
      else s.record
    (s.cfg.plainRam a = true → s.script = .writeMem a v :: rest →
      ∃ t, step s = .next t ∧
        t = { s with
              mem := t.mem, unknown := t.unknown, record := noted
              script := rest, pos := s.pos + 1, turns := s.turns - 1 } ∧
        Mem.read t.mem a.toNat = v ∧ a.toNat ∉ t.unknown ∧
        ∀ b, b ≠ a.toNat →
          Mem.read t.mem b = Mem.read s.mem b ∧ (b ∈ t.unknown ↔ b ∈ s.unknown)) ∧
    (s.cfg.plainRam a = true → s.script = .readMem a :: rest → a.toNat ∉ s.unknown →
      step s
        = .next { s with
            script := rest, pos := s.pos + 1, turns := s.turns - 1, record := noted
            obs := s.obs ++ [some (Mem.read s.mem a.toNat)] }) ∧
    (s.cfg.plainRam a = false → s.script = .writeMem a v :: rest ∨ s.script = .readMem a :: rest →
      step s = .refused .notPlainRam)

/-- The completion wait is a loop of STATUS reads (30 R67, R68): it goes on while BUSY = 1 and ends,
with the completion observed, when BUSY = 0 (20 R54). Each read observes its value (30 R66). That a
read which finds BUSY = 1 leaves the wait in the script, at its position, and takes one host turn is
the model's choice (log 13, 9). -/
def Obligations.WaitEndsAtCompletion : Prop :=
  ∀ (s : Machine.State) (rest : List HostOp),
    s.hostsTurn → s.inReset = false → s.script = .wait :: rest →
    (s.busy = true →
      step s = .next { s with turns := s.turns - 1, obs := s.obs ++ [some s.status] }) ∧
    (s.busy = false →
      step s
        = .next { s with
            script := rest, pos := s.pos + 1, turns := s.turns - 1, awaiting := false
            obs := s.obs ++ [some s.status] })

/-- Host hazards (70 R132, R137, R139, R145): from an accepted command until its completion is observed,
a register write, a register read other than STATUS, and an access to the framebuffer region; while
reset is asserted, every access, a memory access too (log 25). While a byte of FBBASE has no written
mark the framebuffer region is the one at the value held, the model's choice (log 27); a memory access
inside the register window is the register access (log 17). Each is recorded as HOST_HAZARD and does
nothing else, and after one the machine stops (the model's choice, log 1). -/
def Obligations.HostHazardIsRecordedAndStops : Prop :=
  ∀ (s : Machine.State) (op : HostOp) (rest : List HostOp),
    s.hostsTurn → s.script = op :: rest →
    (s.inReset = false ∧ (s.busy = true ∨ s.awaiting = true) ∧
      ((∃ off v, s.cfg.resolve op = .write off v) ∨
        (∃ off, s.cfg.resolve op = .read off ∧ off ≠ 0x01) ∨
        (∃ a v, s.cfg.resolve op = .writeMem a v ∧ inRegion s.fbbase a = true) ∨
        ∃ a, s.cfg.resolve op = .readMem a ∧ inRegion s.fbbase a = true)) ∨
      (s.inReset = true ∧ op ≠ .assertReset ∧ op ≠ .releaseReset) →
    ∃ t, step s = .next t ∧
      t = { s with
            script := rest, pos := s.pos + 1, turns := s.turns - 1, obs := t.obs
            record := s.record ++ [{ kind := .hostHazard, pos := s.pos }] } ∧
      (t.obs = s.obs ∨ t.obs = s.obs ++ [none]) ∧
      step t = .fault .afterHostHazard

/-- A host that keeps its duties (30 R69, 70 R132, R137, R138, R140, R145) never meets a host hazard and
never issues a command the unit cannot run: from a state such a host can be in, every step, the host's
and the unit's, answers a next state that it can be in again; the one other outcome is the refusal of
a memory access that is not plain RAM (log 5). What counts as keeping the duties is in part the model's
choice: the script alone decides (log 29); while a command is pending an unwritten FBBASE allows no
memory access (log 27); and the assertion of reset ends the wait, so that after the release a register
access is no hazard although no `wait` followed the command (log 30). 30 R69 and 70 R137 do not say
that last; log 30 marks it unsafe. That no memory access is allowed under reset is log 25, and that one
inside the register window is the register access is log 17. -/
def Obligations.WellFormedScriptNeverHazards : Prop :=
  ∀ (s : Machine.State) (d : HostDuty), s.Keeps d →
    (∃ t d', step s = .next t ∧ t.Keeps d') ∨
      (step s = .refused .notPlainRam ∧
        ∃ op rest a, s.script = op :: rest ∧ s.cfg.plainRam a = false ∧
          (s.cfg.resolve op = .readMem a ∨ ∃ v, s.cfg.resolve op = .writeMem a v))

/-- What the host reads from the four control registers: LASTCMD; STATUS with BUSY in bit 0, ERR in
bit 1 and 0 in bits 7:2; ERRCODE with the codes of 60 R118; TRIRES with the values of 10 R23
(10 R18, R21, R22, R23). -/
def Obligations.ControlRegistersReadAsTheTables : Prop :=
  ∀ s : Machine.State,
    s.readReg 0x00 = some s.lastCmd ∧
    (∃ v, s.readReg 0x01 = some v ∧ (v.toNat % 2 = 1 ↔ s.busy = true) ∧
      (v.toNat / 2 % 2 = 1 ↔ s.err = true) ∧ v.toNat / 4 = 0) ∧
    (∀ v, s.readReg 0x02 = some v ↔
      (s.errCode, v) ∈ ([(.none, 0x00), (.illegalCmd, 0x01), (.divZero, 0x02), (.badColor, 0x03),
        (.range, 0x04), (.parity, 0x05)] : List (FaultCode × Byte))) ∧
    ∀ v, s.readReg 0x03 = some v ↔
      (s.triRes, v) ∈ ([(.drawn, 0x00), (.culled, 0x01), (.zeroHeight, 0x02), (.noneYet, 0xFF)] :
        List (TriRes × Byte))

/-! ### Reset -/

/-- The state at launch: what 10 R36 and 70 R133 give, every data register and RES without its written
mark and the fault record empty. That HALF_SLOPE is ASR is the spec's default (log 8); that a data
register without its mark reads as no value, the last clause, is the model's choice (log 16). -/
def Obligations.LaunchState : Prop :=
  State.reset.seq = .idle ∧ State.reset.lastCmd = 0x00 ∧ State.reset.status = 0x00 ∧
    State.reset.errCode.byte = 0x00 ∧ State.reset.triRes.byte = 0xFF ∧
    (∀ d, (State.reset.regs.get d).written = false) ∧ State.reset.resWritten = false ∧
    State.reset.record = [] ∧ State.reset.cfg.halfSlope = .asr ∧
    State.reset.readReg 0x00 = some 0x00 ∧ State.reset.readReg 0x01 = some 0x00 ∧
    State.reset.readReg 0x02 = some 0x00 ∧ State.reset.readReg 0x03 = some 0xFF ∧
    ∀ d : DataReg, State.reset.readReg d.offset = none

/-- Asserting reset at any time, a BUSY command included: the unit's state is that of 70 R133, and every
byte of memory outside the abandoned command's cells is unchanged; those cells are unknown afterwards
(70 R132, R133, R146). That the state is taken at the assertion and held until the release, which only
ends it, is log 22. The record is kept; when the abandoned command draws and reads a register without
its mark, its cells are those of the values held and UNINIT is recorded, the model's choice
(log 12). The cells are written out for every command byte (20 R48, 70 R146): for a drawing command
whose operands are legal the cell bytes of its pixel set, and none for a command that would fault, for
one without a pixel and for every other byte. That the completion is awaited no longer is the model's
choice (log 30), and so is a next state over a misplaced framebuffer for a command without cells,
GETPIX among them, and for a region at the value an unmarked FBBASE holds (log 6). -/
def Obligations.ResetAbandonsTheCommand : Prop :=
  (∀ (s : Machine.State) (rest : List HostOp),
    s.hostsTurn → s.script = .assertReset :: rest →
    s.abandoned = [] ∨ s.misplaced = false →
    ∃ t, step s = .next t ∧
      t = { s with
            seq := .idle, lastCmd := 0x00, busy := false, err := false, errCode := .none
            triRes := .noneYet, regs := t.regs, res := t.res, resWritten := false, edge := t.edge
            mem := t.mem, unknown := t.unknown, inReset := true, script := rest, pos := s.pos + 1
            awaiting := false, turns := 0, draws := t.draws, record := t.record } ∧
      (∀ d, (t.regs.get d).written = false) ∧
      (∀ a, a ∈ t.unknown ↔
        (∃ w ∈ s.abandoned, cellAddr s.fbbase w.off = a) ∨ a ∈ s.unknown) ∧
      (∀ a, (∀ w ∈ s.abandoned, cellAddr s.fbbase w.off ≠ a) →
        Mem.read t.mem a = Mem.read s.mem a) ∧
      (s.seq = .idle → t.mem = s.mem) ∧
      (¬s.AbandonsUnplaced → t.record = s.record) ∧
      (s.AbandonsUnplaced → t.record = s.record ++ [{ kind := .uninit, pos := s.cmdPos }])) ∧
  (∀ s : Machine.State,
    (s.seq = .busy 0x20 →
      (s.color ≤ 3 → AbandonsCells s fun x y => decide (x < 80) && decide (y < 50)) ∧
      (3 < s.color → s.abandoned = [])) ∧
    (s.seq = .busy 0x21 →
      (s.color ≤ 3 → s.p0 < 80 → s.p1 < 50 →
        AbandonsCells s fun x y => decide (x = s.p0) && decide (y = s.p1)) ∧
      (3 < s.color ∨ 80 ≤ s.p0 ∨ 50 ≤ s.p1 → s.abandoned = [])) ∧
    (s.seq = .busy 0x23 →
      (spanLegal s 0 → AbandonsCells s (inRow s.p1 s.p0 s.p2)) ∧
      (¬spanLegal s 0 → s.abandoned = [])) ∧
    (s.seq = .busy 0x24 →
      (spanLegal s 1 → AbandonsCells s (inRow s.p1 s.p0 s.p2)) ∧
      (¬spanLegal s 1 → s.abandoned = [])) ∧
    (s.seq = .busy 0x25 →
      (spanLegal s 0 → AbandonsCells s fun x y =>
        inRow s.p1 s.p0 s.p2 x y || inRow (s.p1 + 1) s.p0 s.p2 x y) ∧
      (¬spanLegal s 0 → s.abandoned = [])) ∧
    (s.seq = .busy 0x31 →
      (spanLegal s 0 → s.p4 ≤ 80 → s.p5 ≤ 80 → AbandonsCells s fun x y =>
        inRow s.p1 s.p0 s.p2 x y || inRow (s.p1 + 1) s.p4 s.p5 x y) ∧
      (¬spanLegal s 0 ∨ 80 < s.p4 ∨ 80 < s.p5 → s.abandoned = [])) ∧
    (s.seq = .busy 0x30 →
      (fillLegal s → 0 < signedArea s.vertexA s.vertexB s.vertexC →
        AbandonsCells s (inTriangle s.cfg.halfSlope s.vertexA s.vertexB s.vertexC)) ∧
      (¬fillLegal s ∨ signedArea s.vertexA s.vertexB s.vertexC ≤ 0 → s.abandoned = [])) ∧
    (s.seq = .idle ∨
        (∃ op, s.seq = .busy op ∧ op ∉ [0x20, 0x21, 0x23, 0x24, 0x25, 0x30, 0x31]) →
      s.abandoned = [])) ∧
  ∀ (s : Machine.State) (rest : List HostOp),
    s.hostsTurn → s.script = .releaseReset :: rest →
    step s
      = .next { s with
          inReset := false, script := rest, pos := s.pos + 1, turns := s.turns - 1 }

/-- A byte that reset left unknown: a host read of it records UNINIT and observes no value; GETPIX of a
pixel in it records UNINIT, and so does the read that SETPIX, SPANTOP or SPANBOT makes to color a part
of it, which leaves it unknown (20 R47, 70 R146; that the entry is an UNINIT is the model's choice,
log 12). A region at the value an unmarked FBBASE holds counts as plain memory (log 6). What the other
drawing commands do to unknown bytes is in their own statements (`DrawsUnknown`). -/
def Obligations.UnknownByteIsRecordedWhenRead : Prop :=
  (∀ (s : Machine.State) (a : Addr) (rest : List HostOp),
    s.mayAccess a → (s.mustWait = true → s.regs.placed = true) →
    s.cfg.windowOffset a = none → s.cfg.plainRam a = true → s.script = .readMem a :: rest →
    a.toNat ∈ s.unknown →
    step s
      = .next { s with
          script := rest, pos := s.pos + 1, turns := s.turns - 1, obs := s.obs ++ [none]
          record := s.record ++ [{ kind := .uninit, pos := s.pos }] }) ∧
  ∀ s : Machine.State, s.misplaced = false →
    (s.p0 < 80 → s.p1 < 50 → s.pixelAddr s.p0 s.p1 ∈ s.unknown →
      (∃ t, exec .getpix s = .next t ∧ { kind := .uninit, pos := s.cmdPos } ∈ t.record) ∧
      (s.color ≤ 3 → ∃ t, exec .setpix s = .next t ∧
        { kind := .uninit, pos := s.cmdPos } ∈ t.record ∧ s.pixelAddr s.p0 s.p1 ∈ t.unknown)) ∧
    ∀ x, s.p0 ≤ x → x < s.p2 → s.pixelAddr x s.p1 ∈ s.unknown →
      (spanLegal s 0 → ∃ t, exec .spantop s = .next t ∧
        { kind := .uninit, pos := s.cmdPos } ∈ t.record ∧ s.pixelAddr x s.p1 ∈ t.unknown) ∧
      (spanLegal s 1 → ∃ t, exec .spanbot s = .next t ∧
        { kind := .uninit, pos := s.cmdPos } ∈ t.record ∧ s.pixelAddr x s.p1 ∈ t.unknown)

/-! ### Control commands -/

/-- 43 R116: NOP does nothing; LASTCMD becomes 0x00 when it is accepted, and it is dropped while
ERR = 1. -/
def Obligations.NopDoesNothing : Prop :=
  decode 0x00 = .ok .nop ∧ ∀ (s : Machine.State) (p : Nat), exec .nop s = .next s ∧
    (s.err = false → (s.issue (encode .nop) p).lastCmd = 0x00 ∧
      (s.issue (encode .nop) p).seq = .busy 0x00) ∧
    (s.err = true → s.issue (encode .nop) p = s)

/-- 43 R117: CLRERR clears ERR and ERRCODE and nothing else, is the only byte accepted while ERR = 1,
and with ERR = 0 changes nothing. The record keeps its entries. -/
def Obligations.ClrerrClearsTheErrorState : Prop :=
  decode 0x0F = .ok .clrerr ∧ ∀ (s : Machine.State) (p : Nat),
    exec .clrerr s = .next { s with err := false, errCode := .none } ∧
    (s.issue (encode .clrerr) p).seq = .busy 0x0F ∧
    (∀ v, s.err = true → v ≠ 0x0F → s.issue v p = s) ∧
    (s.Inv → s.err = false → exec .clrerr s = .next s)

/-! ### Arithmetic commands -/

/-- 40 R72: MULU8 writes the exact unsigned product; RES2 is 0x00; nothing else changes. -/
def Obligations.Mulu8WritesTheExactProduct : Prop :=
  decode 0x10 = .ok .mulu8 ∧ ∀ s : Machine.State, ∃ t, exec .mulu8 s = .next t ∧
    WritesOnlyRes s t .mulu8 ∧
    t.res.toInt = (s.regs.opaL.val.toNat : Int) * s.regs.opb.val.toNat ∧
    t.res.extractLsb' 16 8 = 0

/-- 40 R73: MULS8 writes the exact signed product; nothing else changes. -/
def Obligations.Muls8WritesTheExactProduct : Prop :=
  decode 0x11 = .ok .muls8 ∧ ∀ s : Machine.State, ∃ t, exec .muls8 s = .next t ∧
    WritesOnlyRes s t .muls8 ∧
    t.res.toInt = s.regs.opaL.val.toInt * s.regs.opb.val.toInt ∧
    -16256 ≤ t.res.toInt ∧ t.res.toInt ≤ 16384

/-- 40 R74: MULS8U8 writes the exact product of signed OPA_L and unsigned OPB; nothing else
changes. -/
def Obligations.Muls8u8WritesTheExactProduct : Prop :=
  decode 0x12 = .ok .muls8u8 ∧ ∀ s : Machine.State, ∃ t, exec .muls8u8 s = .next t ∧
    WritesOnlyRes s t .muls8u8 ∧
    t.res.toInt = s.regs.opaL.val.toInt * (s.regs.opb.val.toNat : Int) ∧
    -32640 ≤ t.res.toInt ∧ t.res.toInt ≤ 32385

/-- 40 R75: MULS16U8 writes the exact product of signed OPA and unsigned OPB; RES2 is the floor of the
product over 65536; nothing else changes. -/
def Obligations.Muls16u8WritesTheExactProduct : Prop :=
  decode 0x13 = .ok .muls16u8 ∧ ∀ s : Machine.State, ∃ t, exec .muls16u8 s = .next t ∧
    WritesOnlyRes s t .muls16u8 ∧
    t.res.toInt
      = (s.regs.opaH.val ++ s.regs.opaL.val : BitVec 16).toInt * (s.regs.opb.val.toNat : Int) ∧
    -8355840 ≤ t.res.toInt ∧ t.res.toInt ≤ 8355585 ∧
    (t.res.extractLsb' 16 8).toInt = t.res.toInt / 65536

/-- 40 R76: DIVFX raises DIV_ZERO on a zero divisor, RES unchanged, and otherwise writes the quotient
of 256 d by v truncated toward zero; nothing else changes. -/
def Obligations.DivfxWritesTheTruncatedQuotient : Prop :=
  decode 0x14 = .ok .divfx ∧ ∀ s : Machine.State,
    (s.regs.opb.val = 0 → exec .divfx s = raised s .divfx .divZero) ∧
    (s.regs.opb.val ≠ 0 → ∃ t, exec .divfx s = .next t ∧ WritesOnlyRes s t .divfx ∧
      t.res.toInt = Int.tdiv (s.regs.opaL.val.toInt * 256) s.regs.opb.val.toNat)

/-- 40 R78: the divide laws. The quotient has the sign of the dividend, its magnitude is the floor of
the magnitudes' quotient, the fraction byte is the non-negative remainder modulo 256, and the
integer byte is the truncated quotient, less one exactly when the dividend is negative and not
divisible. -/
def Obligations.DivfxSignAndByteLaws : Prop :=
  ∀ s t : Machine.State, s.regs.opb.val ≠ 0 → exec .divfx s = .next t →
    let d := s.regs.opaL.val.toInt
    let v : Int := s.regs.opb.val.toNat
    let q := t.res.toInt
    (0 < q → 0 < d) ∧ (q < 0 → d < 0) ∧
      (q.natAbs : Int) = 256 * (d.natAbs : Int) / v ∧
      ((t.res.extractLsb' 0 8).toNat : Int) = q % 256 ∧
      ((t.res.extractLsb' 8 8).toNat : Int) = q / 256 % 256 ∧
      (0 ≤ d ∨ v ∣ d → ((t.res.extractLsb' 8 8).toNat : Int) = Int.tdiv d v % 256) ∧
      (d < 0 → ¬v ∣ d → ((t.res.extractLsb' 8 8).toNat : Int) = (Int.tdiv d v - 1) % 256)

/-- 40 R79: DIVFX never overflows 16 bits: the quotient lies in -32768..32512 and the 8.8 field
RES[15:0] holds it, for every dividend and every non-zero divisor. -/
def Obligations.DivfxNeverOverflows : Prop :=
  ∀ s t : Machine.State, s.regs.opb.val ≠ 0 → exec .divfx s = .next t →
    -32768 ≤ t.res.toInt ∧ t.res.toInt ≤ 32512 ∧
      (t.res.extractLsb' 0 16).toInt
        = Int.tdiv (s.regs.opaL.val.toInt * 256) s.regs.opb.val.toNat

/-- Multiplication is commutative for MULU8 and MULS8: swapping OPA_L and OPB gives the same RES
(40 R77). -/
def Obligations.SymmetricMultipliesCommute : Prop :=
  ∀ (s s' t t' : Machine.State) (i : Instr), i = .mulu8 ∨ i = .muls8 →
    s'.regs.opaL = s.regs.opb → s'.regs.opb = s.regs.opaL →
    exec i s = .next t → exec i s' = .next t' → t'.res = t.res

/-- The frame of the arithmetic family, over the whole state (40 R71, R76): nothing changes but RES and
its written mark, the record, and with DIVFX's fault ERR and ERRCODE; without the fault RES gets its
mark and the record at most the UNINIT of the registers read (10 R37), and with it RES and its mark
are left. -/
def Obligations.ArithmeticChangesOnlyRes : Prop :=
  ∀ (s t : Machine.State) (i : Instr),
    i ∈ [Instr.mulu8, .muls8, .muls8u8, .muls16u8, .divfx] → exec i s = .next t →
    t = { s with
          res := t.res, resWritten := t.resWritten, err := t.err, errCode := t.errCode
          record := t.record } ∧
      (i ≠ .divfx ∨ s.regs.opb.val ≠ 0 → WritesOnlyRes s t i) ∧
      (i = .divfx → s.regs.opb.val = 0 →
        t.res = s.res ∧ t.resWritten = s.resWritten ∧ t.err = true ∧ t.errCode = .divZero)

/-! ### Framebuffer commands -/

/-- CLEAR raises BAD_COLOR above 3, and otherwise colors all 4000 pixels and nothing else (41 R82). That a
byte a reset left unknown is known afterwards is the model's choice (log 12), and so is the region at
the value an unmarked FBBASE holds (log 6). -/
def Obligations.ClearColorsEveryPixel : Prop :=
  decode 0x20 = .ok .clear ∧ ∀ s : Machine.State,
    (3 < s.color → exec .clear s = raised s .clear .badColor) ∧
    (s.color ≤ 3 → s.misplaced = false → Mem.wf s.mem = true →
      ∃ t, exec .clear s = .next t ∧
        Draws s t .clear (fun x y => decide (x < 80) && decide (y < 50)) ∧
        ∀ off < 1000,
          (Mem.read t.mem (cellAddr s.fbbase off)).toNat = s.regs.color.val.toNat * 0x55 ∧
            cellAddr s.fbbase off ∉ t.unknown)

/-- SETPIX raises BAD_COLOR above 3 even out of range, colors one pixel in range, and out of range makes no
access (41 R83). What it does to a byte left unknown is the model's choice (`DrawsUnknown`, log 12), and
so are its completing out of range over a misplaced framebuffer and the region at the value an unmarked
FBBASE holds (log 6). -/
def Obligations.SetpixColorsOnePixel : Prop :=
  decode 0x21 = .ok .setpix ∧ ∀ s : Machine.State,
    (3 < s.color → exec .setpix s = raised s .setpix .badColor) ∧
    (s.color ≤ 3 → s.p0 < 80 → s.p1 < 50 → s.misplaced = false → Mem.wf s.mem = true →
      ∃ t, exec .setpix s = .next t ∧
        Draws s t .setpix fun x y => decide (x = s.p0) && decide (y = s.p1)) ∧
    (s.color ≤ 3 → 80 ≤ s.p0 ∨ 50 ≤ s.p1 →
      exec .setpix s = .next (s.noteReads (readSet .setpix)))

/-- GETPIX writes the pixel's value to RES, 0 out of range without an access, and changes nothing else;
RES1 and RES2 are 0x00 (41 R84). That RES takes the free value held where the byte is one a reset left
unknown is the model's choice (log 12), and so are its completing out of range over a misplaced
framebuffer and the region at the value an unmarked FBBASE holds (log 6). -/
def Obligations.GetpixReadsOnePixel : Prop :=
  decode 0x22 = .ok .getpix ∧ ∀ s : Machine.State,
    (s.p0 < 80 ∧ s.p1 < 50 → s.misplaced = false) →
    ∃ t, exec .getpix s = .next t ∧
      t = { s with res := t.res, resWritten := true, record := t.record } ∧
      (s.p0 < 80 → s.p1 < 50 →
        t.res.toNat
          = (Mem.read s.mem (cellAddr s.fbbase (s.p1 / 2 * 40 + s.p0 / 2))).toNat
              / 2 ^ (6 - 2 * (2 * (s.p1 % 2) + s.p0 % 2)) % 4) ∧
      (80 ≤ s.p0 ∨ 50 ≤ s.p1 → t.res = 0) ∧
      QuietRecord s t .getpix

/-- SPANTOP checks its operands in order and colors Row(y, xl, xr) of an even y (41 R85). What it does to
a byte left unknown is the model's choice (`DrawsUnknown`, log 12), and so are an empty interval's
completing over a misplaced framebuffer and the region at the value an unmarked FBBASE holds
(log 6). -/
def Obligations.SpantopColorsTheTopRow : Prop :=
  decode 0x23 = .ok .spantop ∧ ∀ s : Machine.State, SpanChecked s .spantop 0 ∧
    (spanLegal s 0 → (s.p0 < s.p2 → s.misplaced = false) → Mem.wf s.mem = true →
      ∃ t, exec .spantop s = .next t ∧ Draws s t .spantop (inRow s.p1 s.p0 s.p2))

/-- SPANBOT checks its operands in order and colors Row(y, xl, xr) of an odd y (41 R86). Unknown bytes and
misplaced or unmarked placements are as for SPANTOP, the model's choices (log 12, log 6). -/
def Obligations.SpanbotColorsTheBottomRow : Prop :=
  decode 0x24 = .ok .spanbot ∧ ∀ s : Machine.State, SpanChecked s .spanbot 1 ∧
    (spanLegal s 1 → (s.p0 < s.p2 → s.misplaced = false) → Mem.wf s.mem = true →
      ∃ t, exec .spanbot s = .next t ∧ Draws s t .spanbot (inRow s.p1 s.p0 s.p2))

/-- SPANDUAL checks its operands in order and colors Row(y, xl, xr) and Row(y + 1, xl, xr) of an even y
(41 R87). Unknown bytes and misplaced or unmarked placements are as for SPANTOP, the model's choices
(log 12, log 6). -/
def Obligations.SpandualColorsBothRows : Prop :=
  decode 0x25 = .ok .spandual ∧ ∀ s : Machine.State, SpanChecked s .spandual 0 ∧
    (spanLegal s 0 → (s.p0 < s.p2 → s.misplaced = false) → Mem.wf s.mem = true →
      ∃ t, exec .spandual s = .next t ∧
        Draws s t .spandual fun x y =>
          inRow s.p1 s.p0 s.p2 x y || inRow (s.p1 + 1) s.p0 s.p2 x y)

/-- A span command with legal operands and an empty interval makes no access and changes nothing
(41 R89). That it does so wherever the framebuffer lies, a placement that 70 R140 forbids included, is
the model's choice (log 6). -/
def Obligations.EmptySpanMakesNoAccess : Prop :=
  ∀ s : Machine.State, s.p2 ≤ s.p0 →
    (spanLegal s 0 → exec .spantop s = .next (s.noteReads (readSet .spantop)) ∧
      exec .spandual s = .next (s.noteReads (readSet .spandual))) ∧
    (spanLegal s 1 → exec .spanbot s = .next (s.noteReads (readSet .spanbot)))

/-- The composition laws of pixel-set writes (41 R90 (c), (d)): the top row and the bottom row, in
either order, are the dual write; a dual write splits at any point. -/
def Obligations.DualWriteIsBothRows : Prop :=
  ∀ (base : Addr) (cc : Byte) (m : List Host.Cell) (y xl xm xr : Nat),
    Mem.wf m = true → y < 50 → y % 2 = 0 → xr ≤ 80 →
    writeCells base cc (writeCells base cc m (rowCells y xl xr)) (rowCells (y + 1) xl xr)
        = writeCells base cc m (dualCells y xl xr) ∧
    writeCells base cc (writeCells base cc m (rowCells (y + 1) xl xr)) (rowCells y xl xr)
        = writeCells base cc m (dualCells y xl xr) ∧
    (xl ≤ xm → xm ≤ xr →
      writeCells base cc (writeCells base cc m (dualCells y xl xm)) (dualCells y xm xr)
        = writeCells base cc m (dualCells y xl xr))

/-! ### Rasterizer commands -/

/-- The dispatch law (42 R106): for every even y of the grid and every two intervals of the grid the
dispatch leaves the same memory as the two rows written one after the other, with at most three
sub-calls. -/
def Obligations.DispatchEqualsTwoRows : Prop :=
  ∀ (base : Addr) (cc : Byte) (m : List Host.Cell) (y l1 r1 l2 r2 : Nat),
    Mem.wf m = true → y < 50 → y % 2 = 0 → r1 ≤ 80 → r2 ≤ 80 →
    writeCells base cc m (dispatchCells y l1 r1 l2 r2)
        = writeCells base cc (writeCells base cc m (rowCells y l1 r1)) (rowCells (y + 1) l2 r2) ∧
      (dispatchCalls l1 r1 l2 r2).length ≤ 3

/-- SPAN2 checks BAD_COLOR, RANGE, PARITY in that order and colors `[xl1, xr1)` of row y and `[xl2, xr2)`
of row y + 1, with no swap (42 R107). What it does to a byte left unknown is the model's choice
(`DrawsUnknown`, log 12), and so are its completing with both intervals empty over a misplaced
framebuffer and the region at the value an unmarked FBBASE holds (log 6). -/
def Obligations.Span2ColorsTwoIntervals : Prop :=
  decode 0x31 = .ok .span2 ∧ ∀ s : Machine.State,
    (3 < s.color → exec .span2 s = raised s .span2 .badColor) ∧
    (s.color ≤ 3 → 49 < s.p1 ∨ 80 < s.p0 ∨ 80 < s.p2 ∨ 80 < s.p4 ∨ 80 < s.p5 →
      exec .span2 s = raised s .span2 .range) ∧
    (s.color ≤ 3 → s.p1 ≤ 49 → s.p0 ≤ 80 → s.p2 ≤ 80 → s.p4 ≤ 80 → s.p5 ≤ 80 →
      (s.p1 % 2 = 1 → exec .span2 s = raised s .span2 .parity) ∧
      (s.p1 % 2 = 0 → (s.p0 < s.p2 ∨ s.p4 < s.p5 → s.misplaced = false) →
        Mem.wf s.mem = true →
        ∃ t, exec .span2 s = .next t ∧
          Draws s t .span2 fun x y =>
            inRow s.p1 s.p0 s.p2 x y || inRow (s.p1 + 1) s.p4 s.p5 x y))

/-- 42 R92: FILLTRI checks BAD_COLOR, then RANGE, before any other action; a fault leaves TRIRES,
memory and everything else unchanged, even for a triangle that would be culled. -/
def Obligations.FilltriChecksItsOperands : Prop :=
  ∀ s : Machine.State,
    (3 < s.color → exec .filltri s = raised s .filltri .badColor) ∧
    (s.color ≤ 3 → 79 < s.p0 ∨ 79 < s.p2 ∨ 79 < s.p4 ∨ 49 < s.p1 ∨ 49 < s.p3 ∨ 49 < s.p5 →
      exec .filltri s = raised s .filltri .range)

/-- The signed area has a magnitude of at most 7742, and a triangle with a signed area of 0 or less is
discarded: TRIRES 0x01 and no memory access (42 R94). That it is so wherever the framebuffer lies, a
placement that 70 R140 forbids included, is the model's choice (log 6). -/
def Obligations.FilltriCullsNonPositiveArea : Prop :=
  ∀ s : Machine.State, fillLegal s →
    let det : Int :=
      ((s.p2 : Int) - s.p0) * ((s.p5 : Int) - s.p1) - ((s.p3 : Int) - s.p1) * ((s.p4 : Int) - s.p0)
    det.natAbs ≤ 7742 ∧
      (det ≤ 0 →
        ∃ t, exec .filltri s = .next t ∧ t.triRes.byte = 0x01 ∧
          t = { s with
                triRes := t.triRes, edge := t.edge, draws := t.draws
                record := (s.noteReads (readSet .filltri)).record })

/-- FILLTRI's final state (42 R93, R102, R103, R106): a triangle with a positive area is walked; memory
is WritePixels of the pixels `l_y <= x < r_y` of the closed-form interval of each walked scanline,
TRIRES is 0x00, and nothing else but the hidden edge state changes. What the closed form is in numbers
is FilltriRowsStayOnTheGrid. What becomes of a byte left unknown, known where wholly covered and
recorded as UNINIT where covered in part, is the model's choice (`DrawsUnknown`, log 12), and so are a
triangle without a pixel's completing over a misplaced framebuffer and the region at the value an
unmarked FBBASE holds (log 6). -/
def Obligations.FilltriColorsItsRows : Prop :=
  ∀ s : Machine.State, fillLegal s → 0 < signedArea s.vertexA s.vertexB s.vertexC →
    ((∃ x y, inTriangle s.cfg.halfSlope s.vertexA s.vertexB s.vertexC x y = true) →
      s.misplaced = false) →
    Mem.wf s.mem = true →
    ∃ t, exec .filltri s = .next t ∧ t.triRes.byte = 0x00 ∧
      t = { s with
            mem := t.mem, unknown := t.unknown, triRes := t.triRes, edge := t.edge
            draws := t.draws, record := t.record } ∧
      DrawsMemory s t .filltri (inTriangle s.cfg.halfSlope s.vertexA s.vertexB s.vertexC)

/-- Slopes, positions and intervals in numbers. For vertices of the grid an edge's slope is 256 dx / dy
truncated toward zero (42 R98), and its first position is 256 x plus half the slope, rounded as
HALF_SLOPE says (42 R99 to R101). On every walked row of a triangle the position is the first one
plus the slope once per row passed (42 R102), the two interval ends are the integer parts of the two
positions, in order (42 R103), positions lie in 0..0x4F00 and ends in 0..79, so column 79 is never
drawn (42 R110). -/
def Obligations.FilltriRowsStayOnTheGrid : Prop :=
  (∀ p q : Vertex, p.x.toNat ≤ 79 → q.x.toNat ≤ 79 → p.y.toNat ≤ 49 → q.y.toNat ≤ 49 →
    p.y.toNat < q.y.toNat →
    (edgeSlope p q).toInt
        = Int.tdiv (256 * ((q.x.toNat : Int) - p.x.toNat)) ((q.y.toNat : Int) - p.y.toNat) ∧
      (edgeStart .asr p (edgeSlope p q)).toInt
        = 256 * (p.x.toNat : Int) + Int.fdiv (edgeSlope p q).toInt 2 ∧
      (edgeStart .trunc p (edgeSlope p q)).toInt
        = 256 * (p.x.toNat : Int) + Int.tdiv (edgeSlope p q).toInt 2) ∧
  ∀ (h : HalfSlope) (a b c : Vertex) (y : Nat),
    a.x.toNat ≤ 79 → b.x.toNat ≤ 79 → c.x.toNat ≤ 79 →
    a.y.toNat ≤ 49 → b.y.toNat ≤ 49 → c.y.toNat ≤ 49 → walked a b c y = true →
    let v := sort3 a b c
    let p := if y < v.2.1.y.toNat then v.1 else v.2.1
    let q := if y < v.2.1.y.toNat then v.2.1 else v.2.2.1
    let long := (longPos h v.1 v.2.2.1 y).toNat
    let short := (shortPos h p q y).toNat
    p.y.toNat ≤ y ∧ y < q.y.toNat ∧
      (long : Int)
        = (edgeStart h v.1 (edgeSlope v.1 v.2.2.1)).toInt
            + (y - v.1.y.toNat) * (edgeSlope v.1 v.2.2.1).toInt ∧
      (short : Int)
        = (edgeStart h p (edgeSlope p q)).toInt + (y - p.y.toNat) * (edgeSlope p q).toInt ∧
      long ≤ 0x4F00 ∧ short ≤ 0x4F00 ∧
      fillRow h a b c y = (min (long / 256) (short / 256), max (long / 256) (short / 256)) ∧
      (fillRow h a b c y).2 ≤ 79 ∧
      y < max a.y.toNat (max b.y.toNat c.y.toNat) ∧ min a.y.toNat (min b.y.toNat c.y.toNat) ≤ y ∧
      inTriangle h a b c 79 y = false

/-- The sorting network (42 R95), its result written out for each order of the three y: the vertices rise
in y, those with equal y keep their order, and PAR is the parity of the permutation. -/
def Obligations.SortRisesAndTracksParity : Prop :=
  ∀ a b c : Vertex,
    let ay := a.y.toNat
    let byy := b.y.toNat
    let cy := c.y.toNat
    (ay ≤ byy → byy ≤ cy → sort3 a b c = (a, b, c, false)) ∧
      (ay ≤ cy → cy < byy → sort3 a b c = (a, c, b, true)) ∧
      (byy < ay → ay ≤ cy → sort3 a b c = (b, a, c, true)) ∧
      (byy ≤ cy → cy < ay → sort3 a b c = (b, c, a, false)) ∧
      (cy < ay → ay ≤ byy → sort3 a b c = (c, a, b, false)) ∧
      (cy < byy → byy < ay → sort3 a b c = (c, b, a, true)) ∧
      (sort3 a b c).1.y.toNat ≤ (sort3 a b c).2.1.y.toNat ∧
      (sort3 a b c).2.1.y.toNat ≤ (sort3 a b c).2.2.1.y.toNat

/-- Vertex order (42 R108): a rotation of the vertices gives the same area, the same walked rows and
the same interval on every one of them. -/
def Obligations.RotationDrawsTheSameRows : Prop :=
  ∀ (h : HalfSlope) (a b c : Vertex) (y : Nat),
    signedArea b c a = signedArea a b c ∧ walked b c a y = walked a b c y ∧
      (walked a b c y = true → fillRow h b c a y = fillRow h a b c y)

/-! ### Whole-machine rules -/

/-- Faults are precise (60 R121): a command that sets ERR has changed nothing but ERR, ERRCODE and the
fault record, which holds the fault's code and the command's position. -/
def Obligations.FaultsArePrecise : Prop :=
  ∀ (i : Instr) (s t : Machine.State), exec i s = .next t → s.err = false → t.err = true →
    t = { s with err := true, errCode := t.errCode, record := t.record } ∧ t.errCode ≠ .none ∧
      { kind := .arch t.errCode, pos := s.cmdPos } ∈ t.record

/-- 60 R120: which command can raise which fault, and that each can; a reserved byte raises
ILLEGAL_CMD. -/
def Obligations.CommandsRaiseExactlyTheListedFaults : Prop :=
  (∀ (i : Instr) (c : FaultCode),
    (∃ s t, s.err = false ∧ exec i s = .next t ∧ t.err = true ∧ t.errCode = c) ↔
      (i, c) ∈ [(Instr.divfx, FaultCode.divZero), (.clear, .badColor), (.setpix, .badColor),
        (.spantop, .badColor), (.spantop, .range), (.spantop, .parity),
        (.spanbot, .badColor), (.spanbot, .range), (.spanbot, .parity),
        (.spandual, .badColor), (.spandual, .range), (.spandual, .parity),
        (.span2, .badColor), (.span2, .range), (.span2, .parity),
        (.filltri, .badColor), (.filltri, .range)]) ∧
  ∀ (op : Byte) (e : DecodeError) (s : Machine.State), decode op = .error e →
    unitStep op s = .next (s.raise .illegalCmd).complete

/-- The error state is sticky (60 R123): while ERR = 1 every step keeps ERR and ERRCODE, but CLRERR's
own step and the assertion of reset; and only those two clear ERR. -/
def Obligations.ErrorStateIsSticky : Prop :=
  ∀ s t : Machine.State, s.Inv → s.err = true → step s = .next t →
    (t.err = true ∧ t.errCode = s.errCode) ∨
      (t.err = false ∧ t.errCode = .none ∧
        (s.seq = .busy 0x0F ∨ ∃ rest, s.script = .assertReset :: rest))

/-- A misplaced framebuffer is one a host has placed with a byte in the register window or outside plain
RAM (70 R140); a command that would access it is refused (20 R40, 92 D13, 93 I12), and so is a reset
that abandons a command which may have drawn there. That the refusal comes at the access is the model's
choice (log 6), and so is what the platform's list of non-RAM ranges holds (log 5). While a byte of
FBBASE has no written mark no command is refused, wherever the value held points: it computes with that
value and UNINIT is recorded (10 R37; that the region is plain memory then is log 6). -/
def Obligations.MisplacedFramebufferIsRefused : Prop :=
  (∀ s : Machine.State, s.misplaced = true ↔
    s.regs.fbbaseL.written = true ∧ s.regs.fbbaseH.written = true ∧
      ((∃ i < 1000, ∃ k < 32, cellAddr s.fbbase i = s.cfg.unitBase.val + k) ∨
        ∃ i < 1000, ∃ r ∈ s.cfg.notRam, ∃ k < r.size, cellAddr s.fbbase i = cellAddr r.base k)) ∧
  (∀ (c : Config) (a : Addr), c.plainRam a = false ↔
    ∃ r ∈ c.notRam, ∃ k < r.size, a.toNat = cellAddr r.base k) ∧
  (∀ (s : Machine.State) (i : Instr),
    i ∈ [Instr.clear, .setpix, .getpix, .spantop, .spanbot, .spandual, .span2, .filltri] →
    s.regs.fbbaseL.written = false ∨ s.regs.fbbaseH.written = false →
    ∃ t, exec i s = .next t ∧ { kind := .uninit, pos := s.cmdPos } ∈ t.record) ∧
  ∀ s : Machine.State, s.misplaced = true →
    (s.color ≤ 3 → exec .clear s = .refused .framebufferMisplaced) ∧
    (s.color ≤ 3 → s.p0 < 80 → s.p1 < 50 → exec .setpix s = .refused .framebufferMisplaced) ∧
    (s.p0 < 80 → s.p1 < 50 → exec .getpix s = .refused .framebufferMisplaced) ∧
    (spanLegal s 0 → s.p0 < s.p2 →
      exec .spantop s = .refused .framebufferMisplaced ∧
      exec .spandual s = .refused .framebufferMisplaced) ∧
    (spanLegal s 1 → s.p0 < s.p2 → exec .spanbot s = .refused .framebufferMisplaced) ∧
    (spanLegal s 0 → s.p4 ≤ 80 → s.p5 ≤ 80 → s.p0 < s.p2 ∨ s.p4 < s.p5 →
      exec .span2 s = .refused .framebufferMisplaced) ∧
    (fillLegal s → 0 < signedArea s.vertexA s.vertexB s.vertexC →
      (∃ x y, inTriangle s.cfg.halfSlope s.vertexA s.vertexB s.vertexC x y = true) →
      exec .filltri s = .refused .framebufferMisplaced) ∧
    ∀ rest, s.hostsTurn → s.script = .assertReset :: rest → s.abandoned ≠ [] →
      step s = .refused .framebufferMisplaced

/-- Reading an unwritten register (10 R37, 30 R64): the registers a command reads are those of the 'reads'
column of 30 R64, written out, and a command that reads one without its written mark records UNINIT at
its position, whatever path it takes. -/
def Obligations.UnwrittenOperandIsRecorded : Prop :=
  (∀ i : Instr, ∃ ds : List DataReg,
    (i, ds) ∈ ([(.nop, []), (.clrerr, []), (.mulu8, [.opaL, .opb]), (.muls8, [.opaL, .opb]),
      (.muls8u8, [.opaL, .opb]), (.muls16u8, [.opaL, .opaH, .opb]), (.divfx, [.opaL, .opb]),
      (.clear, [.color, .fbbaseL, .fbbaseH]),
      (.setpix, [.color, .p0, .p1, .fbbaseL, .fbbaseH]),
      (.getpix, [.p0, .p1, .fbbaseL, .fbbaseH]),
      (.spantop, [.color, .p0, .p1, .p2, .fbbaseL, .fbbaseH]),
      (.spanbot, [.color, .p0, .p1, .p2, .fbbaseL, .fbbaseH]),
      (.spandual, [.color, .p0, .p1, .p2, .fbbaseL, .fbbaseH]),
      (.span2, [.color, .p0, .p1, .p2, .p4, .p5, .fbbaseL, .fbbaseH]),
      (.filltri, [.color, .p0, .p1, .p2, .p3, .p4, .p5, .fbbaseL, .fbbaseH])] :
        List (Instr × List DataReg)) ∧
    ∀ d, d ∈ readSet i ↔ d ∈ ds) ∧
  ∀ (i : Instr) (s t : Machine.State) (d : DataReg), d ∈ readSet i →
    (s.regs.get d).written = false → exec i s = .next t →
    { kind := .uninit, pos := s.cmdPos } ∈ t.record

/-- The hidden edge state carries nothing from one command to the next (10 R33): whatever it holds,
every command has the same effect on everything else. -/
def Obligations.EdgeStateCarriesNothing : Prop :=
  ∀ (i : Instr) (s : Machine.State) (e : EdgeState),
    (∀ t, exec i s = .next t →
      ∃ t', exec i { s with edge := e } = .next t' ∧ { t' with edge := t.edge } = t) ∧
    (∀ r, exec i s = .refused r → exec i { s with edge := e } = .refused r)

/-- A command reads only the registers of its row, those UnwrittenOperandIsRecorded writes out (00 R13,
30 R64): changing any other data register changes nothing else in what it does. -/
def Obligations.CommandsReadOnlyTheirOperands : Prop :=
  ∀ (i : Instr) (s : Machine.State) (d : DataReg) (x : Tracked), d ∉ readSet i →
    (∀ t, exec i s = .next t →
      exec i { s with regs := s.regs.set d x } = .next { t with regs := t.regs.set d x }) ∧
    (∀ r, exec i s = .refused r → exec i { s with regs := s.regs.set d x } = .refused r)

/-- The unit writes no byte outside the framebuffer region, the commands that access no memory write
none at all, and no command writes a register of the host (20 R40, R42, R48). -/
def Obligations.UnitWritesOnlyTheRegion : Prop :=
  ∀ (i : Instr) (s t : Machine.State), Mem.wf s.mem = true → exec i s = .next t →
    t.regs = s.regs ∧ Mem.wf t.mem = true ∧
      (∀ a : Addr, inRegion s.fbbase a = false → Mem.read t.mem a.toNat = Mem.read s.mem a.toNat) ∧
      (i ∈ [Instr.nop, .clrerr, .mulu8, .muls8, .muls8u8, .muls16u8, .divfx, .getpix] →
        t.mem = s.mem)

/-- RES is written by the arithmetic commands and GETPIX only, TRIRES by FILLTRI only, ERR is cleared
by CLRERR only (10 R23, R28, R35, 30 R64). -/
def Obligations.ResultRegistersAreWrittenByTheirCommandsOnly : Prop :=
  ∀ (i : Instr) (s t : Machine.State), exec i s = .next t →
    (i ∉ [Instr.mulu8, .muls8, .muls8u8, .muls16u8, .divfx, .getpix] →
      t.res = s.res ∧ t.resWritten = s.resWritten) ∧
    (i ≠ .filltri → t.triRes = s.triRes ∧ t.edge = s.edge) ∧
    (i ≠ .clrerr → s.err = true → t.err = true)

/-- No step changes UNIT_BASE, HALF_SLOPE or the platform's memory map. That they are fixed properties is
00 R9's and 30 R65's word for UNIT_BASE and HALF_SLOPE; that they are fields of the state which stay as
they are (log 7, 8), and that the platform's memory map is such a field at all (log 5), is the model's
choice. -/
def Obligations.ParametersNeverChange : Prop :=
  ∀ s t : Machine.State, step s = .next t → t.cfg = s.cfg

/-- No step clears the fault record: every entry stays, in its place (60 R121). -/
def Obligations.FaultRecordOnlyGrows : Prop :=
  ∀ s t : Machine.State, step s = .next t → ∃ l, t.record = s.record ++ l

/-- The invariant holds at launch. -/
def Obligations.LaunchStateMeetsTheInvariant : Prop := State.reset.Inv

/-- Every step keeps the invariant: memory and the unknown list in canonical form, BUSY, the sequencer
and LASTCMD in step, ERRCODE 0x00 exactly while ERR = 0, only CLRERR in execution while ERR = 1, no
command BUSY under reset, and TRIRES never 0x02 (10 R19 to R23, 42 R96, 60 R123, 70 R132). -/
def Obligations.EveryStepKeepsTheInvariant : Prop :=
  ∀ s t : Machine.State, s.Inv → step s = .next t → t.Inv
end

