-- ==== Sys2Proof/Tests/Slice0.lean ====
section
/-! SUPPORT. The model's own tests: the well-formedness smoke, words written out from the spec's
encoding, one step per test with the result the spec gives (95_test_vectors.md), and for every
statement with hypotheses a state that meets them. -/

namespace Sys2Proof.Tests

open Sys2Proof.Machine

/-! ### Small states -/

/-- A register a host write has defined. -/
def known (v : Byte) : Tracked := { val := v, written := true }

/-- OPA and OPB written. -/
def arith (opa : Fixed88) (opb : Byte) : State :=
  { State.reset with
    regs := { DataRegs.reset with
      opaL := known (opa.extractLsb' 0 8)
      opaH := known (opa.extractLsb' 8 8)
      opb := known opb } }

/-- Every data register written, with FBBASE, COLOR and P0 to P5, over a memory. -/
def draw (fb : Addr) (c p0 p1 p2 p3 p4 p5 : Byte) (m : List Host.Cell) : State :=
  { State.reset with
    regs :=
      { fbbaseL := known (fb.extractLsb' 0 8), fbbaseH := known (fb.extractLsb' 8 8)
        opaL := known 0, opaH := known 0, opb := known 0, color := known c
        p0 := known p0, p1 := known p1, p2 := known p2, p3 := known p3, p4 := known p4
        p5 := known p5 }
    mem := m }

/-- A command byte BUSY, its completion awaited. -/
def busyWith (op : Byte) (s : State) : State :=
  { s with seq := .busy op, busy := true, awaiting := true, lastCmd := op }

/-- A host with these operations left, over a state. -/
def hosting (ops : List HostOp) (s : State) : State := { s with script := ops }

/-- The state an outcome leaves, if it is a next state. -/
def left? : Host.Outcome State Fault Refusal → Option State
  | .next s => some s
  | .fault _ => none
  | .refused _ => none

/-- The refusal an outcome is, if it is one. -/
def refusal? : Host.Outcome State Fault Refusal → Option Refusal
  | .next _ => none
  | .fault _ => none
  | .refused r => some r

/-- A platform with a ROM at 0xA000 to 0xBFFF. -/
def withoutRam (s : State) : State :=
  { s with cfg := { s.cfg with notRam := [{ base := 0xA000, size := 0x2000 }] } }

/-- On such a platform, FBBASE holds a value that no host write has marked. -/
def unmarked (fb : Addr) : State :=
  withoutRam { draw fb 3 0 0 1 0 0 0 [] with
    regs := { (draw fb 3 0 0 1 0 0 0 []).regs with
      fbbaseL := { val := fb.extractLsb' 0 8, written := false }
      fbbaseH := { val := fb.extractLsb' 8 8, written := false } } }

/-- RES after a command. -/
def resAfter (i : Instr) (s : State) : Option Res24 := (left? (exec i s)).map State.res

/-- Memory after a command. -/
def memAfter (i : Instr) (s : State) : Option (List Host.Cell) := (left? (exec i s)).map State.mem

/-- STATUS, ERRCODE and memory after a command. -/
def faultAfter (i : Instr) (s : State) : Option (Byte × Byte × List Host.Cell) :=
  (left? (exec i s)).map fun t => (t.status, t.errCode.byte, t.mem)

/-! ### Well-formedness (30 R66, R67, R69) -/

theorem test_wf_st_too_large : (Stmt.st .ax 256).wellFormed = false := by decide
theorem test_wf_st_too_small : (Stmt.st .ax (-129)).wellFormed = false := by decide
theorem test_wf_stm_too_large : (Stmt.stm 0x4000 300).wellFormed = false := by decide
theorem test_wf_st16_fbbase_negative : (Stmt.st16 .fbbase (-1)).wellFormed = false := by decide
theorem test_wf_st16_opa_too_large : (Stmt.st16 .opa 65536).wellFormed = false := by decide
theorem test_wf_st16_opa_too_small : (Stmt.st16 .opa (-32769)).wellFormed = false := by decide

theorem test_wf_limits :
    (Stmt.st .ax 255).wellFormed = true ∧ (Stmt.st .ax (-128)).wellFormed = true ∧
      (Stmt.st16 .opa (-32768)).wellFormed = true ∧ (Stmt.st16 .fbbase 65535).wellFormed = true := by
  decide

/-- After a command comes a wait before any other unit or framebuffer access, and at the end too
(30 R69, 70 R137); memory outside the framebuffer region needs none. -/
theorem test_wf_script_without_wait :
    scriptWellFormed State.reset.cfg .launch [.write 0x00 0x00, .read 0x0A] = false ∧
      scriptWellFormed State.reset.cfg .launch [.write 0x00 0x00, .write 0x09 1, .wait] = false ∧
      scriptWellFormed State.reset.cfg .launch [.write 0x00 0x00] = false ∧
      scriptWellFormed State.reset.cfg .launch
        (encodeScript [.st16 .fbbase 0x4000, .cmd .nop] ++ [.writeMem 0x43E7 1, .wait]) = false ∧
      scriptWellFormed State.reset.cfg .launch
        (encodeScript [.st16 .fbbase 0x4000, .cmd .nop] ++ [.writeMem 0x43E8 1, .read 0x01, .wait])
        = true := by decide

/-- With FBBASE unwritten no memory access may fall between a command and its wait (log 27). -/
theorem test_wf_script_unplaced :
    scriptWellFormed State.reset.cfg .launch [.write 0x00 0x00, .readMem 0x8000, .wait] = false ∧
      scriptWellFormed State.reset.cfg .launch [.write 0x00 0x00, .wait, .readMem 0x8000] = true := by
  decide

/-- Every operand is written before the command (70 R135, R138), each byte of FBBASE too. -/
theorem test_wf_script_operands :
    scriptWellFormed State.reset.cfg .launch
        (encodeScript [.st (.data .opb) 3, .run .mulu8]) = false ∧
      scriptWellFormed State.reset.cfg .launch
        (encodeScript [.st (.data .opb) 3, .st (.data .opaL) 3, .run .mulu8]) = true ∧
      scriptWellFormed State.reset.cfg .launch
        (encodeScript [.st (.data .color) 3, .st (.data .fbbaseL) 0, .run .clear]) = false := by decide

/-- A command that reads FBBASE wants its region clear of the register window and in plain RAM
(70 R140). -/
theorem test_wf_script_placement :
    scriptWellFormed State.reset.cfg .launch
        (encodeScript [.st (.data .color) 3, .st16 .fbbase 0xDE1F, .run .clear]) = false ∧
      scriptWellFormed State.reset.cfg .launch
        (encodeScript [.st (.data .color) 3, .st16 .fbbase 0xDE20, .run .clear]) = true ∧
      scriptWellFormed { State.reset.cfg with notRam := [{ base := 0xE000, size := 0x2000 }] } .launch
        (encodeScript [.st (.data .color) 3, .st16 .fbbase 0xDE20, .run .clear]) = false := by decide

/-- Any access while reset is asserted is ill formed, and reset forgets what was written. -/
theorem test_wf_script_in_reset :
    scriptWellFormed State.reset.cfg .launch [.assertReset, .write 0x09 1] = false ∧
      scriptWellFormed State.reset.cfg .launch [.assertReset, .readMem 0x4000] = false ∧
      scriptWellFormed State.reset.cfg .launch
        ([.write 0x06 1, .write 0x08 1, .assertReset, .releaseReset] ++ encodeScript [.run .mulu8])
        = false ∧
      scriptWellFormed State.reset.cfg .launch
        [.write 0x00 0x00, .assertReset, .releaseReset, .write 0x09 1] = true := by decide

/-- The script of program P1's first four lines is well formed. -/
theorem test_wf_script_p1 :
    scriptWellFormed State.reset.cfg .launch
      (encodeScript [.st16 .opa (-1000), .st (.data .opb) 200, .run .muls16u8, .ld24]) = true := by
  decide

/-! ### Encoding: the words of 30 R60 and R61, FAM and FN written out bit by bit -/

theorem test_decode_control :
    decode (0b0000#4 ++ 0b0000#4) = .ok .nop ∧ decode (0b0000#4 ++ 0b1111#4) = .ok .clrerr := by
  decide

theorem test_decode_arithmetic :
    decode (0b0001#4 ++ 0b0000#4) = .ok .mulu8 ∧ decode (0b0001#4 ++ 0b0001#4) = .ok .muls8 ∧
      decode (0b0001#4 ++ 0b0010#4) = .ok .muls8u8 ∧
      decode (0b0001#4 ++ 0b0011#4) = .ok .muls16u8 ∧
      decode (0b0001#4 ++ 0b0100#4) = .ok .divfx := by decide

theorem test_decode_framebuffer :
    decode (0b0010#4 ++ 0b0000#4) = .ok .clear ∧ decode (0b0010#4 ++ 0b0001#4) = .ok .setpix ∧
      decode (0b0010#4 ++ 0b0010#4) = .ok .getpix ∧
      decode (0b0010#4 ++ 0b0011#4) = .ok .spantop ∧
      decode (0b0010#4 ++ 0b0100#4) = .ok .spanbot ∧
      decode (0b0010#4 ++ 0b0101#4) = .ok .spandual := by decide

theorem test_decode_rasterizer :
    decode (0b0011#4 ++ 0b0000#4) = .ok .filltri ∧ decode (0b0011#4 ++ 0b0001#4) = .ok .span2 := by
  decide

/-- The neighbours of the assigned bytes are reserved (30 R62). -/
theorem test_decode_reserved :
    decode 0x01 = .error (.reserved 0x01) ∧ decode 0x15 = .error (.reserved 0x15) ∧
      decode 0x26 = .error (.reserved 0x26) ∧ decode 0x32 = .error (.reserved 0x32) ∧
      decode 0xFF = .error (.reserved 0xFF) := by decide

/-- A command is one byte (30 R59). -/
theorem test_decode_length :
    decodeBytes [] = .error .length ∧ decodeBytes [0x10, 0x10] = .error .length ∧
      decodeTableWord 8 0x110 = none ∧ decodeTableWord 8 0x14 = some .divfx := by decide

/-- `st COLOR, #1` is `W 09 01` and `cmd FILLTRI` is `W 00 30` (30 R68); `st16 OPA, #-1000` is
`W 06 18`, `W 07 FC` (95 P1). -/
theorem test_encode_script :
    encodeScript [.st (.data .color) 1, .cmd .filltri, .st16 .opa (-1000)]
      = [.write 0x09 0x01, .write 0x00 0x30, .write 0x06 0x18, .write 0x07 0xFC] := by decide

/-! ### Control commands and issue (95 CT1 to CT9) -/

/-- CT1. -/
theorem test_ct1_launch_reads :
    [0x00, 0x01, 0x02, 0x03, 0x0D, 0x1F].map (fun o => State.reset.readReg o)
      = [some 0x00, some 0x00, some 0x00, some 0xFF, some 0x00, some 0x00] := by decide

/-- CT2: NOP only passes through BUSY. -/
theorem test_nop_ct2 :
    (left? (step (busyWith 0x00 State.reset))).map (fun t => (t.status, t.lastCmd, t.seq))
      = some (0x00, 0x00, .idle) := by decide

/-- CT8: CLRERR after a fault; the record keeps its entry. -/
theorem test_clrerr_ct8 :
    (left? (step (busyWith 0x0F (State.reset.raise .illegalCmd)))).map
        (fun t => (t.status, t.errCode.byte, t.lastCmd, t.record.length))
      = some (0x00, 0x00, 0x0F, 1) := by decide

/-- CT4 and CT5: a reserved byte raises ILLEGAL_CMD. -/
theorem test_illegal_ct4_ct5 :
    (left? (step (busyWith 0x01 State.reset))).map
        (fun t => (t.status, t.errCode.byte, t.lastCmd)) = some (0x02, 0x01, 0x01) ∧
      (left? (step (busyWith 0xFF State.reset))).map
        (fun t => (t.status, t.errCode.byte, t.lastCmd)) = some (0x02, 0x01, 0xFF) := by decide

/-- CT6: a command written while ERR = 1 is dropped. -/
theorem test_dropped_ct6 :
    (left? (step (hosting [.write 0x00 0x30] (State.reset.raise .illegalCmd)))).map
        (fun t => (t.status, t.lastCmd, t.record.length)) = some (0x02, 0x00, 1) := by decide

/-- CT9: a write to a read-only register is ignored. -/
theorem test_read_only_ct9 :
    (left? (step (hosting [.write 0x0A 0x7F] State.reset))).map State.res = some 0 ∧
      (left? (step (hosting [.write 0x03 0x7F] State.reset))).map State.triRes
        = some .noneYet := by decide

/-! ### Arithmetic commands (95 AR1 to AR49) -/

/-- AR2 and AR47. -/
theorem test_mulu8 :
    resAfter .mulu8 (arith 200 100) = some 0x004E20 ∧
      resAfter .mulu8 (arith 0xFF02 0x03) = some 0x000006 := by decide

/-- AR6 and AR11. -/
theorem test_muls8 :
    resAfter .muls8 (arith 0x80 0x80) = some 0x004000 ∧
      resAfter .muls8 (arith 100 0xFD) = some 0xFFFED4 := by decide

/-- AR13 and AR49. -/
theorem test_muls8u8 :
    resAfter .muls8u8 (arith 0x80 0xFF) = some 0xFF8080 ∧
      resAfter .muls8u8 (arith 0x03 0xFF) = some 0x0002FD := by decide

/-- AR18 and AR25. -/
theorem test_muls16u8 :
    resAfter .muls16u8 (arith 0x8000 0xFF) = some 0x808000 ∧
      resAfter .muls16u8 (arith 0xFEFF 0x01) = some 0xFFFEFF := by decide

/-- AR37 and AR40. -/
theorem test_divfx :
    resAfter .divfx (arith 0xB0 3) = some 0xFFE556 ∧
      resAfter .divfx (arith 0xFF 255) = some 0xFFFFFF := by decide

/-- AR46: DIV_ZERO, RES unchanged. -/
theorem test_divfx_by_zero :
    faultAfter .divfx (arith 16 0) = some (0x02, 0x02, []) ∧
      resAfter .divfx (arith 16 0) = some 0x000000 := by decide

/-! ### Framebuffer commands (95 FB1 to S15) -/

/-- FB1 at P6's FBBASE 0xFE00: the region wraps, its last byte (0x01E7) is cleared and the byte after it
is not. -/
theorem test_clear_wraps :
    memAfter .clear (draw 0xFE00 0 0 0 0 0 0 0 [(0x01E7, 0x11), (0x01E8, 0x22), (0xFE00, 0x33)])
      = some [(0x01E8, 0x22)] := by decide +kernel

/-- FB5: BAD_COLOR, memory unchanged. -/
theorem test_clear_bad_color :
    faultAfter .clear (draw 0 4 0 0 0 0 0 0 [(5, 0x55)]) = some (0x02, 0x03, [(5, 0x55)]) := by
  decide

/-- PX4 and PX8. -/
theorem test_setpix :
    memAfter .setpix (draw 0 2 13 7 0 0 0 0 []) = some [(126, 0x02)] ∧
      memAfter .setpix (draw 0 0 1 1 0 0 0 0 [(0, 0xFF)]) = some [(0, 0xFC)] := by decide

/-- PX5 and PX7: out of range is a no-op, but the color is checked first. -/
theorem test_setpix_out_of_range :
    faultAfter .setpix (draw 0 3 80 0 0 0 0 0 [(0, 0x55)]) = some (0x00, 0x00, [(0, 0x55)]) ∧
      faultAfter .setpix (draw 0 4 80 0 0 0 0 0 [(0, 0x55)]) = some (0x02, 0x03, [(0, 0x55)]) := by
  decide

/-- PX2 (byte 0 = 0xE4) and PX6. -/
theorem test_getpix :
    resAfter .getpix (draw 0 0 1 0 0 0 0 0 [(0, 0xE4)]) = some 0x000002 ∧
      resAfter .getpix (draw 0 0 200 3 0 0 0 0 [(0, 0x55)]) = some 0x000000 := by decide

/-- S2 on the zero fill and on 0x55 bytes. -/
theorem test_spantop :
    memAfter .spantop (draw 0 2 21 10 24 0 0 0 []) = some [(210, 0x20), (211, 0xA0)] ∧
      memAfter .spantop (draw 0 2 21 10 24 0 0 0 [(210, 0x55), (211, 0x55)])
        = some [(210, 0x65), (211, 0xA5)] := by decide

/-- S10 and S15: the color is checked first, and an empty span is still checked. -/
theorem test_spantop_checks :
    faultAfter .spantop (draw 0 4 90 51 10 0 0 0 []) = some (0x02, 0x03, []) ∧
      faultAfter .spantop (draw 0 1 5 11 5 0 0 0 []) = some (0x02, 0x05, []) := by decide

/-- S3 on 0x55 bytes, and S8. -/
theorem test_spanbot :
    memAfter .spanbot (draw 0 2 21 11 24 0 0 0 [(210, 0x55), (211, 0x55)])
        = some [(210, 0x56), (211, 0x5A)] ∧
      memAfter .spanbot (draw 0 2 79 49 80 0 0 0 []) = some [(999, 0x02)] := by decide

/-- S11: RANGE before PARITY. -/
theorem test_spanbot_checks :
    faultAfter .spanbot (draw 0 1 0 50 1 0 0 0 []) = some (0x02, 0x04, []) := by decide

/-- S4 on 0x55 bytes: a read-modify-write and a direct store. -/
theorem test_spandual :
    memAfter .spandual (draw 0 2 21 10 24 0 0 0 [(210, 0x55), (211, 0x55)])
      = some [(210, 0x66), (211, 0xAA)] := by decide

/-- S14. -/
theorem test_spandual_checks :
    faultAfter .spandual (draw 0 1 0 10 81 0 0 0 []) = some (0x02, 0x04, []) := by decide

/-! ### Rasterizer commands (95 DS1 to TE5) -/

/-- DS4 and DS10. -/
theorem test_span2 :
    memAfter .span2 (draw 0 3 2 10 7 0 5 11 [])
        = some [(201, 0xF0), (202, 0xF3), (203, 0xCF), (204, 0x0F), (205, 0x0C)] ∧
      memAfter .span2 (draw 0 3 9 10 3 0 2 6 []) = some [(201, 0x0F), (202, 0x0F)] := by decide

/-- DS12 and DS13. -/
theorem test_span2_checks :
    faultAfter .span2 (draw 0 1 0 10 1 0 81 0 []) = some (0x02, 0x04, []) ∧
      faultAfter .span2 (draw 0 1 0 11 1 0 0 1 []) = some (0x02, 0x05, []) := by decide

/-- T8: an odd start row and both kinds of branch. -/
theorem test_filltri_t8 :
    memAfter .filltri (draw 0 2 5 3 9 6 2 8 [])
      = some [(42, 0x08), (81, 0x02), (82, 0xAA), (83, 0x0A), (121, 0xA8), (122, 0xA0),
          (123, 0x80)] := by decide

/-- T9: the crossed row is swapped. -/
theorem test_filltri_t9 :
    memAfter .filltri (draw 0 1 41 38 22 33 77 47 []) = some [(957, 0x40)] := by decide

/-- T10's initial LPOS under the two settings of HALF_SLOPE. -/
theorem test_half_slope_t10 :
    edgeStart .asr { x := 74, y := 6 } 0xFE1F = 0x490F ∧
      edgeStart .trunc { x := 74, y := 6 } 0xFE1F = 0x4910 ∧
      edgeSlope { x := 74, y := 6 } { x := 42, y := 23 } = 0xFE1F := by decide

/-- T7, T5r and TE3: drawn but empty, culled, and the color check before the cull. -/
theorem test_filltri_outcomes :
    (left? (exec .filltri (draw 0 1 10 10 11 12 10 12 []))).map
        (fun t => (t.triRes.byte, t.mem)) = some (0x00, []) ∧
      (left? (exec .filltri (draw 0 1 10 20 10 21 16 21 []))).map
        (fun t => (t.triRes.byte, t.mem)) = some (0x01, []) ∧
      (left? (exec .filltri (draw 0 7 10 10 14 15 20 10 []))).map
        (fun t => (t.triRes.byte, t.status, t.errCode.byte)) = some (0xFF, 0x02, 0x03) := by
  decide

/-! ### Model-only faults and reset (95 MF1 to MF4, 70 R132, R146) -/

/-- MF1: an unwritten operand is recorded, ERR stays 0. -/
theorem test_uninit_mf1 :
    (left? (exec .mulu8 { State.reset with regs := { DataRegs.reset with opb := known 3 } })).map
        (fun t => (t.record.map RecordEntry.kind, t.err)) = some ([.uninit], false) := by decide

/-- MF2: a host read of RES before any command wrote it. -/
theorem test_uninit_mf2 :
    (left? (step (hosting [.read 0x0A] State.reset))).map
        (fun t => (t.record.map RecordEntry.kind, t.obs)) = some ([.uninit], [none]) := by decide

/-- MF3: a RES read while CLEAR is awaited is a host hazard, and the machine then stops. -/
theorem test_hazard_mf3 :
    (left? (step { hosting [.read 0x0A] (busyWith 0x20 State.reset) with turns := 1 })).map
        (fun t => (t.record.map RecordEntry.kind, (left? (step t)).isNone))
      = some ([.hostHazard], true) := by decide

/-- MF4: GETPIX checks its whole read set even out of range. -/
theorem test_uninit_mf4 :
    (left? (exec .getpix
        { State.reset with regs := { DataRegs.reset with p0 := known 200, p1 := known 3 } })).map
        (fun t => t.record.map RecordEntry.kind) = some [.uninit] := by decide

/-- Reset abandons a BUSY SETPIX: the unit's state is the reset state and the pixel's byte is
unknown. -/
theorem test_reset_abandons :
    (left? (step { hosting [.assertReset] (busyWith 0x21 (draw 0 2 13 7 0 0 0 0 [])) with
        turns := 1 })).map
        (fun t => (t.unknown, t.seq, t.busy, t.inReset)) = some ([126], .idle, false, true) := by
  decide

/-- A placed word is what the very next step runs. -/
theorem test_placed_word_runs :
    (left? (step ((arith 200 100).withFetchWord 8 0x10))).map (fun t => (t.res, t.busy))
      = some (0x004E20, false) := by decide

/-- Memory keeps its canonical form: writing what an unlisted byte reads as removes the entry. -/
theorem test_memory_canonical :
    Mem.write [(3, 1), (5, 2)] 4 9 = [(3, 1), (4, 9), (5, 2)] ∧ Mem.write [(3, 1)] 3 0 = [] ∧
      Mem.wf [(5, 2), (3, 1)] = false ∧ Mem.wf [(3, 0)] = false := by decide

/-! ### States that meet the hypotheses of the statements, at the limits of each clause -/

/-- FBBASE 0x4000, everything written: the state most witnesses start from. -/
def ready : State := draw 0x4000 3 0 0 0 0 0 0 []

/-- FBBASE 0xDE1F: the framebuffer's first byte is the register window's last. -/
def overlapping (p1 p2 : Byte) : State := draw 0xDE1F 3 0 p1 p2 0 0 0 []

/-- A host free to access registers, with these operations left. -/
theorem test_meets_hostFree (ops : List HostOp) : (hosting ops ready).hostFree :=
  ⟨rfl, rfl, rfl, rfl, rfl⟩

/-- The host's turn while a command is BUSY. -/
def polling (op : Byte) (ops : List HostOp) : State :=
  { hosting ops (busyWith op ready) with turns := 2 }

theorem test_meets_hostsTurn (op : Byte) (o : HostOp) (ops : List HostOp) :
    (polling op (o :: ops)).hostsTurn := ⟨rfl, .inr rfl⟩

/-- The limits of the four reserved ranges (30 R62). -/
theorem test_meets_reservedBytes :
    ∀ op ∈ ([0x01, 0x0E, 0x15, 0x1F, 0x26, 0x2F, 0x32, 0xFF] : List Byte),
      (0x01 ≤ op.toNat ∧ op.toNat ≤ 0x0E) ∨ (0x15 ≤ op.toNat ∧ op.toNat ≤ 0x1F) ∨
        (0x26 ≤ op.toNat ∧ op.toNat ≤ 0x2F) ∨ 0x32 ≤ op.toNat := by decide

theorem test_meets_reservedBytes_dropped : (State.reset.raise .illegalCmd).err = true := by decide

/-- Immediates at the ends of their ranges (30 R66, R67). -/
theorem test_meets_immediates :
    (Stmt.st (.data .color) (-128)).wellFormed = true ∧ (Stmt.st (.data .color) 255).wellFormed = true ∧
      (Stmt.stm 0xFFFF (-1)).wellFormed = true ∧ (Stmt.st16 .opa (-32768)).wellFormed = true ∧
      (Stmt.st16 .opa (-32768)).encode = [.write 0x06 0x00, .write 0x07 0x80] ∧
      (Stmt.st16 .fbbase 0xFE00).encode = [.write 0x04 0x00, .write 0x05 0xFE] := by decide

theorem test_meets_stepRuns :
    (busyWith 0x14 ready).hazarded = false ∧ (busyWith 0x14 ready).seq = .busy 0x14 ∧
      (busyWith 0x14 ready).unitsTurn = true ∧ decode 0x14 = .ok .divfx := by decide

theorem test_meets_placedCommand :
    ready.hazarded = false ∧ decodeTableWord 8 0x31 = some .span2 := by decide

theorem test_meets_waitingHost :
    (polling 0x30 [.wait]).hazarded = false ∧ (polling 0x30 [.wait]).inReset = false ∧
      (polling 0x30 [.wait]).seq = .busy 0x30 ∧ (polling 0x30 [.wait]).busy = true ∧
      (polling 0x30 [.wait]).script = .wait :: [] := by decide

/-- The three clauses of command issue: dropped, accepted (ERR 0, and CLRERR with ERR 1), hazard. -/
theorem test_meets_commandIssue_dropped :
    (hosting [.write 0x00 0x00] (ready.raise .divZero)).hostFree ∧
      (hosting [.write 0x00 0x00] (ready.raise .divZero)).err = true ∧ (0x00 : Byte) ≠ 0x0F :=
  ⟨⟨rfl, rfl, rfl, rfl, rfl⟩, rfl, by decide⟩

theorem test_meets_commandIssue_accepted :
    (hosting [.write 0x00 0x32] ready).err = false ∧
      (hosting [.write 0x00 0x0F] (ready.raise .divZero)).err = true ∧
      (hosting [.write 0x00 0x0F] (ready.raise .divZero)).hostFree :=
  ⟨rfl, rfl, ⟨rfl, rfl, rfl, rfl, rfl⟩⟩

theorem test_meets_commandIssue_hazard :
    (polling 0x10 [.write 0x00 0x10]).hostsTurn ∧ (polling 0x10 [.write 0x00 0x10]).busy = true ∧
      (polling 0x10 [.write 0x00 0x10]).script = .write 0x00 0x10 :: [] :=
  ⟨⟨rfl, .inr rfl⟩, rfl, rfl⟩

/-- The first and the last data register. -/
theorem test_meets_registerWrite :
    (hosting [.write 0x04 7] ready).script = .write DataReg.fbbaseL.offset 7 :: [] ∧
      (hosting [.write 0x15 7] ready).script = .write DataReg.p5.offset 7 :: [] ∧
      (left? (step (hosting [.write 0x15 7] ready))).map (fun t => t.readReg 0x15)
        = some (some 7) := by decide

/-- FBBASE 0x4000, OPA 0xFC18 (-1000) and RES through their offsets. -/
theorem test_meets_littleEndian :
    ready.regs.fbbaseL.written = true ∧ ready.regs.fbbaseH.written = true ∧
      ready.readReg 0x04 = some 0x00 ∧ ready.readReg 0x05 = some 0x40 ∧
      (arith 0xFC18 0).regs.opaL.written = true ∧ (arith 0xFC18 0).regs.opaH.written = true ∧
      (arith 0xFC18 0).readReg 0x06 = some 0x18 ∧ (arith 0xFC18 0).readReg 0x07 = some 0xFC ∧
      (arith 0xFC18 0).opaS16 = -1000 ∧ (ready.setRes 0x030201).resWritten = true ∧
      (ready.setRes 0x030201).readReg 0x0A = some 0x01 ∧
      (ready.setRes 0x030201).readReg 0x0C = some 0x03 := by decide

/-- The limits of the read-only and of the reserved offsets; their neighbours are none of them. -/
theorem test_meets_readOnly :
    (∀ off ∈ ([0x01, 0x02, 0x03, 0x0A, 0x0C, 0x0D, 0x0F, 0x16, 0x1F] : List Offset),
      (left? (step (hosting [.write off 9] ready))).map (fun t => t.readReg off)
        = some (ready.readReg off)) ∧
    ∀ off ∈ ([0x04, 0x09, 0x10, 0x15] : List Offset),
      (left? (step (hosting [.write off 9] ready))).map (fun t => t.readReg off)
        = some (some 9) := by decide

/-- A host read of the reserved offsets' limits, in a state with no register written. -/
theorem test_meets_reservedRead :
    (∀ off ∈ ([0x0D, 0x0F, 0x16, 0x1F] : List Offset),
      (left? (step (hosting [.read off] State.reset))).map State.obs = some [some 0x00]) ∧
      (hosting [.read 0x0D] State.reset).hazarded = false ∧
      (hosting [.read 0x0D] State.reset).mustWait = false := by decide

/-- STATUS read while BUSY, with the completion unobserved (which observes it), and by a free host. -/
theorem test_meets_statusRead :
    (polling 0x10 [.read 0x01]).hostsTurn ∧ (polling 0x10 [.read 0x01]).inReset = false ∧
      (left? (step (polling 0x10 [.read 0x01]))).map (fun t => (t.obs, t.awaiting))
        = some ([some 0x01], true) ∧
      (left? (step (hosting [.read 0x01] { ready with awaiting := true }))).map
        (fun t => (t.obs, t.awaiting)) = some ([some 0x00], false) ∧
      (left? (step (hosting [.read 0x01] (ready.raise .range)))).map
        (fun t => (t.obs, t.awaiting)) = some ([some 0x02], false) :=
  ⟨⟨rfl, .inr rfl⟩, rfl, by decide, by decide, by decide⟩

/-- Both clauses of a register read: a marked RES, and RES without its mark at its two ends. -/
theorem test_meets_registerRead :
    (ready.setRes 5).resWritten = true ∧ ready.resWritten = false ∧
      (0x0A : Offset).toNat ∈ [0x0A, 0x0B, 0x0C] ∧ (0x0C : Offset).toNat ∈ [0x0A, 0x0B, 0x0C] ∧
      (0x09 : Offset).toNat ∉ [0x0A, 0x0B, 0x0C] ∧
      (left? (step (hosting [.read 0x0A] (ready.setRes 5)))).map State.obs = some [some 5] := by
  decide

/-- The addresses just below and just above the register window, and the window's ends. -/
theorem test_meets_hostMemory :
    ready.cfg.windowOffset 0xDDFF = none ∧ ready.cfg.windowOffset 0xDE20 = none ∧
      ready.cfg.windowOffset 0xDE00 = some 0x00 ∧ ready.cfg.windowOffset 0xDE1F = some 0x1F ∧
      Mem.wf ready.mem = true ∧ (0xDDFF : Addr).toNat ∉ ready.unknown ∧
      (left? (step (hosting [.writeMem 0xDDFF 4] ready))).map State.mem
        = some [(0xDDFF, 4)] := by decide

/-- Where a host may access memory: free, and while CLEAR is BUSY just below and above the region. -/
theorem test_meets_mayAccess :
    (hosting [.readMem 0x4000] ready).mayAccess 0x4000 ∧
      (polling 0x20 [.readMem 0x3FFF]).mayAccess 0x3FFF ∧
      (polling 0x20 [.writeMem 0x43E8 7]).mayAccess 0x43E8 :=
  ⟨⟨⟨rfl, .inl rfl⟩, rfl, nofun⟩, ⟨⟨rfl, .inr rfl⟩, rfl, fun _ => by decide⟩,
    ⟨⟨rfl, .inr rfl⟩, rfl, fun _ => by decide⟩⟩

/-- A memory access in the window's first and last byte is the register access. -/
theorem test_meets_windowAccess :
    left? (step (hosting [.readMem 0xDE00] ready)) = left? (step (hosting [.read 0x00] ready)) ∧
      left? (step (hosting [.writeMem 0xDE15 9] ready))
        = left? (step (hosting [.write 0x15 9] ready)) ∧
      (left? (step (hosting [.readMem 0xDE1F] ready))).map State.obs = some [some 0x00] := by decide

/-- The first and the last byte of a ROM are refused, their neighbours are not. -/
theorem test_meets_notPlainRam :
    ready.cfg.windowOffset 0xA000 = none ∧ ready.cfg.windowOffset 0xBFFF = none ∧
      ([0x9FFF, 0xA000, 0xBFFF, 0xC000] : List Addr).map (withoutRam ready).cfg.plainRam
        = [true, false, false, true] ∧
      refusal? (step (withoutRam (hosting [.readMem 0xA000] ready))) = some .notPlainRam ∧
      refusal? (step (withoutRam (hosting [.writeMem 0xBFFF 1] ready))) = some .notPlainRam := by
  decide

theorem test_meets_plainRam_neighbours :
    (left? (step (withoutRam (hosting [.writeMem 0x9FFF 1] ready)))).map State.mem
        = some [(0x9FFF, 1)] ∧
      (left? (step (withoutRam (hosting [.writeMem 0xC000 1] ready)))).map State.mem
        = some [(0xC000, 1)] := by decide

/-- Memory accessed while a NOP is BUSY and FBBASE has no mark: UNINIT is recorded (log 27). -/
theorem test_meets_unplacedRegion :
    (left? (step { hosting [.writeMem 0x8000 1] (busyWith 0x00 State.reset) with turns := 1 })).map
        (fun t => (t.record.map RecordEntry.kind, t.mem)) = some ([.uninit], [(0x8000, 1)]) ∧
      (left? (step { hosting [.writeMem 0x03E7 1] (busyWith 0x00 State.reset) with turns := 1 })).map
        (fun t => (t.record.map RecordEntry.kind, t.mem)) = some ([.hostHazard], []) := by decide

/-- Both clauses of a wait, and the STATUS values observed: 95 P4's `R 01 -> 02` after a fault. -/
theorem test_meets_wait :
    (left? (step (polling 0x10 [.wait]))).map (fun t => (t.obs, t.script))
        = some ([some 0x01], [.wait]) ∧
      (left? (step (hosting [.wait] (ready.raise .badColor)))).map (fun t => (t.obs, t.script))
        = some ([some 0x02], []) ∧
    (polling 0x10 [.wait]).busy = true ∧ (hosting [.wait] ready).busy = false ∧
      (hosting [.wait] ready).hostsTurn ∧ (polling 0x10 [.wait]).inReset = false :=
  ⟨by decide, by decide, rfl, rfl, ⟨rfl, .inl rfl⟩, rfl⟩

/-- The four kinds of hazard, the framebuffer's at its first and last byte. -/
theorem test_meets_hazards :
    (∀ op ∈ ([.write 0x09 1, .read 0x00, .writeMem 0x4000 1, .readMem 0x43E7] : List HostOp),
      (left? (step (polling 0x20 [op]))).map (fun t => t.record.map RecordEntry.kind)
        = some [.hostHazard]) ∧
      inRegion ready.fbbase 0x4000 = true ∧ inRegion ready.fbbase 0x43E7 = true ∧
      inRegion ready.fbbase 0x43E8 = false ∧ inRegion ready.fbbase 0x3FFF = false ∧
      (polling 0x20 []).inReset = false := by decide

/-- Every kind of access while reset is asserted. -/
theorem test_meets_hazards_inReset :
    (∀ op ∈ ([.write 0x09 1, .read 0x01, .wait, .writeMem 0x8000 1, .readMem 0x8000] : List HostOp),
      (left? (step (hosting [op] { ready with inReset := true }))).map
        (fun t => (t.record.map RecordEntry.kind, t.mem)) = some ([.hostHazard], [])) ∧
      (hosting [.wait] { ready with inReset := true }).hazarded = false ∧
      (hosting [.wait] { ready with inReset := true }).seq = .idle := by decide

/-- What is no hazard while a command is awaited: a STATUS read and memory outside the region. -/
theorem test_allowed_while_busy :
    ∀ op ∈ ([.read 0x01, .wait, .writeMem 0x43E8 1, .readMem 0x3FFF] : List HostOp),
      (left? (step (polling 0x20 [op]))).map State.record = some [] := by decide

/-- States a host that keeps its duties can be in: before a command, while CLEAR is BUSY and the host
reads memory just above the region, and one whose next access is not plain RAM. -/
theorem test_meets_wellFormedScript_idle :
    (hosting [.write 0x00 0x20, .wait, .read 0x0A] ready).Keeps
      { pending := false, inReset := false, regs := ready.regs } where
  hazarded := rfl
  awaited := nofun
  inReset := rfl
  regs := rfl
  busy := nofun
  runnable := nofun
  script := by decide

theorem test_meets_wellFormedScript_busy :
    (polling 0x20 [.readMem 0x43E8, .wait]).Keeps
      { pending := true, inReset := false, regs := ready.regs } where
  hazarded := rfl
  awaited := fun _ => rfl
  inReset := rfl
  regs := rfl
  busy := fun _ _ => rfl
  runnable := by
    rintro op i ⟨⟩ ⟨⟩
    decide
  script := by decide

theorem test_meets_wellFormedScript_refused :
    (withoutRam (hosting [.readMem 0xA000] ready)).Keeps
        { pending := false, inReset := false, regs := ready.regs } ∧
      refusal? (step (withoutRam (hosting [.readMem 0xA000] ready))) = some .notPlainRam :=
  ⟨{ hazarded := rfl, awaited := nofun, inReset := rfl, regs := rfl, busy := nofun
     runnable := nofun, script := by decide }, by decide⟩

/-- Reset with a drawing command BUSY, with one that does not draw, and with the sequencer IDLE. -/
theorem test_meets_resetAbandons :
    (polling 0x21 [.assertReset]).hostsTurn ∧
      (polling 0x21 [.assertReset]).script = .assertReset :: [] ∧
      (polling 0x21 [.assertReset]).misplaced = false ∧
      (polling 0x10 [.assertReset]).abandoned = [] ∧
      (hosting [.assertReset] ready).hostsTurn ∧ (hosting [.assertReset] ready).abandoned = [] ∧
      (left? (step (hosting [.assertReset] { ready with mem := [(5, 5)] }))).map
        (fun t => (t.mem, t.unknown, t.inReset)) = some ([(5, 5)], [], true) :=
  ⟨⟨rfl, .inr rfl⟩, rfl, by decide, by decide, ⟨rfl, .inl rfl⟩, rfl, by decide⟩

/-- Reset while a SETPIX with an unwritten register is BUSY: its cell is that of the values held and
UNINIT is recorded (log 12); with every register written nothing is recorded. -/
theorem test_meets_abandonsUnplaced :
    (busyWith 0x21 State.reset).AbandonsUnplaced ∧
      (left? (step { hosting [.assertReset] (busyWith 0x21 State.reset) with turns := 1 })).map
        (fun t => (t.record.map RecordEntry.kind, t.unknown)) = some ([.uninit], [0]) ∧
      (left? (step (polling 0x21 [.assertReset]))).map State.record = some [] :=
  ⟨⟨0x21, .setpix, rfl, rfl, by decide, .color, by decide, rfl⟩, by decide, by decide⟩

/-- The cells of an abandoned CLEAR: every byte of the region. -/
theorem test_abandoned_clear :
    (busyWith 0x20 ready).abandoned = (List.range 1000).map fun i => { off := i, mask := 0xFF } := rfl

/-- The cells of an abandoned command: SETPIX's at the grid's corner, those of
[21, 24) of a top row, of a dual row and of SPAN2's two intervals, and T6's first row. -/
theorem test_abandoned_cells :
    (busyWith 0x21 (draw 0x4000 3 79 49 0 0 0 0 [])).abandoned.map CellWrite.off = [999] ∧
      (busyWith 0x23 (draw 0 2 21 10 24 0 0 0 [])).abandoned.map CellWrite.off = [210, 211] ∧
      (busyWith 0x24 (draw 0 2 21 11 24 0 0 0 [])).abandoned.map CellWrite.off = [210, 211] ∧
      (busyWith 0x25 (draw 0 2 21 10 24 0 0 0 [])).abandoned.map CellWrite.off = [210, 211] ∧
      (busyWith 0x31 (draw 0 2 21 10 22 0 24 26 [])).abandoned.map CellWrite.off = [210, 212] ∧
      839 ∈ (busyWith 0x30 (draw 0x4000 3 79 49 70 49 79 40 [])).abandoned.map CellWrite.off := by
  decide

/-- No cells: GETPIX, NOP, a reserved byte, IDLE, and a drawing command with a bad color, out of range, an
odd y, an empty interval, or a triangle without area. -/
theorem test_abandoned_none :
    (∀ op ∈ ([0x22, 0x00, 0x32] : List Byte), (busyWith op ready).abandoned = []) ∧
      ready.abandoned = [] ∧
      (busyWith 0x20 (draw 0 4 0 0 0 0 0 0 [])).abandoned = [] ∧
      (busyWith 0x21 (draw 0 3 80 49 0 0 0 0 [])).abandoned = [] ∧
      (busyWith 0x23 (draw 0 3 0 49 80 0 0 0 [])).abandoned = [] ∧
      (busyWith 0x24 (draw 0 3 0 48 80 0 0 0 [])).abandoned = [] ∧
      (busyWith 0x25 (draw 0 3 80 48 80 0 0 0 [])).abandoned = [] ∧
      (busyWith 0x31 (draw 0 3 0 48 80 0 0 81 [])).abandoned = [] ∧
      (busyWith 0x30 (draw 0 3 5 5 5 5 9 9 [])).abandoned = [] := by decide

/-- A reset that abandons a GETPIX over the register window is not refused, and one of an unmarked FBBASE
whose value points into a ROM is not either (log 6). -/
theorem test_reset_not_refused :
    (left? (step { hosting [.assertReset] (busyWith 0x22 (overlapping 0 0)) with turns := 1 })).map
        (fun t => (t.mem, t.unknown)) = some ([], []) ∧
      (left? (step { hosting [.assertReset] (busyWith 0x21 (unmarked 0xA000)) with turns := 1 })).map
        (fun t => (t.record.map RecordEntry.kind, t.unknown)) = some ([.uninit], [0xA000]) := by
  decide

/-- The release of reset. -/
theorem test_meets_releaseReset :
    (hosting [.releaseReset] { ready with inReset := true }).hostsTurn ∧
      (left? (step (hosting [.releaseReset] { ready with inReset := true }))).map
        (fun t => (t.inReset, t.pos)) = some (false, 1) := ⟨⟨rfl, .inl rfl⟩, by decide⟩

/-- A byte left unknown at the pixel GETPIX reads and at the address the host reads. -/
theorem test_meets_unknownByte :
    ({ ready with unknown := [0x4000] } : State).cfg.windowOffset 0x4000 = none ∧
      (0x4000 : Addr).toNat ∈ ({ ready with unknown := [0x4000] } : State).unknown ∧
      ready.p0 < 80 ∧ ready.p1 < 50 ∧ ready.misplaced = false ∧ ready.color ≤ 3 ∧
      ready.pixelAddr ready.p0 ready.p1 = 0x4000 := by decide

/-- SPANTOP over [21, 24) of row 10 and SPANBOT of row 11, the last byte they cover unknown: it stays
unknown and is recorded; SPANDUAL covers it whole, so it becomes known, the half covered one before it
does not; CLEAR knows every byte. -/
theorem test_meets_unknownWrites :
    (∀ iy ∈ ([(.spantop, 10), (.spanbot, 11)] : List (Instr × Byte)),
      (left? (exec iy.1 { draw 0 2 21 iy.2 24 0 0 0 [] with unknown := [211, 300] })).map
        (fun t => (t.record.map RecordEntry.kind, t.unknown)) = some ([.uninit], [211, 300])) ∧
      (left? (exec .spandual { draw 0 2 21 10 24 0 0 0 [] with unknown := [211] })).map
        (fun t => (t.record.map RecordEntry.kind, t.unknown)) = some ([], []) ∧
      (left? (exec .spandual { draw 0 2 21 10 24 0 0 0 [] with unknown := [210, 211] })).map
        (fun t => (t.record.map RecordEntry.kind, t.unknown)) = some ([.uninit], [210]) ∧
      spanLegal (draw 0 2 21 10 24 0 0 0 []) 0 ∧ spanLegal (draw 0 2 21 11 24 0 0 0 []) 1 ∧
      (draw 0 2 21 10 24 0 0 0 []).pixelAddr 23 10 = 211 ∧
      (draw 0 2 21 10 24 0 0 0 []).misplaced = false := by
  unfold spanLegal; decide

theorem test_meets_nop :
    ready.err = false ∧ (ready.raise .range).err = true := by decide

/-- A state with ERR = 1 that meets the invariant. -/
theorem test_meets_inv : ({ ready with err := true, errCode := .range } : State).Inv := by
  constructor <;> decide

/-- A state with ERR = 0 and a CLRERR BUSY that meets the invariant. -/
theorem test_meets_inv_busy : (busyWith 0x0F ready).Inv := by constructor <;> decide

/-- A step from a state that meets the invariant. -/
theorem test_meets_sticky :
    (left? (step (hosting [.write 0x09 1] { ready with err := true, errCode := .range }))).map
        (fun t => (t.err, t.errCode)) = some (true, .range) := by decide

/-- DIVFX's two clauses, at divisors 0, 1 and 255. -/
theorem test_meets_divfx :
    (arith 16 0).regs.opb.val = 0 ∧ (arith 0x80 1).regs.opb.val ≠ 0 ∧
      resAfter .divfx (arith 0x80 1) = some 0xFF8000 ∧
      resAfter .divfx (arith 0x7F 1) = some 0x007F00 ∧
      resAfter .divfx (arith 0x80 255) = some 0xFFFF80 := by decide

theorem test_meets_commute :
    (arith 0xFD 100).regs.opaL = (arith 100 0xFD).regs.opb ∧
      (arith 0xFD 100).regs.opb = (arith 100 0xFD).regs.opaL ∧
      resAfter .muls8 (arith 0xFD 100) = some 0xFFFED4 := by decide

theorem test_meets_arithmeticFrame :
    (left? (exec .divfx (arith 1 0))).isSome = true ∧
      (left? (exec .muls16u8 (arith 1 0))).isSome = true := by decide

/-- CLEAR's two clauses, at colors 3 and 4. -/
theorem test_meets_clear :
    ready.color ≤ 3 ∧ ready.misplaced = false ∧ Mem.wf ready.mem = true ∧
      3 < (draw 0 4 0 0 0 0 0 0 []).color := by decide

/-- SETPIX's and GETPIX's clauses, at (79, 49), (80, 49) and (79, 50). -/
theorem test_meets_setpix :
    (draw 0x4000 3 79 49 0 0 0 0 []).p0 < 80 ∧ (draw 0x4000 3 79 49 0 0 0 0 []).p1 < 50 ∧
      80 ≤ (draw 0x4000 3 80 49 0 0 0 0 []).p0 ∧ 50 ≤ (draw 0x4000 3 79 50 0 0 0 0 []).p1 ∧
      (draw 0x4000 3 79 49 0 0 0 0 []).color ≤ 3 ∧
      (draw 0x4000 3 79 49 0 0 0 0 []).misplaced = false := by
  decide

/-- The span commands' legal operands at the grid's corner, and each failing check. -/
theorem test_meets_spans :
    spanLegal (draw 0x4000 3 80 48 80 0 0 0 []) 0 ∧ spanLegal (draw 0x4000 3 0 49 80 0 0 0 []) 1 ∧
      49 < (draw 0x4000 3 0 50 0 0 0 0 []).p1 ∧ 80 < (draw 0x4000 3 81 0 0 0 0 0 []).p0 ∧
      80 < (draw 0x4000 3 0 0 81 0 0 0 []).p2 ∧ (draw 0x4000 3 0 49 0 0 0 0 []).p1 % 2 ≠ 0 ∧
      (draw 0x4000 3 0 48 0 0 0 0 []).p1 % 2 ≠ 1 ∧
      spanLegal (draw 0x4000 3 0 48 80 0 0 0 []) 0 ∧
      (draw 0x4000 3 0 48 80 0 0 0 []).misplaced = false ∧
      Mem.wf (draw 0x4000 3 0 48 80 0 0 0 []).mem = true := by
  unfold spanLegal; decide

theorem test_meets_emptySpan :
    (draw 0x4000 3 80 48 80 0 0 0 []).p2 ≤ (draw 0x4000 3 80 48 80 0 0 0 []).p0 ∧
      spanLegal (draw 0x4000 3 80 48 80 0 0 0 []) 0 ∧
      (draw 0x4000 3 80 49 0 0 0 0 []).p2 ≤ (draw 0x4000 3 80 49 0 0 0 0 []).p0 ∧
      spanLegal (draw 0x4000 3 80 49 0 0 0 0 []) 1 := by
  unfold spanLegal; decide

/-- The laws of dual-row writes at the bottom cell row. -/
theorem test_meets_dualRows :
    Mem.wf [(0x4000, 0x55)] = true ∧
      writeCells 0x4000 0xAA [] (dualCells 48 77 80)
        = writeCells 0x4000 0xAA (writeCells 0x4000 0xAA [] (rowCells 48 77 80))
            (rowCells 49 77 80) ∧
      writeCells 0x4000 0xAA [] (dualCells 48 77 80) = [(0x43E6, 0x22), (0x43E7, 0xAA)] := by
  decide

/-- SPAN2's clauses: legal at the corner, odd y, and each range limit. -/
theorem test_meets_span2 :
    (draw 0x4000 3 80 48 80 0 80 80 []).p1 % 2 = 0 ∧ (draw 0x4000 3 0 49 80 0 0 80 []).p1 % 2 = 1 ∧
      80 < (draw 0x4000 3 0 0 0 0 81 0 []).p4 ∧ 80 < (draw 0x4000 3 0 0 0 0 0 81 []).p5 := by
  decide

/-- FILLTRI's checks at the grid's limits. -/
theorem test_meets_filltri_checks :
    fillLegal (draw 0x4000 3 79 49 70 49 79 40 []) ∧
      79 < (draw 0x4000 3 80 0 0 0 0 0 []).p0 ∧ 49 < (draw 0x4000 3 0 0 0 0 0 50 []).p5 := by
  unfold fillLegal; decide

/-- A culled triangle (CU7's zero area) and a drawn one (T6). -/
theorem test_meets_filltri :
    signedArea (draw 0x4000 3 5 5 5 5 9 9 []).vertexA (draw 0x4000 3 5 5 5 5 9 9 []).vertexB
        (draw 0x4000 3 5 5 5 5 9 9 []).vertexC = 0 ∧
      0 < signedArea (draw 0x4000 3 79 49 70 49 79 40 []).vertexA
        (draw 0x4000 3 79 49 70 49 79 40 []).vertexB
        (draw 0x4000 3 79 49 70 49 79 40 []).vertexC ∧
      fillLegal (draw 0x4000 3 5 5 5 5 9 9 []) ∧
      (draw 0x4000 3 79 49 70 49 79 40 []).misplaced = false ∧
      Mem.wf (draw 0x4000 3 79 49 70 49 79 40 []).mem = true := by
  unfold fillLegal; decide

/-- A triangle of positive area without a pixel, which makes no access wherever the framebuffer lies
(log 6): its one walked row has an empty interval. -/
theorem test_meets_filltri_pixelless :
    0 < signedArea (draw 0xDE1F 3 5 5 6 5 5 6 []).vertexA (draw 0xDE1F 3 5 5 6 5 5 6 []).vertexB
        (draw 0xDE1F 3 5 5 6 5 5 6 []).vertexC ∧
      fillRow .asr { x := 5, y := 5 } { x := 6, y := 5 } { x := 5, y := 6 } 5 = (5, 5) ∧
      (draw 0xDE1F 3 5 5 6 5 5 6 []).misplaced = true ∧
      (left? (exec .filltri (draw 0xDE1F 3 5 5 6 5 5 6 []))).map State.triRes = some .drawn := by
  decide

/-- T6's first and last walked row, and the row after it. -/
theorem test_meets_walked :
    walked { x := 79, y := 49 } { x := 70, y := 49 } { x := 79, y := 40 } 40 = true ∧
      walked { x := 79, y := 49 } { x := 70, y := 49 } { x := 79, y := 40 } 48 = true ∧
      walked { x := 79, y := 49 } { x := 70, y := 49 } { x := 79, y := 40 } 49 = false ∧
      fillRow .asr { x := 79, y := 49 } { x := 70, y := 49 } { x := 79, y := 40 } 40 = (78, 79) ∧
      fillRow .asr { x := 79, y := 49 } { x := 70, y := 49 } { x := 79, y := 40 } 48 = (70, 79) := by
  decide

/-- T10's long edge: its slope -481 from 256 * -32 / 17, and both of its first positions. -/
theorem test_meets_edge_numbers :
    (edgeSlope { x := 74, y := 6 } { x := 42, y := 23 }).toInt = -481 ∧
      (edgeStart .asr { x := 74, y := 6 } (edgeSlope { x := 74, y := 6 } { x := 42, y := 23 })).toInt
        = 256 * 74 - 241 ∧
      (edgeStart .trunc { x := 74, y := 6 } (edgeSlope { x := 74, y := 6 } { x := 42, y := 23 })).toInt
        = 256 * 74 - 240 := by decide

/-- The sort in each of the six orders, with the ties each allows. -/
theorem test_meets_sort :
    let v (x y : Byte) : Vertex := { x := x, y := y }
    sort3 (v 1 2) (v 2 2) (v 3 2) = (v 1 2, v 2 2, v 3 2, false) ∧
      sort3 (v 1 1) (v 2 2) (v 3 1) = (v 1 1, v 3 1, v 2 2, true) ∧
      sort3 (v 1 2) (v 2 1) (v 3 2) = (v 2 1, v 1 2, v 3 2, true) ∧
      sort3 (v 1 2) (v 2 1) (v 3 1) = (v 2 1, v 3 1, v 1 2, false) ∧
      sort3 (v 1 2) (v 2 2) (v 3 1) = (v 3 1, v 1 2, v 2 2, false) ∧
      sort3 (v 1 3) (v 2 2) (v 3 1) = (v 3 1, v 2 2, v 1 3, true) := by decide

theorem test_meets_precise :
    (arith 1 0).err = false ∧ (left? (exec .divfx (arith 1 0))).map State.err = some true := by
  decide

theorem test_meets_reservedDecode : decode 0x32 = .error (.reserved 0x32) := by decide

/-- A framebuffer that shares one byte with the register window, and one that shares none. -/
theorem test_meets_overlap :
    (overlapping 0 1).misplaced = true ∧ (draw 0xDE20 3 0 0 0 0 0 0 []).misplaced = false ∧
      (draw 0xDA19 3 0 0 0 0 0 0 []).misplaced = true ∧
      (draw 0xDA18 3 0 0 0 0 0 0 []).misplaced = false ∧
      spanLegal (overlapping 0 1) 0 ∧ spanLegal (overlapping 1 1) 1 ∧
      (overlapping 0 1).p0 < (overlapping 0 1).p2 := by
  unfold spanLegal; decide

/-- A framebuffer that shares its last, or its first, byte with a ROM, and two that share none. -/
theorem test_meets_offRam :
    (withoutRam (draw 0x9C19 3 0 0 0 0 0 0 [])).misplaced = true ∧
      (withoutRam (draw 0x9C18 3 0 0 0 0 0 0 [])).misplaced = false ∧
      (withoutRam (draw 0xBFFF 3 0 0 0 0 0 0 [])).misplaced = true ∧
      (withoutRam (draw 0xC000 3 0 0 0 0 0 0 [])).misplaced = false ∧
      refusal? (exec .setpix (withoutRam (draw 0xBFFF 3 0 0 0 0 0 0 []))) = some .framebufferMisplaced := by
  decide

/-- With either byte of FBBASE unmarked a command runs over the ROM and the register window too, and
UNINIT is recorded (10 R37; log 6). -/
theorem test_meets_unmarked :
    (unmarked 0xA000).misplaced = false ∧ (unmarked 0xDE1F).misplaced = false ∧
      (left? (exec .setpix (unmarked 0xA000))).map
        (fun t => (t.record.map RecordEntry.kind, t.mem)) = some ([.uninit], [(0xA000, 0xC0)]) ∧
      (left? (exec .setpix (unmarked 0xDE1F))).map
        (fun t => (t.record.map RecordEntry.kind, t.mem)) = some ([.uninit], [(0xDE1F, 0xC0)]) ∧
      (left? (exec .getpix ((unmarked 0xA000).setData .fbbaseL 0))).map
        (fun t => t.record.map RecordEntry.kind) = some [.uninit] ∧
      (unmarked 0xA000).regs.fbbaseL.written = false ∧
      (unmarked 0xA000).regs.fbbaseH.written = false := by decide

/-- SPAN2, FILLTRI and an abandoned SETPIX over the register window. -/
theorem test_meets_misplaced_more :
    refusal? (exec .span2 (draw 0xDE1F 3 1 0 1 0 0 1 [])) = some .framebufferMisplaced ∧
      spanLegal (draw 0xDE1F 3 1 0 1 0 0 1 []) 0 ∧ (draw 0xDE1F 3 1 0 1 0 0 1 []).p4
        < (draw 0xDE1F 3 1 0 1 0 0 1 []).p5 ∧
      refusal? (exec .filltri (draw 0xDE1F 2 5 3 9 6 2 8 [])) = some .framebufferMisplaced ∧
      fillLegal (draw 0xDE1F 2 5 3 9 6 2 8 []) ∧
      0 < signedArea (draw 0xDE1F 2 5 3 9 6 2 8 []).vertexA (draw 0xDE1F 2 5 3 9 6 2 8 []).vertexB
        (draw 0xDE1F 2 5 3 9 6 2 8 []).vertexC ∧
      inTriangle .asr (draw 0xDE1F 2 5 3 9 6 2 8 []).vertexA (draw 0xDE1F 2 5 3 9 6 2 8 []).vertexB
        (draw 0xDE1F 2 5 3 9 6 2 8 []).vertexC 4 4 = true ∧
      refusal? (step { hosting [.assertReset] (busyWith 0x21 (overlapping 0 1)) with turns := 1 })
        = some .framebufferMisplaced := by
  unfold spanLegal fillLegal; decide

theorem test_meets_unwritten :
    DataReg.fbbaseH ∈ readSet .filltri ∧ (State.reset.regs.get .fbbaseH).written = false ∧
      (left? (exec .filltri State.reset)).isSome = true := by decide

/-- T8 again with every bit of the hidden edge state changed beforehand. -/
theorem test_meets_edge :
    memAfter .filltri
        { draw 0 2 5 3 9 6 2 8 [] with
          edge := { EdgeState.reset with par := true, shortLeft := true, lpos := 0x7FFF, y := 0xFF } }
      = memAfter .filltri (draw 0 2 5 3 9 6 2 8 []) := by decide

/-- SPAN2 does not read P3, MULU8 not OPA_H. -/
theorem test_meets_operands :
    DataReg.p3 ∉ readSet .span2 ∧ DataReg.opaH ∉ readSet .mulu8 ∧
      memAfter .span2 (draw 0 3 2 10 7 0 5 11 []) = memAfter .span2 (draw 0 3 2 10 7 99 5 11 []) := by
  decide

theorem test_meets_unitWrites :
    Mem.wf (draw 0 2 21 10 24 0 0 0 []).mem = true ∧
      (left? (exec .spantop (draw 0 2 21 10 24 0 0 0 []))).isSome = true ∧
      inRegion 0 0x03E8 = false := by decide

theorem test_meets_writers :
    (left? (exec .getpix ready)).isSome = true ∧ (left? (exec .nop ready)).isSome = true ∧
      Instr.nop ∉ [Instr.mulu8, .muls8, .muls8u8, .muls16u8, .divfx, .getpix] := by decide

/-- A refused command, and a command that keeps ERR. -/
theorem test_meets_refused :
    refusal? (exec .spantop (overlapping 0 1)) = some .framebufferMisplaced ∧
      (left? (exec .nop (ready.raise .range))).map State.err = some true := by decide

/-- A step of the host and a step of the unit. -/
theorem test_meets_steps :
    (left? (step (hosting [.read 0x00] ready))).isSome = true ∧
      (left? (step (busyWith 0x14 ready))).isSome = true := by decide

end Sys2Proof.Tests
end

section
/-! O57. No step changes the parameters: what each move of the unit, of the host and of the reset input
leaves in the field `cfg`. -/

namespace Sys2Proof.Machine

theorem State.UnitWrites.cfg_eq {s t : State} (h : s.UnitWrites t) : t.cfg = s.cfg := by
  unfold State.UnitWrites at h
  rw [h]

theorem State.UnitWrites.regs_eq {s t : State} (h : s.UnitWrites t) : t.regs = s.regs := by
  unfold State.UnitWrites at h
  rw [h]

theorem unitStep_cfg {op : Byte} {s t : State} (h : unitStep op s = .next t) : t.cfg = s.cfg := by
  rcases unitStep_next h with ⟨i, u, -, he, rfl⟩ | ⟨e, -, rfl⟩
  · exact (exec_unitWrites he).cfg_eq
  · rfl

@[simp] theorem State.issue_cfg (s : State) (v : Byte) (pos : Nat) :
    (s.issue v pos).cfg = s.cfg := by
  unfold State.issue; split <;> rfl

@[simp] theorem State.writeReg_cfg (s : State) (off : Offset) (v : Byte) (pos : Nat) :
    (s.writeReg off v pos).cfg = s.cfg := by
  unfold State.writeReg; split <;> simp

@[simp] theorem State.hostWrite_cfg (s : State) (off : Offset) (v : Byte) (pos : Nat) :
    (s.hostWrite off v pos).cfg = s.cfg := by
  unfold State.hostWrite; split <;> simp

@[simp] theorem State.hostRead_cfg (s : State) (off : Offset) (pos : Nat) :
    (s.hostRead off pos).cfg = s.cfg := by
  unfold State.hostRead; split_ifs <;> simp

@[simp] theorem State.hostWriteMem_cfg (s : State) (a : Addr) (v : Byte) (pos : Nat) :
    (s.hostWriteMem a v pos).cfg = s.cfg := by
  unfold State.hostWriteMem; split <;> simp

@[simp] theorem State.hostReadMem_cfg (s : State) (a : Addr) (pos : Nat) :
    (s.hostReadMem a pos).cfg = s.cfg := by
  unfold State.hostReadMem; split_ifs <;> simp

@[simp] theorem State.forget_cfg (s : State) (addrs : List Nat) :
    (s.forget addrs).cfg = s.cfg := by
  induction addrs generalizing s with
  | nil => rfl
  | cons a addrs ih => exact ih _

theorem State.assertReset_cfg {s t : State} (h : s.assertReset = .next t) : t.cfg = s.cfg := by
  obtain ⟨-, rfl⟩ := State.assertReset_next h
  simp

theorem State.hostTurn_cfg {s t : State} (h : s.hostTurn = .next t) : t.cfg = s.cfg := by
  rcases hostTurn_cases s with ⟨-, hidle⟩ | ⟨op, rest, -,
      ⟨off, v, -, hwrite⟩ | ⟨off, -, hread⟩ | ⟨-, -, -, hpoll⟩ | ⟨a, -, -, hrefused⟩ |
      ⟨a, v, -, -, hwriteMem⟩ | ⟨a, -, -, hreadMem⟩ | ⟨-, hassert⟩ | ⟨-, hrelease⟩⟩
  · cases hidle.symm.trans h; rfl
  · cases hwrite.symm.trans h; simp
  · cases hread.symm.trans h; simp
  · cases hpoll.symm.trans h; simp
  · cases hrefused.symm.trans h
  · cases hwriteMem.symm.trans h; simp
  · cases hreadMem.symm.trans h; simp
  · exact (State.assertReset_cfg (hassert.symm.trans h)).trans (State.taken_cfg s rest)
  · cases hrelease.symm.trans h; simp

theorem step_cfg {s t : State} (h : step s = .next t) : t.cfg = s.cfg := by
  obtain ⟨-, ⟨op, -, -, hunit⟩ | ⟨-, hhost⟩⟩ := step_next h
  · exact unitStep_cfg hunit
  · exact State.hostTurn_cfg hhost

/-- Settles O57: the unit's step writes at most what a command may write, and no turn of the host
touches `cfg`. -/
theorem parametersNeverChange : Obligations.ParametersNeverChange := fun _ _ => step_cfg

end Sys2Proof.Machine
end

section
/-! O54. Noninterference of the data registers: a command run on two register files that agree on its
read set does the same, and leaves each register file as it was. -/

namespace Sys2Proof.Machine

/-! ### Replacing the register file -/

/-- The state with another register file. -/
def State.withRegs (s : State) (r : DataRegs) : State := { s with regs := r }

/-- Two register files hold the same in these registers, marks included. -/
def DataRegs.AgreeOn (ds : List DataReg) (r q : DataRegs) : Prop := ∀ d ∈ ds, r.get d = q.get d

/-- Setting a register changes none of the others (10 R32). -/
theorem DataRegs.agreeOn_set {ds : List DataReg} {r : DataRegs} {d : DataReg} (x : Tracked)
    (hd : d ∉ ds) : DataRegs.AgreeOn ds (r.set d x) r :=
  fun e he => DataRegs.get_set_other r d e x fun hed => hd (hed ▸ he)

/-- An outcome with its next state, if there is one, changed by `f`. -/
def mapNext (f : State → State) :
    Host.Outcome State Fault Refusal → Host.Outcome State Fault Refusal
  | .next s => .next (f s)
  | .fault e => .fault e
  | .refused e => .refused e

@[simp] theorem mapNext_next (f : State → State) (s : State) : mapNext f (.next s) = .next (f s) := rfl

@[simp] theorem mapNext_refused (f : State → State) (e : Refusal) :
    mapNext f (.refused e) = .refused e := rfl

/-! ### Each operand form reads its own registers (30 R63, R64) -/

section
variable {s : State} {r : DataRegs}

theorem State.withRegs_color (h : r.get .color = s.regs.get .color) :
    (s.withRegs r).color = s.color := congrArg (·.val.toNat) h

theorem State.withRegs_p0 (h : r.get .p0 = s.regs.get .p0) : (s.withRegs r).p0 = s.p0 :=
  congrArg (·.val.toNat) h

theorem State.withRegs_p1 (h : r.get .p1 = s.regs.get .p1) : (s.withRegs r).p1 = s.p1 :=
  congrArg (·.val.toNat) h

theorem State.withRegs_p2 (h : r.get .p2 = s.regs.get .p2) : (s.withRegs r).p2 = s.p2 :=
  congrArg (·.val.toNat) h

theorem State.withRegs_p3 (h : r.get .p3 = s.regs.get .p3) : (s.withRegs r).p3 = s.p3 :=
  congrArg (·.val.toNat) h

theorem State.withRegs_p4 (h : r.get .p4 = s.regs.get .p4) : (s.withRegs r).p4 = s.p4 :=
  congrArg (·.val.toNat) h

theorem State.withRegs_p5 (h : r.get .p5 = s.regs.get .p5) : (s.withRegs r).p5 = s.p5 :=
  congrArg (·.val.toNat) h

theorem State.withRegs_opaU8 (h : r.get .opaL = s.regs.get .opaL) :
    (s.withRegs r).opaU8 = s.opaU8 := congrArg (fun t => (t.val.toNat : Int)) h

theorem State.withRegs_opaS8 (h : r.get .opaL = s.regs.get .opaL) :
    (s.withRegs r).opaS8 = s.opaS8 := congrArg (·.val.toInt) h

theorem State.withRegs_opaS16 (hl : r.get .opaL = s.regs.get .opaL)
    (hh : r.get .opaH = s.regs.get .opaH) : (s.withRegs r).opaS16 = s.opaS16 :=
  congrArg₂ (fun h l : Tracked => (h.val ++ l.val : BitVec 16).toInt) hh hl

theorem State.withRegs_opbU8 (h : r.get .opb = s.regs.get .opb) :
    (s.withRegs r).opbU8 = s.opbU8 := congrArg (fun t => (t.val.toNat : Int)) h

theorem State.withRegs_opbS8 (h : r.get .opb = s.regs.get .opb) :
    (s.withRegs r).opbS8 = s.opbS8 := congrArg (·.val.toInt) h

theorem State.withRegs_fbbase (h : DataRegs.AgreeOn [.fbbaseL, .fbbaseH] r s.regs) :
    (s.withRegs r).fbbase = s.fbbase :=
  congrArg₂ (fun h l : Tracked => h.val ++ l.val) (h .fbbaseH (by decide)) (h .fbbaseL (by decide))

theorem State.withRegs_misplaced (h : DataRegs.AgreeOn [.fbbaseL, .fbbaseH] r s.regs) :
    (s.withRegs r).misplaced = s.misplaced := by
  have hplaced : r.placed = s.regs.placed :=
    congrArg₂ (fun l h : Tracked => l.written && h.written) (h .fbbaseL (by decide))
      (h .fbbaseH (by decide))
  unfold State.misplaced
  rw [State.withRegs_fbbase h]
  exact congrArg (· && _) hplaced

theorem State.withRegs_pixelAddr (h : DataRegs.AgreeOn [.fbbaseL, .fbbaseH] r s.regs) (x y : Nat) :
    (s.withRegs r).pixelAddr x y = s.pixelAddr x y := by
  simp only [State.pixelAddr, State.withRegs_fbbase h]

theorem State.withRegs_pixel (h : DataRegs.AgreeOn [.fbbaseL, .fbbaseH] r s.regs) (x y : Nat) :
    (s.withRegs r).pixel x y = s.pixel x y := by
  simp only [State.pixel, State.withRegs_pixelAddr h]
  rfl

/-! ### The shared operations commute with replacing the register file -/

/-- Noting a command's reads looks at the marks of the registers read only (10 R37). -/
theorem State.noteReads_withRegs {ds : List DataReg} (h : DataRegs.AgreeOn ds r s.regs) :
    (s.withRegs r).noteReads ds = (s.noteReads ds).withRegs r := by
  have hmarks : (ds.all fun d => (r.get d).written) = ds.all fun d => (s.regs.get d).written :=
    Bool.eq_iff_iff.mpr <| by
      simp only [List.all_eq_true]
      exact forall₂_congr fun d hd => by rw [h d hd]
  simp only [State.noteReads, State.withRegs, hmarks]
  split <;> rfl

theorem State.noteByteRead_withRegs (a : Nat) :
    (s.withRegs r).noteByteRead a = (s.noteByteRead a).withRegs r :=
  (apply_ite (State.withRegs · r) (a ∈ s.unknown) (s.log .uninit s.cmdPos) s).symm

/-- Cell writes take their place from FBBASE and their color from COLOR, and read no other register
(20 R46, R47). -/
theorem State.putCells_withRegs (h : DataRegs.AgreeOn [.color, .fbbaseL, .fbbaseH] r s.regs)
    (ws : List CellWrite) : (s.withRegs r).putCells ws = (s.putCells ws).withRegs r := by
  have hfb := State.withRegs_fbbase fun d hd => h d (List.mem_cons_of_mem _ hd)
  have hcolor : (s.withRegs r).regs.color = s.regs.color := h .color (by decide)
  rw [State.putCells, hfb, hcolor]
  rfl

theorem State.drawCells_withRegs (h : DataRegs.AgreeOn [.color, .fbbaseL, .fbbaseH] r s.regs)
    (ws : List CellWrite) :
    (s.withRegs r).drawCells ws = mapNext (·.withRegs r) (s.drawCells ws) := by
  have hmis := State.withRegs_misplaced fun d hd => h d (List.mem_cons_of_mem _ hd)
  cases ws with
  | nil => rfl
  | cons w rest =>
    simp only [State.drawCells, hmis, State.putCells_withRegs h]
    split <;> rfl

theorem State.carryOut_withRegs (h : DataRegs.AgreeOn [.color, .fbbaseL, .fbbaseH] r s.regs) :
    ∀ p : Plan, (s.withRegs r).carryOut p = mapNext (·.withRegs r) (s.carryOut p)
  | .error _ => rfl
  | .ok ws => State.drawCells_withRegs h ws

/-! ### A plan reads the registers of its command (30 R64) -/

theorem State.badColor_withRegs (h : r.get .color = s.regs.get .color) :
    (s.withRegs r).badColor = s.badColor := by
  rw [State.badColor, State.withRegs_color h]
  rfl

/-- The three span commands have SPANTOP's row. -/
theorem State.spanFault_withRegs (h : DataRegs.AgreeOn (readSet .spantop) r s.regs) (par : Nat) :
    (s.withRegs r).spanFault par = s.spanFault par := by
  simp only [State.spanFault, State.badColor_withRegs (h .color (by decide)),
    State.withRegs_p0 (h .p0 (by decide)), State.withRegs_p1 (h .p1 (by decide)),
    State.withRegs_p2 (h .p2 (by decide))]

theorem State.planClear_withRegs (h : DataRegs.AgreeOn (readSet .clear) r s.regs) :
    (s.withRegs r).planClear = s.planClear := by
  simp only [State.planClear, State.badColor_withRegs (h .color (by decide))]

theorem State.planSetpix_withRegs (h : DataRegs.AgreeOn (readSet .setpix) r s.regs) :
    (s.withRegs r).planSetpix = s.planSetpix := by
  simp only [State.planSetpix, State.badColor_withRegs (h .color (by decide)),
    State.withRegs_p0 (h .p0 (by decide)), State.withRegs_p1 (h .p1 (by decide))]

theorem State.planSpantop_withRegs (h : DataRegs.AgreeOn (readSet .spantop) r s.regs) :
    (s.withRegs r).planSpantop = s.planSpantop := by
  simp only [State.planSpantop, State.spanFault_withRegs h, State.withRegs_p0 (h .p0 (by decide)),
    State.withRegs_p1 (h .p1 (by decide)), State.withRegs_p2 (h .p2 (by decide))]

theorem State.planSpanbot_withRegs (h : DataRegs.AgreeOn (readSet .spanbot) r s.regs) :
    (s.withRegs r).planSpanbot = s.planSpanbot := by
  simp only [State.planSpanbot, State.spanFault_withRegs h, State.withRegs_p0 (h .p0 (by decide)),
    State.withRegs_p1 (h .p1 (by decide)), State.withRegs_p2 (h .p2 (by decide))]

theorem State.planSpandual_withRegs (h : DataRegs.AgreeOn (readSet .spandual) r s.regs) :
    (s.withRegs r).planSpandual = s.planSpandual := by
  simp only [State.planSpandual, State.spanFault_withRegs h, State.withRegs_p0 (h .p0 (by decide)),
    State.withRegs_p1 (h .p1 (by decide)), State.withRegs_p2 (h .p2 (by decide))]

theorem State.planSpan2_withRegs (h : DataRegs.AgreeOn (readSet .span2) r s.regs) :
    (s.withRegs r).planSpan2 = s.planSpan2 := by
  simp only [State.planSpan2, State.span2Fault, State.badColor_withRegs (h .color (by decide)),
    State.withRegs_p0 (h .p0 (by decide)), State.withRegs_p1 (h .p1 (by decide)),
    State.withRegs_p2 (h .p2 (by decide)), State.withRegs_p4 (h .p4 (by decide)),
    State.withRegs_p5 (h .p5 (by decide))]

theorem State.fillFault_withRegs (h : DataRegs.AgreeOn (readSet .filltri) r s.regs) :
    (s.withRegs r).fillFault = s.fillFault := by
  simp only [State.fillFault, State.badColor_withRegs (h .color (by decide)),
    State.withRegs_p0 (h .p0 (by decide)), State.withRegs_p1 (h .p1 (by decide)),
    State.withRegs_p2 (h .p2 (by decide)), State.withRegs_p3 (h .p3 (by decide)),
    State.withRegs_p4 (h .p4 (by decide)), State.withRegs_p5 (h .p5 (by decide))]

/-- FILLTRI's outcome and cells come from the three vertices, the edge state and HALF_SLOPE
(42 R93). -/
theorem State.fill_withRegs (h : DataRegs.AgreeOn (readSet .filltri) r s.regs) :
    (s.withRegs r).fill = s.fill := by
  have vertex : ∀ {tx ty ux uy : Tracked}, tx = ux → ty = uy →
      (⟨tx.val, ty.val⟩ : Vertex) = ⟨ux.val, uy.val⟩ := fun hx hy => by rw [hx, hy]
  have ha : (s.withRegs r).vertexA = s.vertexA := vertex (h .p0 (by decide)) (h .p1 (by decide))
  have hb : (s.withRegs r).vertexB = s.vertexB := vertex (h .p2 (by decide)) (h .p3 (by decide))
  have hc : (s.withRegs r).vertexC = s.vertexC := vertex (h .p4 (by decide)) (h .p5 (by decide))
  simp only [State.fill, ha, hb, hc]
  rfl

/-! ### Each command commutes with replacing the register file -/

/-- An arithmetic command's end reads no register once its operands are known. -/
theorem State.noteReads_result_withRegs {ds : List DataReg} (h : DataRegs.AgreeOn ds r s.regs)
    (v : Int) : ((s.withRegs r).noteReads ds).result v
      = mapNext (·.withRegs r) ((s.noteReads ds).result v) := by
  rw [State.noteReads_withRegs h]
  rfl

/-- A drawing command's reads and then its cell writes, for cells that are the same. -/
theorem State.noteReads_drawCells_withRegs {ds : List DataReg} (h : DataRegs.AgreeOn ds r s.regs)
    (hds : [DataReg.color, .fbbaseL, .fbbaseH] ⊆ ds) (ws : List CellWrite) :
    ((s.withRegs r).noteReads ds).drawCells ws
      = mapNext (·.withRegs r) ((s.noteReads ds).drawCells ws) := by
  rw [State.noteReads_withRegs h]
  refine State.drawCells_withRegs (fun d hd => ?_) ws
  rw [State.noteReads_regs]
  exact h d (hds hd)

/-- A drawing command's reads and then its plan, for a plan that is the same. -/
theorem State.noteReads_carryOut_withRegs {ds : List DataReg} (h : DataRegs.AgreeOn ds r s.regs)
    (hds : [DataReg.color, .fbbaseL, .fbbaseH] ⊆ ds) {p q : Plan} (hp : q = p) :
    ((s.withRegs r).noteReads ds).carryOut q
      = mapNext (·.withRegs r) ((s.noteReads ds).carryOut p) := by
  subst hp
  cases q with
  | error c => rw [State.noteReads_withRegs h]; rfl
  | ok ws => exact State.noteReads_drawCells_withRegs h hds ws

theorem execDivfx_withRegs (h : DataRegs.AgreeOn (readSet .divfx) r s.regs) :
    execDivfx (s.withRegs r) = mapNext (·.withRegs r) (execDivfx s) := by
  simp only [execDivfx, State.withRegs_opbU8 (h .opb (by decide)),
    State.withRegs_opaS8 (h .opaL (by decide)), State.noteReads_withRegs h]
  split <;> rfl

theorem execGetpix_withRegs (h : DataRegs.AgreeOn (readSet .getpix) r s.regs) :
    execGetpix (s.withRegs r) = mapNext (·.withRegs r) (execGetpix s) := by
  have hfb : DataRegs.AgreeOn [.fbbaseL, .fbbaseH] r s.regs := fun d hd =>
    h d (List.mem_cons_of_mem _ (List.mem_cons_of_mem _ hd))
  simp only [execGetpix, State.withRegs_p0 (h .p0 (by decide)),
    State.withRegs_p1 (h .p1 (by decide)), State.withRegs_misplaced hfb,
    State.withRegs_pixelAddr hfb, State.withRegs_pixel hfb, State.noteReads_withRegs h,
    State.noteByteRead_withRegs]
  split_ifs <;> rfl

theorem execFilltri_withRegs (h : DataRegs.AgreeOn (readSet .filltri) r s.regs) :
    execFilltri (s.withRegs r) = mapNext (·.withRegs r) (execFilltri s) := by
  unfold execFilltri
  rw [State.fillFault_withRegs h, State.fill_withRegs h]
  cases s.fillFault with
  | some code => simp only [State.noteReads_withRegs h]; rfl
  | none =>
    simp only [State.noteReads_drawCells_withRegs h (by decide)]
    cases (s.noteReads (readSet .filltri)).drawCells s.fill.2 <;> rfl

/-- A command run on a register file that agrees on its read set has the outcome it has, but for the
register file (00 R13, 30 R64). -/
theorem exec_withRegs (i : Instr) (h : DataRegs.AgreeOn (readSet i) r s.regs) :
    exec i (s.withRegs r) = mapNext (·.withRegs r) (exec i s) := by
  cases i with
  | nop => rfl
  | clrerr => rfl
  | mulu8 =>
    simp only [exec, execMulu8, State.withRegs_opaU8 (h .opaL (by decide)),
      State.withRegs_opbU8 (h .opb (by decide)), State.noteReads_result_withRegs h]
  | muls8 =>
    simp only [exec, execMuls8, State.withRegs_opaS8 (h .opaL (by decide)),
      State.withRegs_opbS8 (h .opb (by decide)), State.noteReads_result_withRegs h]
  | muls8u8 =>
    simp only [exec, execMuls8u8, State.withRegs_opaS8 (h .opaL (by decide)),
      State.withRegs_opbU8 (h .opb (by decide)), State.noteReads_result_withRegs h]
  | muls16u8 =>
    simp only [exec, execMuls16u8,
      State.withRegs_opaS16 (h .opaL (by decide)) (h .opaH (by decide)),
      State.withRegs_opbU8 (h .opb (by decide)), State.noteReads_result_withRegs h]
  | divfx => exact execDivfx_withRegs h
  | clear => exact State.noteReads_carryOut_withRegs h (by decide) (State.planClear_withRegs h)
  | setpix => exact State.noteReads_carryOut_withRegs h (by decide) (State.planSetpix_withRegs h)
  | getpix => exact execGetpix_withRegs h
  | spantop => exact State.noteReads_carryOut_withRegs h (by decide) (State.planSpantop_withRegs h)
  | spanbot => exact State.noteReads_carryOut_withRegs h (by decide) (State.planSpanbot_withRegs h)
  | spandual => exact State.noteReads_carryOut_withRegs h (by decide) (State.planSpandual_withRegs h)
  | filltri => exact execFilltri_withRegs h
  | span2 => exact State.noteReads_carryOut_withRegs h (by decide) (State.planSpan2_withRegs h)

end

/-- Settles O54: the changed register file agrees with the old one on the read set, and the command
leaves the registers as they are. -/
theorem commandsReadOnlyTheirOperands : Obligations.CommandsReadOnlyTheirOperands := by
  intro i s d x hd
  have hexec := exec_withRegs (s := s) i (DataRegs.agreeOn_set x hd)
  refine ⟨fun t ht => ?_, fun e he => ?_⟩
  · rw [ht, mapNext_next] at hexec
    rw [(exec_unitWrites ht).regs_eq]
    exact hexec
  · rw [he, mapNext_refused] at hexec
    exact hexec

end Sys2Proof.Machine
end

section
/-! What a command leaves when it answers a next state, said once for all commands: the inversion lemma
that the claims about RES, TRIRES, ERR, the record and the invariant go through. -/

namespace Sys2Proof.Machine

/-! ### The fields the shared operations leave alone -/

/-- Noting GETPIX's read changes nothing but the record, which grows (70 R146). -/
theorem State.noteByteRead_eq (s : State) (a : Nat) :
    ∃ l, s.noteByteRead a = { s with record := s.record ++ l } := by
  unfold State.noteByteRead
  split
  · exact ⟨[{ kind := .uninit, pos := s.cmdPos }], rfl⟩
  · exact ⟨[], by rw [List.append_nil]⟩

/-- Cell writes change nothing but memory, the unknown bytes and the record, which grows
(20 R46, 70 R146). -/
theorem State.drawCells_eq {s t : State} {ws : List CellWrite} (h : s.drawCells ws = .next t) :
    ∃ m u l, t = { s with mem := m, unknown := u, record := s.record ++ l } := by
  rcases State.drawCells_next h with ⟨-, rfl⟩ | ⟨-, -, rfl⟩
  · exact ⟨t.mem, t.unknown, [], by rw [List.append_nil]⟩
  · obtain ⟨l, hl, -⟩ := State.putCells_uninit s ws
    exact ⟨(s.putCells ws).mem, (s.putCells ws).unknown, l, by rw [← hl]; rfl⟩

/-! ### The faults of a plan -/

/-- The span checks raise an architectural fault, never the code 0x00 (41 R80). -/
theorem State.spanFault_ne_none (s : State) (par : Nat) : s.spanFault par ≠ some .none := by
  unfold State.spanFault; split_ifs <;> simp

theorem State.span2Fault_ne_none (s : State) : s.span2Fault ≠ some .none := by
  unfold State.span2Fault; split_ifs <;> simp

theorem State.fillFault_ne_none (s : State) : s.fillFault ≠ some .none := by
  unfold State.fillFault; split_ifs <;> simp

theorem State.planSpantop_ne_none (s : State) : s.planSpantop ≠ .error .none := by
  unfold State.planSpantop
  split
  · next hf => simpa [hf] using s.spanFault_ne_none 0
  · simp

theorem State.planSpanbot_ne_none (s : State) : s.planSpanbot ≠ .error .none := by
  unfold State.planSpanbot
  split
  · next hf => simpa [hf] using s.spanFault_ne_none 1
  · simp

theorem State.planSpandual_ne_none (s : State) : s.planSpandual ≠ .error .none := by
  unfold State.planSpandual
  split
  · next hf => simpa [hf] using s.spanFault_ne_none 0
  · simp

theorem State.planSpan2_ne_none (s : State) : s.planSpan2 ≠ .error .none := by
  unfold State.planSpan2
  split
  · next hf => simpa [hf] using s.span2Fault_ne_none
  · simp

theorem State.planClear_ne_none (s : State) : s.planClear ≠ .error .none := by
  unfold State.planClear; split <;> simp

theorem State.planSetpix_ne_none (s : State) : s.planSetpix ≠ .error .none := by
  unfold State.planSetpix; split_ifs <;> simp

/-- No FILLTRI is discarded for zero height: such a triangle is culled first (42 R96). -/
theorem State.fill_ne_zeroHeight (s : State) : s.fill.1 ≠ .zeroHeight := by
  unfold State.fill
  split
  · simp
  · next harea =>
    split
    · next hflat => exact absurd (signedArea_of_flat hflat).le harea
    · simp

/-! ### The inversion lemma -/

/-- What the command `i` can leave of the state `s` (30 R64). -/
inductive CommandEffect (s : State) : Instr → State → Prop
  /-- NOP does nothing (43 R116). -/
  | nop : CommandEffect s .nop s
  /-- CLRERR ends the error state (43 R117). -/
  | clrerr : CommandEffect s .clrerr s.clearErr
  /-- RES is written (40 R71, 41 R84). -/
  | result {i : Instr} (v : Res24)
      (hi : i ∈ [Instr.mulu8, .muls8, .muls8u8, .muls16u8, .divfx, .getpix]) :
      CommandEffect s i ((s.noteReads (readSet i)).setRes v)
  /-- GETPIX reads a byte of memory (41 R84). -/
  | pixel (a : Nat) (v : Res24) :
      CommandEffect s .getpix (((s.noteReads (readSet .getpix)).noteByteRead a).setRes v)
  /-- A fault is raised (60 R121). -/
  | fault {i : Instr} {c : FaultCode} (hc : c ≠ .none) :
      CommandEffect s i ((s.noteReads (readSet i)).raise c)
  /-- Cells are written (20 R46). -/
  | draw {i : Instr} {t : State} (ws : List CellWrite) (hi : writesMemory i = true)
      (ht : (s.noteReads (readSet i)).drawCells ws = .next t) : CommandEffect s i t
  /-- A FILLTRI ends without a fault (42 R93). -/
  | fill {u : State} {r : TriRes} (ws : List CellWrite) (hr : r ≠ .zeroHeight)
      (hu : (s.noteReads (readSet .filltri)).drawCells ws = .next u) :
      CommandEffect s .filltri (u.endFill r)

/-- A plan carried out has the effect of a drawing command. -/
theorem CommandEffect.of_carryOut {s t : State} {i : Instr} {p : Plan} (hi : writesMemory i = true)
    (hp : p ≠ .error .none) (h : (s.noteReads (readSet i)).carryOut p = .next t) :
    CommandEffect s i t := by
  cases p with
  | ok ws => exact .draw ws hi h
  | error c =>
    cases h
    exact .fault fun hc => hp (hc ▸ rfl)

/-- Everything a command can do when it answers a next state. -/
theorem exec_effect {i : Instr} {s t : State} (h : exec i s = .next t) : CommandEffect s i t := by
  cases i with
  | nop => cases h; exact .nop
  | clrerr => cases h; exact .clrerr
  | mulu8 => cases h; exact .result _ (by decide)
  | muls8 => cases h; exact .result _ (by decide)
  | muls8u8 => cases h; exact .result _ (by decide)
  | muls16u8 => cases h; exact .result _ (by decide)
  | divfx =>
    simp only [exec, execDivfx] at h
    split at h
    · cases h; exact .fault (by decide)
    · cases h; exact .result _ (by decide)
  | clear => exact .of_carryOut rfl s.planClear_ne_none h
  | setpix => exact .of_carryOut rfl s.planSetpix_ne_none h
  | getpix =>
    simp only [exec, execGetpix] at h
    split at h
    · split at h
      · cases h
      · cases h; exact .pixel _ _
    · cases h; exact .result _ (by decide)
  | spantop => exact .of_carryOut rfl s.planSpantop_ne_none h
  | spanbot => exact .of_carryOut rfl s.planSpanbot_ne_none h
  | spandual => exact .of_carryOut rfl s.planSpandual_ne_none h
  | filltri =>
    simp only [exec, execFilltri] at h
    split at h
    · next code hf =>
      cases h
      exact .fault fun hc => s.fillFault_ne_none (hc ▸ hf)
    · split at h
      · next u hu => cases h; exact .fill _ s.fill_ne_zeroHeight hu
      · cases h
      · cases h
  | span2 => exact .of_carryOut rfl s.planSpan2_ne_none h

/-! ### What each command does to ERR, RES, TRIRES and the record -/

section
variable {i : Instr} {s t : State}

/-- A command keeps ERR and ERRCODE, or is CLRERR and clears them, or sets them with a fault
(43 R117, 60 R121). -/
theorem CommandEffect.err_cases (h : CommandEffect s i t) :
    (t.err = s.err ∧ t.errCode = s.errCode) ∨
      (i = .clrerr ∧ t.err = false ∧ t.errCode = .none) ∨ (t.err = true ∧ t.errCode ≠ .none) := by
  cases h with
  | nop => exact .inl ⟨rfl, rfl⟩
  | clrerr => exact .inr (.inl ⟨rfl, rfl, rfl⟩)
  | result v _ => exact .inl (by simp)
  | pixel a v =>
    obtain ⟨l, hl⟩ := (s.noteReads (readSet .getpix)).noteByteRead_eq a
    exact .inl (by simp [hl])
  | fault hc => exact .inr (.inr ⟨rfl, hc⟩)
  | draw ws _ ht =>
    obtain ⟨m, u, l, rfl⟩ := State.drawCells_eq ht
    exact .inl (by simp)
  | fill ws _ hu =>
    obtain ⟨m, u, l, rfl⟩ := State.drawCells_eq hu
    exact .inl (by simp)

/-- RES is written by the arithmetic commands and GETPIX only (10 R28). -/
theorem CommandEffect.res_eq (h : CommandEffect s i t)
    (hi : i ∉ [Instr.mulu8, .muls8, .muls8u8, .muls16u8, .divfx, .getpix]) :
    t.res = s.res ∧ t.resWritten = s.resWritten := by
  cases h with
  | nop => exact ⟨rfl, rfl⟩
  | clrerr => exact ⟨rfl, rfl⟩
  | result v hres => exact absurd hres hi
  | pixel a v => exact absurd (by decide) hi
  | fault _ => simp
  | draw ws _ ht =>
    obtain ⟨m, u, l, rfl⟩ := State.drawCells_eq ht
    simp
  | fill ws _ hu =>
    obtain ⟨m, u, l, rfl⟩ := State.drawCells_eq hu
    simp

/-- TRIRES and the edge state are as before, or a FILLTRI has ended with an outcome other than 0x02
(10 R23, R33, 42 R96). -/
theorem CommandEffect.triRes_cases (h : CommandEffect s i t) :
    (t.triRes = s.triRes ∧ t.edge = s.edge) ∨ (i = .filltri ∧ t.triRes ≠ .zeroHeight) := by
  cases h with
  | nop => exact .inl ⟨rfl, rfl⟩
  | clrerr => exact .inl ⟨rfl, rfl⟩
  | result v _ => exact .inl (by simp)
  | pixel a v =>
    obtain ⟨l, hl⟩ := (s.noteReads (readSet .getpix)).noteByteRead_eq a
    exact .inl (by simp [hl])
  | fault _ => exact .inl (by simp)
  | draw ws _ ht =>
    obtain ⟨m, u, l, rfl⟩ := State.drawCells_eq ht
    exact .inl (by simp)
  | fill ws hr _ => exact .inr ⟨rfl, hr⟩

/-- Whatever path a command takes, the record keeps what noting its reads has left (10 R37). -/
theorem CommandEffect.record_noted (h : CommandEffect s i t) :
    ∃ l, t.record = (s.noteReads (readSet i)).record ++ l := by
  cases h with
  | nop => exact ⟨[], by rw [List.append_nil]; rfl⟩
  | clrerr => exact ⟨[], by rw [List.append_nil]; rfl⟩
  | result v _ => exact ⟨[], by simp⟩
  | pixel a v =>
    obtain ⟨l, hl⟩ := (s.noteReads (readSet .getpix)).noteByteRead_eq a
    exact ⟨l, by simp [hl]⟩
  | fault _ => exact ⟨_, rfl⟩
  | draw ws _ ht =>
    obtain ⟨m, u, l, rfl⟩ := State.drawCells_eq ht
    exact ⟨l, rfl⟩
  | fill ws _ hu =>
    obtain ⟨m, u, l, rfl⟩ := State.drawCells_eq hu
    exact ⟨l, rfl⟩

end

/-- Settles O56: the inversion lemma's cases, read for RES, for TRIRES with the edge state, and for
ERR. -/
theorem resultRegistersAreWrittenByTheirCommandsOnly :
    Obligations.ResultRegistersAreWrittenByTheirCommandsOnly := by
  intro i s t h
  have heffect := exec_effect h
  refine ⟨heffect.res_eq, fun hi => ?_, fun hi herr => ?_⟩
  · exact heffect.triRes_cases.resolve_right fun hfill => hi hfill.1
  · rcases heffect.err_cases with ⟨hkept, -⟩ | ⟨hclr, -⟩ | ⟨hset, -⟩
    · exact hkept.trans herr
    · exact absurd hclr hi
    · exact hset

/-- Settles O52: a command's first act is to note its reads, and what it records after that comes
behind. -/
theorem unwrittenOperandIsRecorded : Obligations.UnwrittenOperandIsRecorded := by
  refine ⟨fun i => ⟨readSet i, by cases i <;> decide, fun _ => Iff.rfl⟩, fun i s t d hd hu h => ?_⟩
  obtain ⟨l, hl⟩ := (exec_effect h).record_noted
  rw [hl, State.noteReads_unwritten s _ d hd hu]
  simp

end Sys2Proof.Machine
end

section
/-! O59 and O60. The invariant: the launch state has it, and each move of the unit, of the host and of
the reset input keeps it. -/

namespace Sys2Proof.Machine

/-- Settles O59: every field of the launch state is a literal. -/
theorem launchStateMeetsTheInvariant : Obligations.LaunchStateMeetsTheInvariant where
  memory := rfl
  unknown := rfl
  handshake := rfl
  errCode := by decide
  sticky := by decide
  awaiting := by decide
  quiet := by decide
  triRes := by decide

/-! ### The unit's step -/

/-- A command keeps what the invariant says of memory, ERRCODE and TRIRES, and with its completion the
unit is IDLE, so that the rest holds (10 R20, R22, 42 R96). -/
theorem State.Inv.exec_complete {i : Instr} {s t : State} (hinv : s.Inv) (h : exec i s = .next t) :
    t.complete.Inv where
  memory := by
    obtain ⟨ws, -, hmem, -⟩ := exec_writesCells h
    rw [State.complete_mem, hmem]
    exact writeCells_wf ws hinv.memory
  unknown := by
    obtain ⟨ws, -, -, hunknown⟩ := exec_writesCells h
    rw [State.complete_unknown, hunknown]
    exact filter_rising hinv.unknown
  handshake := rfl
  errCode := by
    rw [State.complete_err, State.complete_errCode]
    rcases (exec_effect h).err_cases with ⟨herr, hcode⟩ | ⟨-, herr, hcode⟩ | ⟨herr, hcode⟩
    · rw [herr, hcode]; exact hinv.errCode
    · simp [herr, hcode]
    · simp [herr, hcode]
  sticky := fun hbusy => by simp at hbusy
  awaiting := fun hbusy => by simp at hbusy
  quiet := fun _ => rfl
  triRes := by
    rw [State.complete_triRes]
    rcases (exec_effect h).triRes_cases with ⟨hkept, -⟩ | ⟨-, hfill⟩
    · rw [hkept]; exact hinv.triRes
    · exact hfill

/-- A reserved byte raises ILLEGAL_CMD and completes (60 R119). -/
theorem State.Inv.raise_complete {s : State} (hinv : s.Inv) {c : FaultCode} (hc : c ≠ .none) :
    (s.raise c).complete.Inv where
  memory := hinv.memory
  unknown := hinv.unknown
  handshake := rfl
  errCode := by simp [hc]
  sticky := fun hbusy => by simp at hbusy
  awaiting := fun hbusy => by simp at hbusy
  quiet := fun _ => rfl
  triRes := hinv.triRes

theorem State.Inv.unitStep {op : Byte} {s t : State} (hinv : s.Inv)
    (h : unitStep op s = .next t) : t.Inv := by
  rcases unitStep_next h with ⟨i, u, -, he, rfl⟩ | ⟨e, -, rfl⟩
  · exact hinv.exec_complete he
  · exact hinv.raise_complete (by decide)

/-! ### The host's moves -/

/-- The invariant looks at no data register, not at the record, and at nothing of the host's side but
the awaited completion. -/
theorem State.Inv.of_eq {s t : State} (hinv : s.Inv)
    (h : t = { s with
      regs := t.regs, record := t.record, script := t.script, pos := t.pos, obs := t.obs
      turns := t.turns }) : t.Inv := by
  rw [h]
  exact { hinv with }

theorem State.Inv.taken {s : State} (hinv : s.Inv) (rest : List HostOp) : (s.taken rest).Inv :=
  hinv.of_eq rfl

theorem State.Inv.observe {s : State} (hinv : s.Inv) (v : Option Byte) : (s.observe v).Inv :=
  hinv.of_eq rfl

theorem State.Inv.log {s : State} (hinv : s.Inv) (k : RecordKind) (pos : Nat) : (s.log k pos).Inv :=
  hinv.of_eq rfl

theorem State.Inv.setData {s : State} (hinv : s.Inv) (d : DataReg) (v : Byte) :
    (s.setData d v).Inv := hinv.of_eq rfl

theorem State.Inv.noteRegion {s : State} (hinv : s.Inv) (pos : Nat) : (s.noteRegion pos).Inv := by
  rcases s.noteRegion_cases pos with ⟨-, -, hlog⟩ | ⟨-, hsame⟩
  · rw [hlog]; exact hinv.log _ _
  · rw [hsame]; exact hinv

/-- A STATUS read observes a completion only when no command is BUSY (70 R137). -/
theorem State.Inv.sawStatus {s : State} (hinv : s.Inv) : s.sawStatus.Inv :=
  { hinv with
    awaiting := fun hbusy => by
      rw [State.sawStatus_busy] at hbusy
      rw [State.sawStatus_awaiting, hinv.awaiting hbusy, hbusy]
      rfl }

/-- An accepted command byte is LASTCMD, and while ERR = 1 it is CLRERR (10 R19). -/
theorem State.Inv.issue {s : State} (hinv : s.Inv) (hreset : s.inReset = false) (v : Byte)
    (pos : Nat) : (s.issue v pos).Inv := by
  unfold State.issue
  split
  · exact hinv
  · next haccepted =>
    exact { hinv with
      handshake := rfl
      sticky := fun _ herr => by simpa [clrerrByte, show s.err = true from herr] using haccepted
      awaiting := fun _ => rfl
      quiet := fun h => by simp [hreset] at h }

theorem State.Inv.writeReg {s : State} (hinv : s.Inv) (hreset : s.inReset = false) (off : Offset)
    (v : Byte) (pos : Nat) : (s.writeReg off v pos).Inv := by
  unfold State.writeReg
  split
  · exact hinv.issue hreset v pos
  · exact hinv.setData _ v
  all_goals exact hinv

theorem State.Inv.hostWrite {s : State} (hinv : s.Inv) (off : Offset) (v : Byte) (pos : Nat) :
    (s.hostWrite off v pos).Inv := by
  unfold State.hostWrite
  split
  · exact hinv.log _ _
  · next hfree =>
    rw [Bool.or_eq_true, not_or, Bool.not_eq_true] at hfree
    exact hinv.writeReg hfree.1 off v pos

theorem State.Inv.hostRead {s : State} (hinv : s.Inv) (off : Offset) (pos : Nat) :
    (s.hostRead off pos).Inv := by
  unfold State.hostRead
  split_ifs
  · exact (hinv.log _ _).observe _
  · exact hinv.sawStatus.observe _
  · exact (hinv.log _ _).observe _
  · exact (hinv.log _ _).observe _
  · exact hinv.observe _

/-- A host memory write keeps both canonical forms. -/
theorem State.Inv.hostWriteMem {s : State} (hinv : s.Inv) (a : Addr) (v : Byte) (pos : Nat) :
    (s.hostWriteMem a v pos).Inv := by
  unfold State.hostWriteMem
  split
  · exact hinv.log _ _
  · exact { hinv.noteRegion pos with
      memory := Mem.write_wf a.isLt hinv.memory
      unknown := filter_rising hinv.unknown }

theorem State.Inv.hostReadMem {s : State} (hinv : s.Inv) (a : Addr) (pos : Nat) :
    (s.hostReadMem a pos).Inv := by
  unfold State.hostReadMem
  split_ifs
  · exact (hinv.log _ _).observe _
  · exact ((hinv.noteRegion pos).log _ _).observe _
  · exact (hinv.noteRegion pos).observe _

/-- Asserting reset leaves the unit IDLE and without an error, over memory in canonical form
(70 R133, R146). -/
theorem State.Inv.assertReset {s t : State} (hinv : s.Inv) (h : s.assertReset = .next t) : t.Inv := by
  obtain ⟨-, rfl⟩ := State.assertReset_next h
  have haddrs : ∀ a ∈ s.abandoned.map fun w => cellAddr s.fbbase w.off, a < 65536 :=
    List.forall_mem_map.mpr fun w _ => cellAddr_lt s.fbbase w.off
  obtain ⟨-, hmem, hunknown, -, -⟩ := State.forget_spec _ s.noteAbandoned haddrs
  exact {
    memory := hmem (by rw [State.noteAbandoned_mem]; exact hinv.memory)
    unknown := hunknown (by rw [State.noteAbandoned_unknown]; exact hinv.unknown)
    handshake := rfl
    errCode := by simp
    sticky := fun hbusy => by simp at hbusy
    awaiting := fun hbusy => by simp at hbusy
    quiet := fun _ => rfl
    triRes := by simp }

theorem State.Inv.releaseReset {s : State} (hinv : s.Inv) : { s with inReset := false }.Inv :=
  { hinv with quiet := fun h => by simp at h }

theorem State.Inv.hostTurn {s t : State} (hinv : s.Inv) (h : s.hostTurn = .next t) : t.Inv := by
  rcases hostTurn_cases s with ⟨-, hidle⟩ | ⟨op, rest, -,
      ⟨off, v, -, hwrite⟩ | ⟨off, -, hread⟩ | ⟨-, -, -, hpoll⟩ | ⟨a, -, -, hrefused⟩ |
      ⟨a, v, -, -, hwriteMem⟩ | ⟨a, -, -, hreadMem⟩ | ⟨-, hassert⟩ | ⟨-, hrelease⟩⟩
  · cases hidle.symm.trans h; exact hinv
  · cases hwrite.symm.trans h; exact (hinv.taken rest).hostWrite off v s.pos
  · cases hread.symm.trans h; exact (hinv.taken rest).hostRead off s.pos
  · cases hpoll.symm.trans h; exact hinv.of_eq rfl
  · cases hrefused.symm.trans h
  · cases hwriteMem.symm.trans h; exact (hinv.taken rest).hostWriteMem a v s.pos
  · cases hreadMem.symm.trans h; exact (hinv.taken rest).hostReadMem a s.pos
  · exact (hinv.taken rest).assertReset (hassert.symm.trans h)
  · cases hrelease.symm.trans h; exact (hinv.taken rest).releaseReset

/-- Settles O60: a step is the unit's atomic step or a turn of the host, and both keep the
invariant. -/
theorem everyStepKeepsTheInvariant : Obligations.EveryStepKeepsTheInvariant := by
  intro s t hinv h
  obtain ⟨-, ⟨op, -, -, hunit⟩ | ⟨-, hhost⟩⟩ := step_next h
  · exact hinv.unitStep hunit
  · exact hinv.hostTurn hhost

end Sys2Proof.Machine
end

section
/-! O53. The hidden edge state carries nothing: a command run over another edge state does the same, and
what it leaves differs in the edge state at most. -/

namespace Sys2Proof.Machine

/-- The state with another hidden edge state. -/
def State.withEdge (s : State) (e : EdgeState) : State := { s with edge := e }

/-! ### The shared operations commute with replacing the edge state -/

theorem State.noteReads_withEdge (s : State) (e : EdgeState) (ds : List DataReg) :
    (s.withEdge e).noteReads ds = (s.noteReads ds).withEdge e :=
  (apply_ite (State.withEdge · e) ((ds.all fun d => (s.regs.get d).written) = true) s
    (s.log .uninit s.cmdPos)).symm

theorem State.noteByteRead_withEdge (s : State) (e : EdgeState) (a : Nat) :
    (s.withEdge e).noteByteRead a = (s.noteByteRead a).withEdge e :=
  (apply_ite (State.withEdge · e) (a ∈ s.unknown) (s.log .uninit s.cmdPos) s).symm

theorem State.drawCells_withEdge (s : State) (e : EdgeState) :
    ∀ ws, (s.withEdge e).drawCells ws = mapNext (·.withEdge e) (s.drawCells ws)
  | [] => rfl
  | w :: rest => by
    have hmis : (s.withEdge e).misplaced = s.misplaced := rfl
    simp only [State.drawCells, hmis]
    split <;> rfl

/-- A command's reads and then its plan. -/
theorem State.noteReads_carryOut_withEdge (s : State) (e : EdgeState) (ds : List DataReg) (p : Plan) :
    ((s.withEdge e).noteReads ds).carryOut p
      = mapNext (·.withEdge e) ((s.noteReads ds).carryOut p) := by
  rw [State.noteReads_withEdge]
  cases p with
  | error c => rfl
  | ok ws => exact State.drawCells_withEdge _ e ws

/-- An arithmetic command's end. -/
theorem State.noteReads_result_withEdge (s : State) (e : EdgeState) (ds : List DataReg) (r : Int) :
    ((s.withEdge e).noteReads ds).result r
      = mapNext (·.withEdge e) ((s.noteReads ds).result r) := by
  rw [State.noteReads_withEdge]
  rfl

/-! ### Each command -/

theorem execDivfx_withEdge (s : State) (e : EdgeState) :
    execDivfx (s.withEdge e) = mapNext (·.withEdge e) (execDivfx s) := by
  have hdivisor : (s.withEdge e).opbU8 = s.opbU8 := rfl
  simp only [execDivfx, hdivisor, State.noteReads_withEdge]
  split <;> rfl

theorem execGetpix_withEdge (s : State) (e : EdgeState) :
    execGetpix (s.withEdge e) = mapNext (·.withEdge e) (execGetpix s) := by
  have hx : (s.withEdge e).p0 = s.p0 := rfl
  have hy : (s.withEdge e).p1 = s.p1 := rfl
  have hmis : (s.withEdge e).misplaced = s.misplaced := rfl
  simp only [execGetpix, hx, hy, hmis, State.noteReads_withEdge, State.noteByteRead_withEdge]
  split_ifs <;> rfl

/-- FILLTRI writes every field of the edge state before it reads it (10 R33). -/
theorem State.fill_withEdge (s : State) (e : EdgeState) : (s.withEdge e).fill = s.fill := by
  simp only [State.fill, State.withEdge, State.vertexA, State.vertexB, State.vertexC,
    fillWalk_cells_edge s.edge e]
  rfl

/-- FILLTRI leaves the edge state it found when it faults, and a free one when it ends. -/
theorem execFilltri_withEdge (s : State) (e : EdgeState) :
    ∃ e', execFilltri (s.withEdge e) = mapNext (·.withEdge e') (execFilltri s) := by
  have hfault : (s.withEdge e).fillFault = s.fillFault := rfl
  unfold execFilltri
  rw [hfault, State.fill_withEdge, State.noteReads_withEdge]
  cases s.fillFault with
  | some code => exact ⟨e, rfl⟩
  | none =>
    dsimp only
    rw [State.drawCells_withEdge]
    cases (s.noteReads (readSet .filltri)).drawCells s.fill.2 with
    | next u => exact ⟨Config.freeEdge u.draws, rfl⟩
    | fault f => exact ⟨e, rfl⟩
    | refused r => exact ⟨e, rfl⟩

/-- A command run over another edge state has the outcome it has, but for the edge state (10 R33). -/
theorem exec_withEdge (i : Instr) (s : State) (e : EdgeState) :
    ∃ e', exec i (s.withEdge e) = mapNext (·.withEdge e') (exec i s) := by
  cases i with
  | nop => exact ⟨e, rfl⟩
  | clrerr => exact ⟨e, rfl⟩
  | mulu8 => exact ⟨e, State.noteReads_result_withEdge s e _ _⟩
  | muls8 => exact ⟨e, State.noteReads_result_withEdge s e _ _⟩
  | muls8u8 => exact ⟨e, State.noteReads_result_withEdge s e _ _⟩
  | muls16u8 => exact ⟨e, State.noteReads_result_withEdge s e _ _⟩
  | divfx => exact ⟨e, execDivfx_withEdge s e⟩
  | clear => exact ⟨e, State.noteReads_carryOut_withEdge s e _ _⟩
  | setpix => exact ⟨e, State.noteReads_carryOut_withEdge s e _ _⟩
  | getpix => exact ⟨e, execGetpix_withEdge s e⟩
  | spantop => exact ⟨e, State.noteReads_carryOut_withEdge s e _ _⟩
  | spanbot => exact ⟨e, State.noteReads_carryOut_withEdge s e _ _⟩
  | spandual => exact ⟨e, State.noteReads_carryOut_withEdge s e _ _⟩
  | filltri => exact execFilltri_withEdge s e
  | span2 => exact ⟨e, State.noteReads_carryOut_withEdge s e _ _⟩

/-- Settles O53: the outcome over another edge state is the same outcome but for the edge state. -/
theorem edgeStateCarriesNothing : Obligations.EdgeStateCarriesNothing := by
  intro i s e
  obtain ⟨e', hexec⟩ := exec_withEdge i s e
  refine ⟨fun t ht => ⟨t.withEdge e', ?_, rfl⟩, fun r hr => ?_⟩
  · rw [ht] at hexec; exact hexec
  · rw [hr] at hexec; exact hexec

end Sys2Proof.Machine
end

section
/-! The register map of 10 R16 as a bijection between the registers and their offsets, and O4. -/

namespace Sys2Proof

/-! ### The register map -/

theorem Reg.ofOffset_offset (r : Reg) : Reg.ofOffset r.offset = some r := by
  cases r with
  | data d => cases d <;> rfl
  | _ => rfl

/-- The register at an offset has that offset: the 32 offsets, one by one. -/
theorem Reg.offset_of_mem_ofOffset : ∀ off, ∀ r ∈ Reg.ofOffset off, off = r.offset := by decide

/-- The decoding of offsets is the inverse of the offsets (10 R16). -/
theorem Reg.ofOffset_eq_some_iff {off : Offset} {r : Reg} :
    Reg.ofOffset off = some r ↔ off = r.offset :=
  ⟨fun h => Reg.offset_of_mem_ofOffset off r h, fun h => h ▸ Reg.ofOffset_offset r⟩

/-- The table of 10 R16, written out. -/
def regTable : List (Offset × Reg) :=
  [(0x00, .cmd), (0x01, .status), (0x02, .errCode), (0x03, .triRes),
    (0x04, .data .fbbaseL), (0x05, .data .fbbaseH), (0x06, .data .opaL), (0x07, .data .opaH),
    (0x08, .data .opb), (0x09, .data .color), (0x0A, .res0), (0x0B, .res1), (0x0C, .res2),
    (0x10, .data .p0), (0x11, .data .p1), (0x12, .data .p2), (0x13, .data .p3),
    (0x14, .data .p4), (0x15, .data .p5)]

theorem offset_eq_iff_mem_regTable {off : Offset} {r : Reg} :
    off = r.offset ↔ (off, r) ∈ regTable := by
  constructor
  · rintro rfl
    cases r with
    | data d => cases d <;> decide
    | _ => decide
  · have hrows : ∀ p ∈ regTable, p.1 = p.2.offset := by decide
    exact hrows (off, r)

/-! ### The bytes of an immediate (30 R66, R67) -/

/-- The low byte of a two's-complement number is the number modulo 256. -/
theorem toNat_ofInt_byte (v : Int) : ((BitVec.ofInt 8 v).toNat : Int) = v % 256 := by
  rw [BitVec.toNat_ofInt]
  omega

/-- The high byte of a 16-bit two's-complement number. -/
theorem toNat_highByte_ofInt (v : Int) :
    (((BitVec.ofInt 16 v).extractLsb' 8 8).toNat : Int) = v / 256 % 256 := by
  rw [BitVec.extractLsb'_toNat, BitVec.toNat_ofInt, Nat.shiftRight_eq_div_pow]
  omega

/-- The high byte of a 16-bit register stands at the next offset (10 R24, R25). -/
theorem Reg16.high_offset (r : Reg16) : r.high.offset = r.low.offset + 1 := by
  cases r <;> decide

/-- Settles O4: the register map is a bijection with the table's rows, and each immediate is written
by its two's-complement bytes. -/
theorem scriptWritesTheBytesOfItsImmediates : Obligations.ScriptWritesTheBytesOfItsImmediates :=
  ⟨fun _ _ => ⟨Reg.ofOffset_eq_some_iff, offset_eq_iff_mem_regTable⟩, fun _ => rfl,
    fun _ v _ => ⟨_, rfl, toNat_ofInt_byte v⟩, fun _ v _ => ⟨_, rfl, toNat_ofInt_byte v⟩,
    fun r v _ => ⟨_, _, rfl, toNat_ofInt_byte v, toNat_highByte_ofInt v, r.high_offset⟩⟩

end Sys2Proof
end

section
/-! O5, O6 and O7. The unit's turn: a step that runs the BUSY command, and how long a host that only
waits has to wait for it. -/

namespace Sys2Proof.Machine

/-- On the unit's turn a step is the unit's atomic step on the BUSY byte (10 R20). -/
theorem step_unitsTurn {s : State} {op : Byte} (hz : s.hazarded = false) (hs : s.seq = .busy op)
    (hu : s.unitsTurn = true) : step s = unitStep op s := by
  simp [step, hz, hs, hu]

/-- The unit's step on a byte that decodes is that command, completed (10 R20). -/
theorem unitStep_ok {op : Byte} {i : Instr} (h : decode op = .ok i) (s : State) :
    unitStep op s = completeOutcome (exec i s) := by
  simp [unitStep, h]

/-- Settles O5: the unit's turn runs the decoded command, and completing an outcome clears BUSY and
the sequencer in a next state. -/
theorem stepRunsTheBusyCommand : Obligations.StepRunsTheBusyCommand := by
  intro s op i hz hs hu hd
  refine ⟨by cases i <;> rfl, ?_⟩
  rw [step_unitsTurn hz hs hu, unitStep_ok hd]
  cases exec i s <;> rfl

/-- A table word that is a command is that command's byte (30 R59). -/
theorem decode_of_decodeTableWord {nbits w : Nat} {i : Instr} (h : decodeTableWord nbits w = some i) :
    decode (BitVec.ofNat 8 w) = .ok i := by
  unfold decodeTableWord at h
  split at h
  · split at h
    · next j hj => cases h; exact hj
    · cases h
  · cases h

/-- Settles O6: the placed word is BUSY with no host turn left, so the unit moves next. -/
theorem placedCommandIsRunNext : Obligations.PlacedCommandIsRunNext := by
  intro s nbits w i hz hw
  rw [step_unitsTurn (s := s.withFetchWord nbits w) hz rfl rfl,
    unitStep_ok (decode_of_decodeTableWord hw)]

/-! ### A host that waits -/

/-- While a command is BUSY and the host has turns left, a step at a `wait` is a poll
(30 R67; log 13). -/
theorem step_poll {s : State} {rest : List HostOp} (hz : s.hazarded = false)
    (hr : s.inReset = false) (hb : s.busy = true) (hs : s.script = .wait :: rest)
    (ht : s.turns ≠ 0) : step s = .next s.poll := by
  have hturn : s.hostsTurn := ⟨hz, .inr (by simp [State.unitsTurn, hs, ht])⟩
  rw [step_hostsTurn hturn]
  simp [State.hostTurn, hs, Config.resolve, hr, hb]

/-- The state after `k` polls of a `wait`, each of which has observed STATUS. -/
def State.polled (s : State) (k : Nat) : State :=
  { s with turns := s.turns - k, obs := s.obs ++ List.replicate k (some s.status) }

theorem State.polled_zero (s : State) : s.polled 0 = s := by simp [State.polled]

/-- Polling changes nothing that STATUS shows, so that polls add up. -/
theorem State.poll_polled (s : State) (k : Nat) : s.poll.polled k = s.polled (k + 1) := by
  have hstatus : s.poll.status = s.status := rfl
  simp only [State.polled, hstatus, State.poll_turns, State.poll_obs, List.replicate_succ,
    List.append_assoc, List.singleton_append, Nat.sub_sub, Nat.add_comm 1 k]
  rfl

/-- A run takes its first step and runs on from there. -/
theorem run_succ (M : Host.Core) (k : Nat) {s t : M.State} (h : M.step s = .next t) :
    M.run (k + 1) s = M.run k t := by
  simp only [Host.Core.run, h]

/-- A run of one step is the step. -/
theorem run_one (M : Host.Core) (s : M.State) : M.run 1 s = M.step s := by
  simp only [Host.Core.run]
  cases M.step s <;> rfl

/-- A waiting host polls until its turns are used up, and then the unit takes its step. -/
theorem run_wait {op : Byte} {rest : List HostOp} (n : Nat) : ∀ s : State, s.turns = n →
    s.hazarded = false → s.inReset = false → s.seq = .busy op → s.busy = true →
    s.script = .wait :: rest →
    Host.Core.run Sys2Proof.core (n + 1) s = unitStep op (s.polled n) := by
  induction n with
  | zero =>
    intro s ht hz hr hq hb hs
    have hu : s.unitsTurn = true := by simp [State.unitsTurn, hr, ht]
    rw [State.polled_zero, ← step_unitsTurn hz hq hu]
    exact run_one Sys2Proof.core s
  | succ n ih =>
    intro s ht hz hr hq hb hs
    have hstep : step s = .next s.poll := step_poll hz hr hb hs (by omega)
    rw [← State.poll_polled, ← ih s.poll (by simp [ht]) hz hr hq hb hs]
    exact run_succ Sys2Proof.core (n + 1) hstep

/-- Settles O7, by induction on the host turns left. -/
theorem waitingHostSeesCompletion : Obligations.WaitingHostSeesCompletion := by
  intro s op rest hz hr hq hb hs
  rw [run_wait s.turns s rfl hz hr hq hb hs, State.polled, Nat.sub_self]

end Sys2Proof.Machine
end

section
/-! The register bytes a host reads and writes: O10, O17, O18, and the rules that the host's steps are
read through. -/

namespace Sys2Proof.Machine

/-! ### Reads -/

/-- A data register reads as its byte once it has its written mark (10 R37; log 16). -/
theorem State.readReg_data (s : State) (d : DataReg) :
    s.readReg d.offset = if (s.regs.get d).written then some (s.regs.get d).val else none := by
  cases d <;> rfl

theorem State.readReg_written {s : State} {d : DataReg} (h : (s.regs.get d).written = true) :
    s.readReg d.offset = some (s.regs.get d).val := by
  rw [State.readReg_data, if_pos h]

/-- A write of one data register is read at its offset and at no other (10 R32). -/
theorem State.readReg_setData (s : State) (d : DataReg) (v : Byte) (off : Offset) :
    (s.setData d v).readReg off = if off = d.offset then some v else s.readReg off := by
  split
  · next h =>
    rw [h, State.readReg_data]
    simp
  · next h =>
    unfold State.readReg
    cases hr : Reg.ofOffset off with
    | none => rfl
    | some r =>
      cases r with
      | data e =>
        have hne : e ≠ d := fun he => h (he ▸ Reg.ofOffset_eq_some_iff.mp hr)
        simp only [State.setData_regs, DataRegs.get_set_other _ _ _ _ hne]
      | _ => rfl

/-- The codes of 60 R118, written out. -/
def errCodeTable : List (FaultCode × Byte) :=
  [(.none, 0x00), (.illegalCmd, 0x01), (.divZero, 0x02), (.badColor, 0x03), (.range, 0x04),
    (.parity, 0x05)]

theorem FaultCode.byte_eq_iff {c : FaultCode} {v : Byte} : c.byte = v ↔ (c, v) ∈ errCodeTable := by
  constructor
  · rintro rfl
    cases c <;> decide
  · have hrows : ∀ p ∈ errCodeTable, p.1.byte = p.2 := by decide
    exact hrows (c, v)

/-- The outcomes of 10 R23, written out. -/
def triResTable : List (TriRes × Byte) :=
  [(.drawn, 0x00), (.culled, 0x01), (.zeroHeight, 0x02), (.noneYet, 0xFF)]

theorem TriRes.byte_eq_iff {r : TriRes} {v : Byte} : r.byte = v ↔ (r, v) ∈ triResTable := by
  constructor
  · rintro rfl
    cases r <;> decide
  · have hrows : ∀ p ∈ triResTable, p.1.byte = p.2 := by decide
    exact hrows (r, v)

/-- STATUS in numbers: BUSY weighs 1 and ERR weighs 2 (10 R21). -/
theorem State.status_toNat (s : State) : s.status.toNat = s.busy.toNat + 2 * s.err.toNat := by
  unfold State.status
  cases s.busy <;> cases s.err <;> decide

/-- STATUS bits 7:2 read 0 (10 R21). -/
theorem State.status_lt (s : State) : s.status.toNat < 4 := by
  rw [State.status_toNat]
  have hbusy := s.busy.toNat_lt
  have herr := s.err.toNat_lt
  omega

/-- Settles O17: LASTCMD as it is, STATUS as two weighed bits, and the two codes by their tables. -/
theorem controlRegistersReadAsTheTables : Obligations.ControlRegistersReadAsTheTables := by
  intro s
  have hbusy : s.busy.toNat = 1 ↔ s.busy = true := Bool.toNat_eq_one
  have herr : s.err.toNat = 1 ↔ s.err = true := Bool.toNat_eq_one
  have hbusy_lt := s.busy.toNat_lt
  have herr_lt := s.err.toNat_lt
  refine ⟨rfl, ⟨s.status, rfl, ?_, ?_, ?_⟩, fun v => ?_, fun v => ?_⟩
  · rw [State.status_toNat, ← hbusy]; omega
  · rw [State.status_toNat, ← herr]; omega
  · rw [State.status_toNat]; omega
  · exact Option.some_inj.trans FaultCode.byte_eq_iff
  · exact Option.some_inj.trans TriRes.byte_eq_iff

/-! ### Registers of more than one byte -/

/-- Two bytes joined, in numbers. -/
theorem toNat_append_bytes (hi lo : Byte) :
    (hi ++ lo : BitVec 16).toNat = 256 * hi.toNat + lo.toNat := by
  rw [BitVec.toNat_append, ← Nat.shiftLeft_add_eq_or_of_lt lo.isLt, Nat.shiftLeft_eq]
  omega

/-- The signed reading of a 16-bit number differs from the unsigned one by a multiple of 65536. -/
theorem toInt_emod_65536 (x : BitVec 16) : x.toInt % 65536 = x.toNat := by
  have := x.isLt
  rw [BitVec.toInt_eq_toNat_cond]
  split <;> omega

/-- A 24-bit number is its three bytes, weighed (10 R28). -/
theorem toNat_eq_three_bytes (x : Res24) :
    x.toNat = 65536 * (x.extractLsb' 16 8).toNat + 256 * (x.extractLsb' 8 8).toNat
      + (x.extractLsb' 0 8).toNat := by
  have := x.isLt
  simp only [BitVec.extractLsb'_toNat, Nat.shiftRight_eq_div_pow]
  omega

/-- Settles O10: each register's bytes stand at adjacent offsets, the low one first. -/
theorem littleEndianRegisters : Obligations.LittleEndianRegisters := by
  intro s
  refine ⟨fun hl hh => ⟨s.regs.fbbaseL.val, s.regs.fbbaseH.val, ?_, ?_, toNat_append_bytes _ _⟩,
    fun hl hh => ⟨s.regs.opaL.val, s.regs.opaH.val, ?_, ?_, ?_⟩,
    fun h => ⟨s.res.extractLsb' 0 8, s.res.extractLsb' 8 8, s.res.extractLsb' 16 8, if_pos h,
      if_pos h, if_pos h, toNat_eq_three_bytes s.res⟩⟩
  · exact State.readReg_written (d := .fbbaseL) hl
  · exact State.readReg_written (d := .fbbaseH) hh
  · exact State.readReg_written (d := .opaL) hl
  · exact State.readReg_written (d := .opaH) hh
  · rw [State.opaS16, toInt_emod_65536, toNat_append_bytes]
    push_cast
    rfl

/-- Settles O18: the launch state's fields are literals, and its data registers have no mark. -/
theorem launchState : Obligations.LaunchState := by
  refine ⟨rfl, rfl, rfl, rfl, rfl, DataRegs.reset_written, rfl, rfl, rfl, rfl, rfl, rfl, rfl,
    fun d => ?_⟩
  have hmark : (State.reset.regs.get d).written = false := DataRegs.reset_written d
  rw [State.readReg_data, hmark, if_neg Bool.false_ne_true]

end Sys2Proof.Machine
end

section
/-! O8, O9, O11 and O13. The host's steps, one lemma per resolved operation, and what each does to the
registers and to memory. -/

namespace Sys2Proof.Machine

/-! ### One step of the host, by its operation -/

section
variable {s : State} {op : HostOp} {rest : List HostOp} {off : Offset} {a : Addr} {v : Byte}

theorem step_write (h : s.hostsTurn) (hs : s.script = op :: rest)
    (hop : s.cfg.resolve op = .write off v) :
    step s = .next ((s.taken rest).hostWrite off v s.pos) := by
  rw [step_hostsTurn h]
  simp only [State.hostTurn, hs, hop]

theorem step_read (h : s.hostsTurn) (hs : s.script = op :: rest)
    (hop : s.cfg.resolve op = .read off) :
    step s = .next ((s.taken rest).hostRead off s.pos) := by
  rw [step_hostsTurn h]
  simp only [State.hostTurn, hs, hop]

theorem step_writeMem (h : s.hostsTurn) (hs : s.script = op :: rest)
    (hop : s.cfg.resolve op = .writeMem a v) (hram : s.offRam a = false) :
    step s = .next ((s.taken rest).hostWriteMem a v s.pos) := by
  rw [step_hostsTurn h]
  simp [State.hostTurn, hs, hop, hram]

theorem step_readMem (h : s.hostsTurn) (hs : s.script = op :: rest)
    (hop : s.cfg.resolve op = .readMem a) (hram : s.offRam a = false) :
    step s = .next ((s.taken rest).hostReadMem a s.pos) := by
  rw [step_hostsTurn h]
  simp [State.hostTurn, hs, hop, hram]

/-- A memory access that is no hazard, to an address that is not plain RAM (20 R52; log 5). -/
theorem step_offRam (h : s.hostsTurn) (hs : s.script = op :: rest)
    (hop : s.cfg.resolve op = .writeMem a v ∨ s.cfg.resolve op = .readMem a)
    (hram : s.offRam a = true) : step s = .refused .notPlainRam := by
  rw [step_hostsTurn h]
  rcases hop with hop | hop <;> simp [State.hostTurn, hs, hop, hram]

/-! ### A host that may access registers -/

theorem State.hostFree.hostsTurn (h : s.hostFree) : s.hostsTurn := ⟨h.1, .inl h.2.1⟩

/-- A register write of a free host reaches the register (70 R132, R137). -/
theorem step_write_free (h : s.hostFree) (hs : s.script = .write off v :: rest) :
    step s = .next ((s.taken rest).writeReg off v s.pos) := by
  rw [step_write h.hostsTurn hs rfl]
  obtain ⟨-, -, hbusy, hawaiting, hreset⟩ := h
  simp [State.hostWrite, State.mustWait, hbusy, hawaiting, hreset]

/-- While a completion is awaited a register write is a hazard (70 R137). -/
theorem State.hostWrite_mustWait {pos : Nat} (h : s.mustWait = true) :
    s.hostWrite off v pos = s.hazard pos := by
  simp [State.hostWrite, h]

/-- A register read of a free host observes what the register shows, STATUS and RES apart. -/
theorem step_read_free (h : s.hostFree) (hs : s.script = .read off :: rest) (hoff : off ≠ 0x01)
    (hres : readsRes off = false) :
    step s = .next ((s.taken rest).observe (s.readReg off)) := by
  have hstatus : off ≠ Reg.status.offset := hoff
  rw [step_read h.hostsTurn hs rfl]
  obtain ⟨-, -, hbusy, hawaiting, hreset⟩ := h
  simp only [State.hostRead, State.mustWait, State.taken_inReset, State.taken_busy,
    State.taken_awaiting, hreset, hstatus, hbusy, hawaiting, hres, Bool.or_self, Bool.false_and,
    Bool.false_eq_true, if_false]
  rfl

/-! ### Register writes -/

/-- While ERR = 1 a byte other than CLRERR is dropped (10 R19). -/
theorem State.issue_dropped {pos : Nat} (herr : s.err = true) (hv : v ≠ 0x0F) :
    s.issue v pos = s := if_pos ⟨herr, hv⟩

/-- An accepted byte is LASTCMD and BUSY, and its completion is awaited (10 R19). -/
theorem State.issue_accepted {pos : Nat} (h : s.err = false ∨ v = 0x0F) :
    s.issue v pos = { s with
      lastCmd := v, busy := true, seq := .busy v, awaiting := true, cmdPos := pos
      turns := Config.latency s.draws, draws := s.draws + 1 } :=
  if_neg fun ⟨herr, hv⟩ => h.elim (fun h0 => by simp [h0] at herr) hv

theorem State.writeReg_data (s : State) (d : DataReg) (v : Byte) (pos : Nat) :
    s.writeReg d.offset v pos = s.setData d v := by
  cases d <;> rfl

/-- The registers a host write leaves alone, and the offsets without one (10 R30, R31). -/
def unwritable : List (Option Reg) :=
  [none, some .status, some .errCode, some .triRes, some .res0, some .res1, some .res2]

theorem State.writeReg_unwritable {pos : Nat} (h : Reg.ofOffset off ∈ unwritable) :
    s.writeReg off v pos = s := by
  unfold State.writeReg
  split
  · next hr => rw [hr] at h; exact absurd h (by decide)
  · next d hr => rw [hr] at h; exact absurd h (by cases d <;> decide)
  all_goals rfl

end

/-- The offsets that ignore writes, one by one. -/
theorem ofOffset_mem_unwritable : ∀ off : Offset,
    off.toNat ∈ [0x01, 0x02, 0x03, 0x0A, 0x0B, 0x0C] ∨
      off.toNat ∈ [0x0D, 0x0E, 0x0F] ∨ 0x16 ≤ off.toNat → Reg.ofOffset off ∈ unwritable := by
  decide

/-- The reserved offsets, one by one. -/
theorem ofOffset_reserved : ∀ off : Offset,
    off.toNat ∈ [0x0D, 0x0E, 0x0F] ∨ 0x16 ≤ off.toNat → Reg.ofOffset off = none := by
  decide

/-- Settles O8: a free host's write is the issue of the byte, and a write while BUSY is a hazard. -/
theorem commandIssue : Obligations.CommandIssue := by
  intro s v rest hs
  have hcmd : (s.taken rest).writeReg 0x00 v s.pos = (s.taken rest).issue v s.pos := rfl
  refine ⟨fun hfree herr hv => ?_, fun hfree hok => ?_, fun hturn hbusy => ?_⟩
  · rw [step_write_free hfree hs, hcmd, State.issue_dropped (s := s.taken rest) herr hv]
    rfl
  · rw [step_write_free hfree hs, hcmd, State.issue_accepted (s := s.taken rest) hok]
    exact ⟨_, rfl, rfl⟩
  · rw [step_write hturn hs rfl]
    have hwait : (s.taken rest).mustWait = true := by simp [State.mustWait, hbusy]
    rw [State.hostWrite_mustWait hwait]
    rfl

/-- Settles O9: the write sets the one register, and reads at its offset and at no other show it. -/
theorem registerWriteReadsBack : Obligations.RegisterWriteReadsBack := by
  intro s d v rest hfree hs
  refine ⟨(s.taken rest).setData d v, ?_, rfl, DataRegs.get_set_self _ _ _,
    fun e he => DataRegs.get_set_other _ _ _ _ he, State.readReg_setData (s.taken rest) d v⟩
  rw [step_write_free hfree hs, State.writeReg_data]

/-- Settles O11: the offsets that ignore writes hold a read-only register or none, and a reserved one
holds none. -/
theorem readOnlyAndReservedIgnoreWrites : Obligations.ReadOnlyAndReservedIgnoreWrites := by
  refine ⟨fun s off v rest hfree hs hoff => ?_,
    fun s off => ⟨fun hoff => ?_, s.status_lt, rfl⟩⟩
  · rw [step_write_free hfree hs, State.writeReg_unwritable (ofOffset_mem_unwritable off hoff)]
    rfl
  · have hnone := ofOffset_reserved off hoff
    have hread : s.readReg off = some 0x00 := by simp only [State.readReg, hnone]
    refine ⟨hread, fun rest hfree hs => ?_⟩
    have hstatus : off ≠ 0x01 := fun h => by simp [h, Reg.ofOffset] at hnone
    have hres : readsRes off = false := by simp only [readsRes, hnone]
    rw [step_read_free hfree hs hstatus hres, hread]
    rfl

/-! ### Memory accesses -/

/-- The register window is the 32 addresses from UNIT_BASE on (10 R16). -/
theorem windowOffset_eq_some_iff (c : Config) (a : Addr) (off : Offset) :
    c.windowOffset a = some off ↔ a.toNat = c.unitBase.val + off.toNat := by
  have hbase := c.unitBase.isLt
  have ha := a.isLt
  have hoff := off.isLt
  have hdist : (a - BitVec.ofNat 16 c.unitBase.val).toNat
      = (65536 - c.unitBase.val + a.toNat) % 65536 := by
    rw [BitVec.toNat_sub, BitVec.toNat_ofNat]
    omega
  unfold Config.windowOffset
  rw [hdist]
  split
  · rw [Option.some_inj, ← BitVec.toNat_inj, BitVec.toNat_ofNat]
    omega
  · simp only [reduceCtorEq, false_iff]
    omega

/-- The host's turn does not hang on which operations it has left, as long as it has one. -/
theorem State.hostsTurn.withScript {s : State} (h : s.hostsTurn) (op : HostOp) (rest : List HostOp) :
    State.hostsTurn { s with script := op :: rest } := by
  refine ⟨h.1, h.2.imp_right fun hturn => ?_⟩
  unfold State.unitsTurn at hturn ⊢
  cases hreset : s.inReset with
  | true => simp
  | false =>
    rw [hreset, Bool.not_false, Bool.true_and, Bool.or_eq_false_iff] at hturn
    simp [hturn.1]

/-- The record after noting the framebuffer region (10 R37; log 27). -/
theorem State.noteRegion_record (s : State) (pos : Nat) :
    (s.noteRegion pos).record
      = if s.mustWait ∧ s.regs.placed = false then s.record ++ [{ kind := .uninit, pos := pos }]
        else s.record := by
  rcases s.noteRegion_cases pos with ⟨hwait, hplaced, hlog⟩ | ⟨hnot, hsame⟩
  · rw [hlog, if_pos ⟨hwait, hplaced⟩]; rfl
  · rw [hsame, if_neg hnot]

/-- A memory write that is no hazard (30 R68; log 12). -/
theorem State.hostWriteMem_clear {s : State} {a : Addr} {v : Byte} {pos : Nat}
    (h : s.memHazard a = false) :
    s.hostWriteMem a v pos = { s with
      mem := Mem.write s.mem a.toNat v
      unknown := s.unknown.filter fun b => decide (b ≠ a.toNat)
      record := (s.noteRegion pos).record } := by
  rw [State.hostWriteMem, h, if_neg Bool.false_ne_true, State.noteRegion_eq]

/-- A memory read of a known byte that is no hazard (30 R68). -/
theorem State.hostReadMem_known {s : State} {a : Addr} {pos : Nat} (h : s.memHazard a = false)
    (hknown : a.toNat ∉ s.unknown) :
    s.hostReadMem a pos = { s with
      obs := s.obs ++ [some (Mem.read s.mem a.toNat)]
      record := (s.noteRegion pos).record } := by
  rw [State.hostReadMem, h, if_neg Bool.false_ne_true, if_neg hknown, State.noteRegion_eq]
  rfl

/-- Where the host may access memory, an access is no hazard. -/
theorem State.mayAccess.memHazard {s : State} {a : Addr} (h : s.mayAccess a) :
    s.memHazard a = false := by
  obtain ⟨-, hreset, hregion⟩ := h
  unfold State.memHazard
  cases hwait : s.mustWait with
  | false => simp [hreset]
  | true => simp [hreset, hregion hwait]

theorem State.mayAccess.offRam {s : State} {a : Addr} (h : s.mayAccess a) :
    s.offRam a = !s.cfg.plainRam a := by
  simp [State.offRam, h.memHazard]

/-- Settles O13: the window in numbers; an access there is the register's by `Config.resolve`; outside
it the access is the memory's, and what plain RAM does. -/
theorem hostMemoryAccess : Obligations.HostMemoryAccess := by
  refine ⟨windowOffset_eq_some_iff, fun s a off v rest hturn hwin => ⟨?_, ?_⟩,
    fun s a v rest hmay hwf hwin => ?_⟩
  · have hop : s.cfg.resolve (.writeMem a v) = .write off v := by simp only [Config.resolve, hwin]
    rw [step_write (hturn.withScript _ _) rfl hop, step_write (hturn.withScript _ _) rfl rfl]
    rfl
  · have hop : s.cfg.resolve (.readMem a) = .read off := by simp only [Config.resolve, hwin]
    rw [step_read (hturn.withScript _ _) rfl hop, step_read (hturn.withScript _ _) rfl rfl]
    rfl
  · have hwrite : s.cfg.resolve (.writeMem a v) = .writeMem a v := by
      simp only [Config.resolve, hwin]
    have hread : s.cfg.resolve (.readMem a) = .readMem a := by simp only [Config.resolve, hwin]
    have hhazard : (s.taken rest).memHazard a = false := hmay.memHazard
    refine ⟨fun hram hs => ?_, fun hram hs hknown => ?_, fun hram hs => ?_⟩
    · rw [step_writeMem hmay.1 hs hwrite (by rw [hmay.offRam, hram]; rfl),
        State.hostWriteMem_clear hhazard, State.noteRegion_record]
      exact ⟨_, rfl, rfl, Mem.read_write_self hwf, by simp,
        fun b hb => ⟨Mem.read_write_other hb, by simp [hb]⟩⟩
    · rw [step_readMem hmay.1 hs hread (by rw [hmay.offRam, hram]; rfl),
        State.hostReadMem_known hhazard hknown, State.noteRegion_record]
      rfl
    · have hoff : s.offRam a = true := by rw [hmay.offRam, hram]; rfl
      rcases hs with hs | hs
      · exact step_offRam hmay.1 hs (.inl hwrite) hoff
      · exact step_offRam (v := v) hmay.1 hs (.inr hread) hoff

end Sys2Proof.Machine
end

section
/-! O55. The unit writes no byte outside the framebuffer region and no data register: a command's effect
on memory is a list of cell writes in the region, and an empty one for the commands that draw nothing. -/

namespace Sys2Proof.Machine

section
variable {i : Instr} {s t : State}

/-- Cell writes keep the canonical form of memory. -/
theorem WritesCells.mem_wf (h : WritesCells s t) (hwf : Mem.wf s.mem = true) :
    Mem.wf t.mem = true := by
  obtain ⟨ws, -, hmem, -⟩ := h
  rw [hmem]
  exact writeCells_wf ws hwf

/-- Cell writes in the region leave every byte outside it (20 R42, R48). -/
theorem WritesCells.read_outside (h : WritesCells s t) (hwf : Mem.wf s.mem = true) {a : Addr}
    (ha : inRegion s.fbbase a = false) : Mem.read t.mem a.toNat = Mem.read s.mem a.toNat := by
  obtain ⟨ws, hoff, hmem, -⟩ := h
  rw [hmem, read_writeCells ws _ hwf, maskAt_outside hoff ha, mergeCell_zero]

/-- The commands that write no memory leave it as it is (20 R42, 30 R64). -/
theorem CommandEffect.mem_eq (h : CommandEffect s i t) (hi : writesMemory i = false) :
    t.mem = s.mem := by
  cases h with
  | nop => rfl
  | clrerr => rfl
  | result v _ => simp
  | pixel a v =>
    obtain ⟨l, hl⟩ := (s.noteReads (readSet .getpix)).noteByteRead_eq a
    simp [hl]
  | fault _ => simp
  | draw ws hw _ => simp [hw] at hi
  | fill ws _ _ => exact absurd hi (by decide)

end

/-- The commands that write no memory, listed (30 R64). -/
theorem writesMemory_eq_false_of_mem : ∀ i ∈ [Instr.nop, .clrerr, .mulu8, .muls8, .muls8u8,
    .muls16u8, .divfx, .getpix], writesMemory i = false := by
  decide

/-- Settles O55: every command's effect on memory is cell writes in the region, and the commands that
write no memory have none. -/
theorem unitWritesOnlyTheRegion : Obligations.UnitWritesOnlyTheRegion := by
  intro i s t hwf h
  have hcells := exec_writesCells h
  exact ⟨(exec_unitWrites h).regs_eq, hcells.mem_wf hwf, fun a ha => hcells.read_outside hwf ha,
    fun hi => (exec_effect h).mem_eq (writesMemory_eq_false_of_mem i hi)⟩

end Sys2Proof.Machine
end

section
/-! O12 and O14. What a host's register read and its `wait` leave: the observation, and for STATUS the
completion barrier. -/

namespace Sys2Proof.Machine

section
variable {s : State} {rest : List HostOp} {off : Offset}

/-- The completion barrier: with BUSY = 0 no completion is awaited any longer (20 R54, 70 R137). -/
theorem State.sawStatus_eq (s : State) :
    s.sawStatus = { s with awaiting := if s.busy then s.awaiting else false } := by
  unfold State.sawStatus
  cases s.busy <;> simp

/-- With every completion observed, a STATUS read has nothing to end. -/
theorem State.sawStatus_of_observed (h : s.awaiting = false) : s.sawStatus = s := by
  rw [State.sawStatus_eq, h, ite_self, ← h]

/-- A STATUS read out of reset observes STATUS, a command BUSY or not (20 R54). -/
theorem State.hostRead_status {pos : Nat} (h : s.inReset = false) :
    s.hostRead Reg.status.offset pos = s.sawStatus.observe (some s.status) := by
  simp [State.hostRead, h]

/-- The host's STATUS read is a step at any time out of reset (20 R54, 70 R137). -/
theorem step_read_status (h : s.hostsTurn) (hreset : s.inReset = false)
    (hs : s.script = .read 0x01 :: rest) :
    step s = .next ((s.taken rest).sawStatus.observe (some s.status)) := by
  rw [step_read h hs rfl]
  exact congrArg _ (State.hostRead_status (s := s.taken rest) hreset)

/-- A register read of a free host, STATUS apart: the value shown, or none and UNINIT for RES without
its mark (20 R51, 10 R37; log 16). -/
theorem step_read_register (h : s.hostFree) (hs : s.script = .read off :: rest) (hoff : off ≠ 0x01) :
    step s = .next (if readsRes off && !s.resWritten then
      ((s.taken rest).log .uninit s.pos).observe none else (s.taken rest).observe (s.readReg off)) := by
  have hstatus : off ≠ Reg.status.offset := hoff
  rw [step_read h.hostsTurn hs rfl]
  obtain ⟨-, -, hbusy, hawaiting, hreset⟩ := h
  simp only [State.hostRead, State.mustWait, State.taken_inReset, State.taken_busy,
    State.taken_awaiting, State.taken_resWritten, hreset, hstatus, hbusy, hawaiting, Bool.or_self,
    Bool.false_eq_true, if_false]
  rfl

/-- A poll that finds BUSY = 1 leaves the `wait` where it stands (30 R67; log 13). -/
theorem step_wait_busy (h : s.hostsTurn) (hreset : s.inReset = false) (hs : s.script = .wait :: rest)
    (hbusy : s.busy = true) : step s = .next s.poll := by
  rw [step_hostsTurn h]
  simp [State.hostTurn, hs, Config.resolve, hbusy, hreset]

/-- A poll that finds BUSY = 0 is a STATUS read and ends the `wait` (30 R67, R68). -/
theorem step_wait_idle (h : s.hostsTurn) (hreset : s.inReset = false) (hs : s.script = .wait :: rest)
    (hbusy : s.busy = false) :
    step s = .next ((s.taken rest).sawStatus.observe (some s.status)) := by
  rw [step_hostsTurn h]
  simp only [State.hostTurn, hs, Config.resolve, hbusy, Bool.false_and, Bool.false_eq_true, if_false]
  exact congrArg _ (State.hostRead_status (s := s.taken rest) hreset)

end

/-- The three offsets of RES, one by one (10 R16). -/
theorem readsRes_iff : ∀ off : Offset, readsRes off = true ↔ off.toNat ∈ [0x0A, 0x0B, 0x0C] := by
  decide

/-- Settles O12: STATUS at any time out of reset; every other register of a free host by whether it is
RES without its mark. -/
theorem registerReadHasNoSideEffect : Obligations.RegisterReadHasNoSideEffect := by
  refine ⟨fun s off rest hfree hs => ⟨fun hshown => ?_, fun hmark hres => ?_⟩,
    fun s rest hturn hreset hs => ?_⟩
  · by_cases hstatus : off = 0x01
    · subst hstatus
      have hturn := hfree.hostsTurn
      obtain ⟨-, -, -, hawaiting, hreset⟩ := hfree
      rw [step_read_status hturn hreset hs,
        State.sawStatus_of_observed (s := s.taken rest) hawaiting]
      rfl
    · have hvalue : (readsRes off && !s.resWritten) = false := by
        rcases hshown with hmark | hother
        · simp [hmark]
        · simp [mt (readsRes_iff off).mp hother]
      rw [step_read_register hfree hs hstatus, hvalue, if_neg Bool.false_ne_true]
      rfl
  · have hstatus : off ≠ 0x01 := by rintro rfl; exact absurd hres (by decide)
    have hunmarked : (readsRes off && !s.resWritten) = true := by
      simp [(readsRes_iff off).mpr hres, hmark]
    rw [step_read_register hfree hs hstatus, if_pos hunmarked]
    rfl
  · rw [step_read_status hturn hreset hs, State.sawStatus_eq]
    rfl

/-- Settles O14: the two polls, by what the read finds in BUSY. -/
theorem waitEndsAtCompletion : Obligations.WaitEndsAtCompletion := by
  intro s rest hturn hreset hs
  refine ⟨fun hbusy => step_wait_busy hturn hreset hs hbusy, fun hbusy => ?_⟩
  rw [step_wait_idle hturn hreset hs hbusy, State.sawStatus_eq, State.taken_busy, hbusy]
  rfl

end Sys2Proof.Machine
end

section
/-! The cell writes of the plans that pass their checks, the byte of a pixel, and GETPIX's read: what the
claims about unknown bytes and about a misplaced framebuffer go through. -/

namespace Sys2Proof.Machine

/-! ### Plans of legal operands (41 R82 to R87, 42 R107) -/

section
variable {s : State}

/-- The ranges of legal span operands, as the laws of cells take them (41 R80). -/
theorem spanLegal.bounds {par : Nat} (h : spanLegal s par) :
    s.p1 < 50 ∧ s.p2 ≤ 80 ∧ s.p1 % 2 = par := by
  obtain ⟨-, h1, -, h2, hpar⟩ := h
  exact ⟨Nat.lt_succ_of_le h1, h2, hpar⟩

theorem State.planClear_ok (h : s.color ≤ 3) :
    s.planClear = .ok ((List.range 1000).map fun i => { off := i, mask := bothRows }) := by
  rw [State.planClear, (State.badColor_eq_false s).mpr h, if_neg Bool.false_ne_true]

theorem State.planSetpix_ok (h : s.color ≤ 3) (hx : s.p0 < 80) (hy : s.p1 < 50) :
    s.planSetpix = .ok [{ off := cellOff s.p0 s.p1, mask := slotMask s.p0 s.p1 }] := by
  rw [State.planSetpix, (State.badColor_eq_false s).mpr h, if_neg Bool.false_ne_true, if_pos ⟨hx, hy⟩]

theorem State.planSpantop_ok (h : spanLegal s 0) :
    s.planSpantop = .ok (rowCells s.p1 s.p0 s.p2) := by
  simp only [State.planSpantop, State.spanFault_none.mpr h]

theorem State.planSpanbot_ok (h : spanLegal s 1) :
    s.planSpanbot = .ok (rowCells s.p1 s.p0 s.p2) := by
  simp only [State.planSpanbot, State.spanFault_none.mpr h]

theorem State.planSpandual_ok (h : spanLegal s 0) :
    s.planSpandual = .ok (dualCells s.p1 s.p0 s.p2) := by
  simp only [State.planSpandual, State.spanFault_none.mpr h]

theorem State.planSpan2_ok (h : spanLegal s 0) (h4 : s.p4 ≤ 80) (h5 : s.p5 ≤ 80) :
    s.planSpan2 = .ok (dispatchCells s.p1 s.p0 s.p2 s.p4 s.p5) := by
  obtain ⟨hcolor, h1, h0, h2, heven⟩ := h
  simp only [State.planSpan2, State.span2Fault_none.mpr ⟨hcolor, h1, h0, h2, h4, h5, heven⟩]

end

/-! ### The byte of a pixel (20 R44) -/

theorem cellOff_lt {x y : Nat} (hx : x < 80) (hy : y < 50) : cellOff x y < 1000 := by
  unfold cellOff
  omega

/-- The column of a pixel's cell. -/
theorem cellOff_mod {x : Nat} (hx : x < 80) (y : Nat) : cellOff x y % 40 = x / 2 := by
  unfold cellOff
  omega

/-- The row of a pixel's cell. -/
theorem cellOff_div {x : Nat} (hx : x < 80) (y : Nat) : cellOff x y / 40 = y / 2 := by
  unfold cellOff
  omega

/-- A pixel covers one of the four slots of its byte, no fewer and not all (20 R44). -/
theorem slotMask_partial (x y : Nat) : slotMask x y ≠ 0 ∧ slotMask x y ≠ 0xFF := by
  unfold slotMask pixelShift
  rcases Nat.mod_two_eq_zero_or_one x with hx | hx <;>
    rcases Nat.mod_two_eq_zero_or_one y with hy | hy <;> rw [hx, hy] <;> decide

/-! ### GETPIX's access (41 R84) -/

/-- GETPIX of a pixel on the screen reads its byte, if the framebuffer is not misplaced (41 R84). -/
theorem execGetpix_onScreen {s : State} (hm : s.misplaced = false) (hx : s.p0 < 80) (hy : s.p1 < 50) :
    execGetpix s = .next
      (((s.noteReads (readSet .getpix)).noteByteRead (s.pixelAddr s.p0 s.p1)).setRes
        ((s.pixel s.p0 s.p1).setWidth 24)) := by
  rw [execGetpix, if_pos ⟨hx, hy⟩, hm, if_neg Bool.false_ne_true]

/-- Over a misplaced framebuffer that access is refused (70 R140). -/
theorem execGetpix_misplaced {s : State} (hm : s.misplaced = true) (hx : s.p0 < 80) (hy : s.p1 < 50) :
    execGetpix s = .refused .framebufferMisplaced := by
  rw [execGetpix, if_pos ⟨hx, hy⟩, if_pos hm]

end Sys2Proof.Machine
end

section
/-! O20. Reading a byte that reset left unknown: the host's read, GETPIX's, and the read-modify-writes that
cover a byte in part. -/

namespace Sys2Proof.Machine

/-! ### A partly covered byte (20 R47) -/

/-- The interval covers the left column, the right column or both of the cell of one of its pixels
(41 R81). -/
theorem columnsOf_mem {xl xr x : Nat} (hl : xl ≤ x) (hr : x < xr) :
    columnsOf xl xr (x / 2) ∈ [leftColumn, rightColumn, leftColumn ||| rightColumn] := by
  unfold columnsOf
  by_cases hleft : xl ≤ 2 * (x / 2)
  · by_cases hright : 2 * (x / 2) + 1 < xr <;> simp [hleft, hright]
  · have hright : 2 * (x / 2) + 1 < xr := by omega
    simp [hleft, hright]

theorem rowOf_mem (y : Nat) : rowOf y ∈ [topRow, bottomRow] := by
  unfold rowOf
  split <;> simp

/-- One row of a cell never holds all four slots, and holds a slot of each column. -/
theorem row_and_columns_partial : ∀ row ∈ [topRow, bottomRow],
    ∀ columns ∈ [leftColumn, rightColumn, leftColumn ||| rightColumn],
      row &&& columns ≠ 0 ∧ row &&& columns ≠ 0xFF := by
  decide

/-- A row covers the byte of each of its pixels in part (41 R81). -/
theorem maskAt_rowCells_partial {base : Addr} {y xl xr x : Nat} (hy : y < 50) (hxr : xr ≤ 80)
    (hl : xl ≤ x) (hr : x < xr) :
    maskAt base (rowCells y xl xr) (cellAddr base (cellOff x y)) ≠ 0 ∧
      maskAt base (rowCells y xl xr) (cellAddr base (cellOff x y)) ≠ 0xFF := by
  have hx : x < 80 := by omega
  rw [rowCells, maskAt_spanCells hy hxr (cellOff_lt hx hy), cellOff_mod hx, cellOff_div hx,
    if_pos ⟨by omega, rfl, by omega, by omega⟩]
  exact row_and_columns_partial _ (rowOf_mem y) _ (columnsOf_mem hl hr)

/-! ### Reading an unknown byte (70 R146) -/

/-- Cell writes that cover an unknown byte in part record the read and leave it unknown. -/
theorem carryOut_unknown {s : State} {p : Plan} {ws : List CellWrite} {a : Nat} (ds : List DataReg)
    (hp : p = .ok ws) (hm : s.misplaced = false) (ha : a ∈ s.unknown)
    (hpart : maskAt s.fbbase ws a ≠ 0 ∧ maskAt s.fbbase ws a ≠ 0xFF) :
    ∃ t, (s.noteReads ds).carryOut p = .next t ∧
      { kind := .uninit, pos := s.cmdPos } ∈ t.record ∧ a ∈ t.unknown := by
  have hne : ws ≠ [] := by rintro rfl; exact hpart.1 rfl
  subst hp
  refine ⟨_, State.drawCells_clear hne (by rw [State.noteReads_misplaced, hm]), ?_, ?_⟩
  · rw [State.putCells_record, State.noteReads_fbbase, State.noteReads_unknown,
      if_pos (readsUnknown_of_partial ha hpart.1 hpart.2)]
    simp
  · rw [State.putCells_unknown, State.noteReads_fbbase, State.noteReads_unknown, stillUnknown,
      List.mem_filter, decide_eq_true_eq]
    exact ⟨ha, hpart.2⟩

/-- SETPIX covers one slot of its pixel's byte (41 R83). -/
theorem execSetpix_unknown {s : State} (hm : s.misplaced = false) (hcolor : s.color ≤ 3)
    (hx : s.p0 < 80) (hy : s.p1 < 50) (ha : s.pixelAddr s.p0 s.p1 ∈ s.unknown) :
    ∃ t, exec .setpix s = .next t ∧ { kind := .uninit, pos := s.cmdPos } ∈ t.record ∧
      s.pixelAddr s.p0 s.p1 ∈ t.unknown := by
  refine carryOut_unknown _ (State.planSetpix_ok hcolor hx hy) hm ha ?_
  rw [State.pixelAddr, maskAt_cons, if_pos rfl, maskAt_nil, BitVec.or_zero]
  exact slotMask_partial _ _

/-- SPANTOP and SPANBOT cover the byte of each of their pixels in part (41 R85, R86). -/
theorem carryOut_rowCells_unknown {s : State} {p : Plan} {par x : Nat} (ds : List DataReg)
    (hp : p = .ok (rowCells s.p1 s.p0 s.p2)) (hlegal : spanLegal s par) (hm : s.misplaced = false)
    (hl : s.p0 ≤ x) (hr : x < s.p2) (ha : s.pixelAddr x s.p1 ∈ s.unknown) :
    ∃ t, (s.noteReads ds).carryOut p = .next t ∧
      { kind := .uninit, pos := s.cmdPos } ∈ t.record ∧ s.pixelAddr x s.p1 ∈ t.unknown := by
  obtain ⟨hy, hxr, -⟩ := hlegal.bounds
  exact carryOut_unknown ds hp hm ha (maskAt_rowCells_partial hy hxr hl hr)

/-- GETPIX records that it reads an unknown byte. -/
theorem execGetpix_unknown {s : State} (hm : s.misplaced = false) (hx : s.p0 < 80) (hy : s.p1 < 50)
    (ha : s.pixelAddr s.p0 s.p1 ∈ s.unknown) :
    ∃ t, exec .getpix s = .next t ∧ { kind := .uninit, pos := s.cmdPos } ∈ t.record := by
  refine ⟨_, execGetpix_onScreen hm hx hy, ?_⟩
  rw [State.setRes_record, State.noteByteRead, State.noteReads_unknown, if_pos ha]
  simp

/-- A host read of an unknown byte that is no hazard and whose place is known (70 R146; log 12). -/
theorem State.hostReadMem_unknown {s : State} {a : Addr} {pos : Nat} (h : s.memHazard a = false)
    (hplaced : s.mustWait = true → s.regs.placed = true) (ha : a.toNat ∈ s.unknown) :
    s.hostReadMem a pos = (s.log .uninit pos).observe none := by
  have hregion : s.noteRegion pos = s := by
    rcases s.noteRegion_cases pos with ⟨hwait, hnot, -⟩ | ⟨-, hsame⟩
    · simp [hplaced hwait] at hnot
    · exact hsame
  rw [State.hostReadMem, h, if_neg Bool.false_ne_true, if_pos ha, hregion]

/-- Settles O20: the host's read, GETPIX's read, and the read-modify-writes of SETPIX and of the rows. -/
theorem unknownByteIsRecordedWhenRead : Obligations.UnknownByteIsRecordedWhenRead := by
  refine ⟨fun s a rest hmay hplaced hwin hram hs ha => ?_,
    fun s hm => ⟨fun hx hy ha => ⟨execGetpix_unknown hm hx hy ha,
      fun hcolor => execSetpix_unknown hm hcolor hx hy ha⟩,
    fun x hl hr ha =>
      ⟨fun hlegal => carryOut_rowCells_unknown _ (State.planSpantop_ok hlegal) hlegal hm hl hr ha,
        fun hlegal => carryOut_rowCells_unknown _ (State.planSpanbot_ok hlegal) hlegal hm hl hr ha⟩⟩⟩
  have hop : s.cfg.resolve (.readMem a) = .readMem a := by simp only [Config.resolve, hwin]
  have hhazard : (s.taken rest).memHazard a = false := hmay.memHazard
  rw [step_readMem hmay.1 hs hop (by rw [hmay.offRam, hram]; rfl),
    State.hostReadMem_unknown hhazard hplaced ha]
  rfl

end Sys2Proof.Machine
end

section
/-! O51. A misplaced framebuffer: where it is, and that each command with a cell to write and a reset that
abandons cells are refused over it. -/

namespace Sys2Proof.Machine

/-! ### A misplaced framebuffer (20 R40, 70 R140; log 6) -/

/-- A framebuffer is misplaced where a host has placed it so (log 6). -/
theorem State.misplaced_iff (s : State) : s.misplaced = true ↔
    s.regs.fbbaseL.written = true ∧ s.regs.fbbaseH.written = true ∧
      s.cfg.misplaced s.fbbase = true := by
  simp only [State.misplaced, DataRegs.placed, Bool.and_eq_true, and_assoc]

/-- Cell writes to a misplaced framebuffer are refused. -/
theorem carryOut_misplaced {s : State} {p : Plan} {ws : List CellWrite} (ds : List DataReg)
    (hm : s.misplaced = true) (hp : p = .ok ws) (hne : ws ≠ []) :
    (s.noteReads ds).carryOut p = .refused .framebufferMisplaced := by
  subst hp
  exact State.drawCells_misplaced hne (by rw [State.noteReads_misplaced, hm])

/-- A pixel of a set covers a slot of its byte (20 R46). -/
theorem slotsOf_cellOff_ne_zero {f : Nat → Nat → Bool} {x y : Nat} (hx : x < 80)
    (h : f x y = true) : slotsOf f (cellOff x y) ≠ 0 := by
  have hmask := (slotMask_partial x y).1
  have hx' : 2 * (x / 2) = x ∨ 2 * (x / 2) + 1 = x := by omega
  have hy' : 2 * (y / 2) = y ∨ 2 * (y / 2) + 1 = y := by omega
  intro h0
  simp only [slotsOf, cellOff_mod hx, cellOff_div hx] at h0
  obtain ⟨h0, hbottomRight⟩ := BitVec.or_eq_zero_iff.mp h0
  obtain ⟨h0, hbottomLeft⟩ := BitVec.or_eq_zero_iff.mp h0
  obtain ⟨htopLeft, htopRight⟩ := BitVec.or_eq_zero_iff.mp h0
  rcases hx' with hx' | hx' <;> rcases hy' with hy' | hy'
  · rw [hx', hy', if_pos h] at htopLeft; exact hmask htopLeft
  · rw [hx', hy', if_pos h] at hbottomLeft; exact hmask hbottomLeft
  · rw [hx', hy', if_pos h] at htopRight; exact hmask htopRight
  · rw [hx', hy', if_pos h] at hbottomRight; exact hmask hbottomRight

/-- Cell writes that cover a set with a pixel on the screen are not none. -/
theorem ne_nil_of_covers {base : Addr} {ws : List CellWrite} {f : Nat → Nat → Bool} {x y : Nat}
    (hf : ∀ off < 1000, maskAt base ws (cellAddr base off) = slotsOf f off) (hx : x < 80)
    (hy : y < 50) (h : f x y = true) : ws ≠ [] := by
  rintro rfl
  exact slotsOf_cellOff_ne_zero hx h (hf _ (cellOff_lt hx hy)).symm

/-- The rows of a triangle on the grid end on the grid (42 R110). -/
theorem fillRow_on_grid (h : HalfSlope) {a b c : Vertex} (ha : a.x.toNat ≤ 79) (hb : b.x.toNat ≤ 79)
    (hc : c.x.toNat ≤ 79) {y : Nat} (hy : walked a b c y = true) : (fillRow h a b c y).2 ≤ 79 := by
  obtain ⟨h0, h1, h2⟩ := sort3_all (p := fun v => v.x.toNat ≤ 79) ha hb hc
  simp only [walked, Bool.and_eq_true, decide_eq_true_eq] at hy
  obtain ⟨htop, hbottom⟩ := hy
  have hlong := (edge_on_grid h h0 h2 htop hbottom).2
  unfold fillRow
  dsimp only
  split
  · next hupper => exact interval_on_grid _ hlong (edge_on_grid h h0 h1 htop hupper).2
  · next hlower => exact interval_on_grid _ hlong (edge_on_grid h h1 h2 (by omega) hbottom).2

/-! ### The cell writes that a misplaced framebuffer refuses -/

/-- A non-empty interval of a row has a cell (41 R81). -/
theorem rowCells_ne_nil {y xl xr : Nat} (hy : y < 50) (hxr : xr ≤ 80) (h : xl < xr) :
    rowCells y xl xr ≠ [] :=
  ne_nil_of_covers (base := 0) (fun _ => maskAt_rowCells hy hxr) (x := xl) (y := y) (by omega) hy
    (by simp [inRow, h])

/-- A non-empty interval of two rows has a cell (41 R87). -/
theorem dualCells_ne_nil {y xl xr : Nat} (hy : y < 50) (heven : y % 2 = 0) (hxr : xr ≤ 80)
    (h : xl < xr) : dualCells y xl xr ≠ [] :=
  ne_nil_of_covers (base := 0) (fun _ => maskAt_dualCells hy heven hxr) (x := xl) (y := y) (by omega)
    hy (by simp [inRow, h])

/-- A dispatch with a non-empty interval has a cell (42 R104). -/
theorem dispatchCells_ne_nil {y l1 r1 l2 r2 : Nat} (hy : y < 50) (heven : y % 2 = 0) (h1 : r1 ≤ 80)
    (h2 : r2 ≤ 80) (h : l1 < r1 ∨ l2 < r2) : dispatchCells y l1 r1 l2 r2 ≠ [] := by
  have hcovers := fun off (hoff : off < 1000) =>
    maskAt_dispatchCells (base := 0) (l1 := l1) (l2 := l2) hy heven h1 h2 hoff
  rcases h with h | h
  · exact ne_nil_of_covers hcovers (x := l1) (y := y) (by omega) hy (by simp [inRow, h])
  · exact ne_nil_of_covers hcovers (x := l2) (y := y + 1) (by omega) (by omega) (by simp [inRow, h])

/-- A triangle of positive area is walked (42 R94, R96). -/
theorem State.fill_drawn {s : State} (h : 0 < signedArea s.vertexA s.vertexB s.vertexC) :
    s.fill = (.drawn, (fillWalk s.edge s.cfg.halfSlope s.vertexA s.vertexB s.vertexC).cells) := by
  rw [State.fill, if_neg h.not_ge, if_neg fun hflat => h.ne' (signedArea_of_flat hflat)]

/-- A fill with a pixel has a cell (42 R106). -/
theorem State.fill_ne_nil {s : State} (hlegal : fillLegal s)
    (harea : 0 < signedArea s.vertexA s.vertexB s.vertexC) {x y : Nat}
    (h : inTriangle s.cfg.halfSlope s.vertexA s.vertexB s.vertexC x y = true) : s.fill.2 ≠ [] := by
  obtain ⟨-, h0, h2, h4, h1, h3, h5⟩ := hlegal
  have hpixel := h
  simp only [inTriangle, Bool.and_eq_true, decide_eq_true_eq] at hpixel
  obtain ⟨⟨hwalked, -⟩, hright⟩ := hpixel
  have hx := fillRow_on_grid (a := s.vertexA) (b := s.vertexB) (c := s.vertexC) s.cfg.halfSlope
    h0 h2 h4 hwalked
  have hbottom := (sort3_all (p := fun v => v.y.toNat ≤ 49) (a := s.vertexA) (b := s.vertexB)
    (c := s.vertexC) h1 h3 h5).2.2
  simp only [walked, Bool.and_eq_true, decide_eq_true_eq] at hwalked
  rw [State.fill_drawn harea]
  exact ne_nil_of_covers (base := 0)
    (fun off hoff => (fillWalk_spec 0 hoff s.edge s.cfg.halfSlope (a := s.vertexA) (b := s.vertexB)
      (c := s.vertexC) h0 h2 h4 h1 h3 h5).1)
    (by omega) (by omega) h

/-- A FILLTRI with a cell, over a misplaced framebuffer, is refused (70 R140). -/
theorem execFilltri_misplaced {s : State} (hm : s.misplaced = true) (hlegal : fillLegal s)
    (hne : s.fill.2 ≠ []) : execFilltri s = .refused .framebufferMisplaced := by
  have hdraw : (s.noteReads (readSet .filltri)).drawCells s.fill.2 = .refused .framebufferMisplaced :=
    State.drawCells_misplaced hne (by rw [State.noteReads_misplaced, hm])
  simp only [execFilltri, State.fillFault_none.mpr hlegal, hdraw]

/-- A reset that abandons cells of a misplaced framebuffer is refused (70 R140, R146). -/
theorem step_assertReset_misplaced {s : State} {rest : List HostOp} (hm : s.misplaced = true)
    (hturn : s.hostsTurn) (hs : s.script = .assertReset :: rest) (hne : s.abandoned ≠ []) :
    step s = .refused .framebufferMisplaced := by
  have hreset : s.hostTurn = (s.taken rest).assertReset := by
    simp only [State.hostTurn, hs, Config.resolve]
  rw [step_hostsTurn hturn, hreset]
  exact if_pos (⟨hne, hm⟩ : (s.taken rest).abandoned ≠ [] ∧ (s.taken rest).misplaced = true)

/-- The commands that access the framebuffer read both bytes of FBBASE (30 R64). -/
theorem fbbase_mem_readSet : ∀ i ∈ [Instr.clear, .setpix, .getpix, .spantop, .spanbot, .spandual,
    .span2, .filltri], .fbbaseL ∈ readSet i ∧ .fbbaseH ∈ readSet i := by
  decide

/-- While a byte of FBBASE has no mark, a command that reads it completes and records UNINIT (10 R37). -/
theorem exec_unplaced {s : State} {i : Instr} (hl : .fbbaseL ∈ readSet i) (hh : .fbbaseH ∈ readSet i)
    (h : s.regs.fbbaseL.written = false ∨ s.regs.fbbaseH.written = false) :
    ∃ t, exec i s = .next t ∧ { kind := .uninit, pos := s.cmdPos } ∈ t.record := by
  have hm : s.misplaced = false := by
    rcases h with h | h <;> simp [State.misplaced, DataRegs.placed, h]
  obtain ⟨t, ht⟩ := exec_progress i s fun _ => hm
  refine ⟨t, ht, ?_⟩
  rcases h with h | h
  · exact unwrittenOperandIsRecorded.2 i s t .fbbaseL hl h ht
  · exact unwrittenOperandIsRecorded.2 i s t .fbbaseH hh h ht

/-- Settles O51: where a framebuffer is misplaced, an unmarked one, and each access to a misplaced one by
its cells. -/
theorem misplacedFramebufferIsRefused : Obligations.MisplacedFramebufferIsRefused := by
  refine ⟨fun s => ?_, Config.plainRam_iff, fun s i hi h => ?_, fun s hm => ⟨fun hcolor => ?_,
    fun hcolor hx hy => ?_, execGetpix_misplaced hm, fun hlegal h => ⟨?_, ?_⟩, fun hlegal h => ?_,
    fun hlegal h4 h5 h => ?_, fun hlegal harea hpixel => ?_,
    fun rest => step_assertReset_misplaced hm⟩⟩
  · rw [State.misplaced_iff, Config.misplaced_iff]
  · obtain ⟨hl, hh⟩ := fbbase_mem_readSet i hi
    exact exec_unplaced hl hh h
  · exact carryOut_misplaced _ hm (State.planClear_ok hcolor) (by simp)
  · exact carryOut_misplaced _ hm (State.planSetpix_ok hcolor hx hy) (by simp)
  · obtain ⟨hy, hxr, -⟩ := hlegal.bounds
    exact carryOut_misplaced _ hm (State.planSpantop_ok hlegal) (rowCells_ne_nil hy hxr h)
  · obtain ⟨hy, hxr, heven⟩ := hlegal.bounds
    exact carryOut_misplaced _ hm (State.planSpandual_ok hlegal)
      (dualCells_ne_nil hy heven hxr h)
  · obtain ⟨hy, hxr, -⟩ := hlegal.bounds
    exact carryOut_misplaced _ hm (State.planSpanbot_ok hlegal) (rowCells_ne_nil hy hxr h)
  · obtain ⟨hy, hxr, heven⟩ := hlegal.bounds
    exact carryOut_misplaced _ hm (State.planSpan2_ok hlegal h4 h5)
      (dispatchCells_ne_nil hy heven hxr h5 h)
  · obtain ⟨x, y, hpixel⟩ := hpixel
    exact execFilltri_misplaced hm hlegal (State.fill_ne_nil hlegal harea hpixel)

end Sys2Proof.Machine
end

section
/-! O1, O2 and O3. The opcode map of 30 R61 read in both directions, and the bytes it leaves reserved. -/

namespace Sys2Proof.Machine

/-- Every command makes the round trip through its byte (30 R59, R61). -/
theorem roundTrip (i : Instr) : Laws.RoundTrip.Statement i := by
  cases i with
  | nop => exact Laws.RoundTrip.nop
  | clrerr => exact Laws.RoundTrip.clrerr
  | mulu8 => exact Laws.RoundTrip.mulu8
  | muls8 => exact Laws.RoundTrip.muls8
  | muls8u8 => exact Laws.RoundTrip.muls8u8
  | muls16u8 => exact Laws.RoundTrip.muls16u8
  | divfx => exact Laws.RoundTrip.divfx
  | clear => exact Laws.RoundTrip.clear
  | setpix => exact Laws.RoundTrip.setpix
  | getpix => exact Laws.RoundTrip.getpix
  | spantop => exact Laws.RoundTrip.spantop
  | spanbot => exact Laws.RoundTrip.spanbot
  | spandual => exact Laws.RoundTrip.spandual
  | filltri => exact Laws.RoundTrip.filltri
  | span2 => exact Laws.RoundTrip.span2

/-- The table of 30 R61, written out. -/
def opcodeTable : List (Byte × Instr) :=
  [(0x00, .nop), (0x0F, .clrerr), (0x10, .mulu8), (0x11, .muls8), (0x12, .muls8u8),
    (0x13, .muls16u8), (0x14, .divfx), (0x20, .clear), (0x21, .setpix), (0x22, .getpix),
    (0x23, .spantop), (0x24, .spanbot), (0x25, .spandual), (0x30, .filltri), (0x31, .span2)]

theorem encode_mem_opcodeTable (i : Instr) : (encode i, i) ∈ opcodeTable := by
  cases i <;> decide

/-- A byte decodes to a command exactly where the table has them in one row. -/
theorem decode_eq_ok_iff {b : Byte} {i : Instr} : decode b = .ok i ↔ (b, i) ∈ opcodeTable := by
  constructor
  · intro h
    obtain ⟨-, -, honly, -⟩ := roundTrip i
    rw [honly b h]
    exact encode_mem_opcodeTable i
  · have hrows : ∀ p ∈ opcodeTable, decode p.1 = .ok p.2 := by decide
    exact hrows (b, i)

/-- Settles O1. -/
theorem opcodeMapIsTheTable : Obligations.OpcodeMapIsTheTable := fun _ _ => decode_eq_ok_iff

/-- Settles O2: the round trip of each command; a one-byte list decodes as its byte. -/
theorem decodeOfEncodeIsTheCommand : Obligations.DecodeOfEncodeIsTheCommand := by
  intro i
  obtain ⟨hwf, hbyte, -, hword⟩ := roundTrip i
  exact ⟨hwf, hbyte, hbyte, hword⟩

/-- The four reserved ranges of 30 R62. -/
def ReservedByte (b : Byte) : Prop :=
  (0x01 ≤ b.toNat ∧ b.toNat ≤ 0x0E) ∨ (0x15 ≤ b.toNat ∧ b.toNat ≤ 0x1F) ∨
    (0x26 ≤ b.toNat ∧ b.toNat ≤ 0x2F) ∨ 0x32 ≤ b.toNat

/-- No row of the opcode table lies in a reserved range. -/
theorem not_reservedByte_of_mem_opcodeTable : ∀ p ∈ opcodeTable, ¬ReservedByte p.1 := by
  unfold ReservedByte
  decide

theorem decode_reservedByte {b : Byte} (h : ReservedByte b) : ∃ e, decode b = .error e := by
  cases hd : decode b with
  | error e => exact ⟨e, rfl⟩
  | ok i => exact absurd h (not_reservedByte_of_mem_opcodeTable (b, i) (decode_eq_ok_iff.mp hd))

/-- CLRERR's byte is assigned. -/
theorem ReservedByte.ne_clrerr {b : Byte} (h : ReservedByte b) : b ≠ 0x0F := by
  rintro rfl
  exact not_reservedByte_of_mem_opcodeTable (0x0F, .clrerr) (by decide) h

/-- The unit's step on a byte that is no command raises ILLEGAL_CMD and completes (60 R119). -/
theorem unitStep_error {op : Byte} {e : DecodeError} (h : decode op = .error e) (s : State) :
    unitStep op s = .next (s.raise .illegalCmd).complete := by
  simp only [unitStep, h]

/-- Settles O3: a byte of a reserved range is in no row of the table, and is not CLRERR's. -/
theorem reservedBytesRaiseIllegalCommand : Obligations.ReservedBytesRaiseIllegalCommand := by
  intro s op hop
  have hreserved : ReservedByte op := hop
  obtain ⟨e, he⟩ := decode_reservedByte hreserved
  exact ⟨⟨e, he⟩, unitStep_error he s, fun p herr => State.issue_dropped herr hreserved.ne_clrerr⟩

end Sys2Proof.Machine
end

section
/-! O16. A host that keeps its duties: the relation between the machine and what such a host remembers,
kept by the unit's step and by each operation the duties allow. -/

namespace Sys2Proof.Machine

/-! ### What the duties allow (30 R69) -/

section
variable {c : Config} {d d' : HostDuty} {op : HostOp} {rest : List HostOp} {off : Offset} {v : Byte}
  {a : Addr}

/-- A script keeps the duties if its first operation does and the rest does after it. -/
theorem scriptWellFormed_cons : scriptWellFormed c d (op :: rest) = true ↔
    ∃ d', d.after c (c.resolve op) = some d' ∧ scriptWellFormed c d' rest = true := by
  simp only [scriptWellFormed]
  cases d.after c (c.resolve op) <;> simp

/-- A register write: out of reset, with no command pending (70 R132, R137). -/
theorem HostDuty.after_write (h : d.after c (.write off v) = some d') :
    d.inReset = false ∧ d.pending = false ∧ d.write c off v = some d' := by
  simp only [HostDuty.after] at h
  split at h
  · cases h
  · next hfree =>
    rw [Bool.or_eq_true, not_or, Bool.not_eq_true, Bool.not_eq_true] at hfree
    exact ⟨hfree.1, hfree.2, h⟩

/-- A register read: out of reset, and STATUS only while a command is pending (70 R132, R137). -/
theorem HostDuty.after_read (h : d.after c (.read off) = some d') :
    d.inReset = false ∧ (off = Reg.status.offset ∨ d.pending = false) ∧ d' = d := by
  simp only [HostDuty.after] at h
  split_ifs at h with hreset hstatus hpending
  · exact ⟨Bool.eq_false_of_not_eq_true hreset, .inl hstatus, (Option.some.inj h).symm⟩
  · exact ⟨Bool.eq_false_of_not_eq_true hreset, .inr (Bool.eq_false_of_not_eq_true hpending),
      (Option.some.inj h).symm⟩

/-- A `wait` ends what is pending (30 R69). -/
theorem HostDuty.after_wait (h : d.after c .wait = some d') :
    d.inReset = false ∧ d' = { d with pending := false } := by
  simp only [HostDuty.after] at h
  split_ifs at h with hreset
  exact ⟨Bool.eq_false_of_not_eq_true hreset, (Option.some.inj h).symm⟩

/-- A memory access: out of reset, and outside the framebuffer region while a command is pending
(70 R137, R139, R145). -/
theorem HostDuty.access_some (h : d.access a = some d') :
    d.inReset = false ∧ (d.pending = true → inRegion d.regs.fbbase a = false) ∧ d' = d := by
  unfold HostDuty.access at h
  split_ifs at h with hreset hregion
  refine ⟨Bool.eq_false_of_not_eq_true hreset, fun hpending => ?_, (Option.some.inj h).symm⟩
  rw [hpending, Bool.true_and, Bool.or_eq_true, not_or] at hregion
  exact Bool.eq_false_of_not_eq_true hregion.2

/-- A command byte the duties allow is a command that may run, or a reserved byte (70 R135). -/
theorem HostDuty.write_cmd (hoff : Reg.ofOffset off = some .cmd) (h : d.write c off v = some d') :
    (∀ i, decode v = .ok i → d.mayRun c i = true) ∧ d' = { d with pending := true } := by
  simp only [HostDuty.write, hoff] at h
  split at h
  · next i hi =>
    split_ifs at h with hrun
    refine ⟨fun j hj => ?_, (Option.some.inj h).symm⟩
    cases hi.symm.trans hj
    exact hrun
  · next e he => exact ⟨fun i hi => (by cases he.symm.trans hi), (Option.some.inj h).symm⟩

/-- A command that may run and reads FBBASE has its framebuffer clear of the register window and in
plain RAM (70 R140). -/
theorem HostDuty.mayRun_clear {i : Instr} (h : d.mayRun c i = true) (hi : .fbbaseL ∈ readSet i) :
    c.misplaced d.regs.fbbase = false := by
  simp only [HostDuty.mayRun, Bool.and_eq_true] at h
  obtain ⟨-, hplace⟩ := h
  simpa [hi] using hplace

end

/-! ### The machine and the duty -/

/-- The machine has the parameters `c` and the operations `rest` left, and is as a host with the duty `d`
takes it to be: `State.Keeps`, but for what `rest` is. -/
structure State.Follows (s : State) (c : Config) (d : HostDuty) (rest : List HostOp) : Prop where
  cfg : s.cfg = c
  script : s.script = rest
  hazarded : s.hazarded = false
  awaited : s.mustWait = true → d.pending = true
  inReset : s.inReset = d.inReset
  regs : s.regs = d.regs
  busy : ∀ op, s.seq = .busy op → s.busy = true
  runnable : ∀ op i, s.seq = .busy op → decode op = .ok i → d.mayRun c i = true

theorem State.Keeps.follows {s : State} {d : HostDuty} (h : s.Keeps d) :
    s.Follows s.cfg d s.script :=
  { h with cfg := rfl, script := rfl }

section
variable {s t : State} {c : Config} {d d' : HostDuty} {rest : List HostOp} {off : Offset} {v : Byte}
  {a : Addr} {pos : Nat}

theorem State.Follows.keeps (h : s.Follows c d rest) (hwf : scriptWellFormed c d rest = true) :
    s.Keeps d := by
  obtain ⟨rfl, rfl, hhazarded, hawaited, hreset, hregs, hbusy, hrunnable⟩ := h
  exact ⟨hhazarded, hawaited, hreset, hregs, hbusy, hrunnable, hwf⟩

/-- The duty speaks of no other field, and of the record only where it has a host hazard. -/
theorem State.Follows.of_eq (h : s.Follows c d rest)
    (heq : t = { s with
      lastCmd := t.lastCmd, err := t.err, errCode := t.errCode, triRes := t.triRes, res := t.res
      resWritten := t.resWritten, edge := t.edge, mem := t.mem, unknown := t.unknown
      record := t.record, pos := t.pos, cmdPos := t.cmdPos, obs := t.obs, turns := t.turns
      draws := t.draws })
    (hrecord : GrowsQuietly s.record t.record) : t.Follows c d rest := by
  have hhazarded : t.hazarded = false := hrecord.hazarded.trans h.hazarded
  rw [heq] at hhazarded ⊢
  exact { h with hazarded := hhazarded }

theorem State.Follows.taken {op : HostOp} (h : s.Follows c d (op :: rest)) :
    (s.taken rest).Follows c d rest :=
  { h with script := rfl }

theorem State.Follows.observe (h : s.Follows c d rest) (x : Option Byte) :
    (s.observe x).Follows c d rest := h.of_eq rfl (.refl _)

theorem State.Follows.logUninit (h : s.Follows c d rest) (pos : Nat) :
    (s.log .uninit pos).Follows c d rest := h.of_eq rfl ⟨_, rfl, by simp⟩

theorem State.Follows.poll (h : s.Follows c d rest) : s.poll.Follows c d rest :=
  h.of_eq rfl (.refl _)

theorem State.Follows.noteRegion (h : s.Follows c d rest) (pos : Nat) :
    (s.noteRegion pos).Follows c d rest := by
  rcases s.noteRegion_cases pos with ⟨-, -, hlog⟩ | ⟨-, hsame⟩
  · rw [hlog]; exact h.logUninit pos
  · rw [hsame]; exact h

/-- With nothing pending the unit is IDLE and its last completion observed (70 R137). -/
theorem State.Follows.free (h : s.Follows c d rest) (hpending : d.pending = false) :
    s.mustWait = false ∧ ∀ op, s.seq ≠ .busy op := by
  have hwait : s.mustWait = false := by
    by_contra hw
    simp [h.awaited (by simpa using hw)] at hpending
  refine ⟨hwait, fun op hop => ?_⟩
  simp [State.mustWait, h.busy op hop] at hwait

/-! ### The unit's step -/

/-- A command in execution that reads FBBASE does not find the framebuffer misplaced (70 R140). -/
theorem State.Follows.misplaced (h : s.Follows c d rest) {op : Byte} {i : Instr}
    (hop : s.seq = .busy op) (hi : decode op = .ok i) (hfb : .fbbaseL ∈ readSet i) :
    s.misplaced = false := by
  have hclear := HostDuty.mayRun_clear (h.runnable op i hop hi) hfb
  rw [State.misplaced, State.fbbase, h.cfg, h.regs, hclear, Bool.and_false]

/-- A completed command is pending still, until the host sees it. -/
theorem State.Follows.complete (h : s.Follows c d rest) : s.complete.Follows c d rest :=
  { h with
    awaited := fun hwait => h.awaited <| by
      rw [State.mustWait, show s.awaiting = true from hwait, Bool.or_true]
    busy := fun _ hop => nomatch hop
    runnable := fun _ _ hop => nomatch hop }

/-- The unit's step completes the command it runs. -/
theorem State.Follows.unitStep (h : s.Follows c d rest) {op : Byte} (hop : s.seq = .busy op) :
    ∃ t, unitStep op s = .next t ∧ t.Follows c d rest := by
  cases hd : decode op with
  | error e =>
    exact ⟨_, unitStep_error hd s, (h.of_eq rfl (growsQuietly_raise s _)).complete⟩
  | ok i =>
    obtain ⟨u, hu⟩ := exec_progress i s (h.misplaced hop hd)
    refine ⟨u.complete, by rw [unitStep_ok hd, hu]; rfl, State.Follows.complete ?_⟩
    refine h.of_eq ?_ (exec_record hu)
    have hwrites := exec_unitWrites hu
    unfold State.UnitWrites at hwrites
    rw [hwrites]

/-! ### The host's operations -/

/-- A command byte the duties allow is issued or dropped, and pending from then on (10 R19; log 29). -/
theorem State.Follows.issue (h : s.Follows c d rest)
    (hrun : ∀ i, decode v = .ok i → d.mayRun c i = true) :
    (s.issue v pos).Follows c { d with pending := true } rest := by
  unfold State.issue
  split
  · exact { h with awaited := fun _ => rfl }
  · exact { h with
      awaited := fun _ => rfl
      busy := fun _ _ => rfl
      runnable := fun op i hop hi => hrun i (by cases hop; exact hi) }

/-- The host remembers each register it writes. -/
theorem State.Follows.setData (h : s.Follows c d rest) (hidle : ∀ op, s.seq ≠ .busy op)
    (r : DataReg) : (s.setData r v).Follows c
      { d with regs := d.regs.set r { val := v, written := true } } rest :=
  { h with
    regs := by rw [State.setData_regs, h.regs]
    runnable := fun op _ hop => absurd hop (hidle op) }

theorem State.Follows.hostWrite (h : s.Follows c d rest) (hd : d.after c (.write off v) = some d') :
    (s.hostWrite off v pos).Follows c d' rest := by
  obtain ⟨hreset, hpending, hwrite⟩ := HostDuty.after_write hd
  obtain ⟨hwait, hidle⟩ := h.free hpending
  have hinReset : s.inReset = false := h.inReset.trans hreset
  have hreg : s.hostWrite off v pos = s.writeReg off v pos := by
    simp [State.hostWrite, hinReset, hwait]
  rw [hreg]
  unfold State.writeReg
  split
  · next hoff =>
    obtain ⟨hrun, rfl⟩ := HostDuty.write_cmd hoff hwrite
    exact h.issue hrun
  · next r hoff =>
    simp only [HostDuty.write, hoff, Option.some.injEq] at hwrite
    exact hwrite ▸ h.setData hidle r
  all_goals
    next hoff =>
      simp only [HostDuty.write, hoff, Option.some.injEq] at hwrite
      exact hwrite ▸ h

/-- A STATUS read leaves an observed completion observed. -/
theorem State.Follows.sawStatus (h : s.Follows c d rest) : s.sawStatus.Follows c d rest :=
  { h with
    awaited := fun hwait => h.awaited <| by
      simp only [State.mustWait, State.sawStatus_busy, State.sawStatus_awaiting, Bool.or_eq_true,
        Bool.and_eq_true] at hwait ⊢
      exact hwait.imp_right And.left }

/-- A STATUS read that finds BUSY = 0 leaves nothing pending (20 R54). -/
theorem State.Follows.sawIdle (h : s.Follows c d rest) (hbusy : s.busy = false) :
    s.sawStatus.Follows c { d with pending := false } rest :=
  { h with
    awaited := fun hwait => by simp [State.mustWait, hbusy] at hwait
    runnable := fun op _ hop => by simp [h.busy op hop] at hbusy }

theorem State.Follows.hostRead (h : s.Follows c d rest) (hd : d.after c (.read off) = some d') :
    (s.hostRead off pos).Follows c d' rest := by
  obtain ⟨hreset, hallowed, rfl⟩ := HostDuty.after_read hd
  have hinReset : s.inReset = false := h.inReset.trans hreset
  rcases hallowed with rfl | hpending
  · rw [State.hostRead_status hinReset]
    exact h.sawStatus.observe _
  · obtain ⟨hwait, -⟩ := h.free hpending
    simp only [State.hostRead, hinReset, hwait, Bool.false_eq_true, if_false]
    split_ifs
    · exact h.sawStatus.observe _
    · exact (h.logUninit pos).observe _
    · exact h.observe _

/-- A memory access the duties allow is no hazard (70 R137, R139, R145). -/
theorem State.Follows.memHazard (h : s.Follows c d rest) (hd : d.access a = some d') :
    s.memHazard a = false := by
  obtain ⟨hreset, hregion, -⟩ := HostDuty.access_some hd
  unfold State.memHazard
  cases hwait : s.mustWait with
  | false => simp [h.inReset, hreset]
  | true =>
    have houtside : inRegion s.fbbase a = false := by
      rw [State.fbbase, h.regs]
      exact hregion (h.awaited hwait)
    simp [h.inReset, hreset, houtside]

theorem State.Follows.hostWriteMem (h : s.Follows c d rest) (hd : d.access a = some d') :
    (s.hostWriteMem a v pos).Follows c d' rest := by
  obtain ⟨-, -, rfl⟩ := HostDuty.access_some hd
  rw [State.hostWriteMem, h.memHazard hd, if_neg Bool.false_ne_true]
  exact (h.noteRegion pos).of_eq rfl (.refl _)

theorem State.Follows.hostReadMem (h : s.Follows c d rest) (hd : d.access a = some d') :
    (s.hostReadMem a pos).Follows c d' rest := by
  obtain ⟨-, -, rfl⟩ := HostDuty.access_some hd
  rw [State.hostReadMem, h.memHazard hd, if_neg Bool.false_ne_true]
  split
  · exact ((h.noteRegion pos).logUninit pos).observe _
  · exact (h.noteRegion pos).observe _

/-! ### Reset -/

/-- A command whose abandoning leaves cells unknown is a command that writes memory (70 R146). -/
theorem State.abandoned_ne_nil (h : s.abandoned ≠ []) :
    ∃ op i, s.seq = .busy op ∧ decode op = .ok i ∧ writesMemory i = true := by
  unfold State.abandoned at h
  cases hs : s.seq with
  | idle => simp [hs] at h
  | busy op =>
    cases hd : decode op with
    | error e => simp [hs, hd] at h
    | ok i =>
      refine ⟨op, i, rfl, hd, ?_⟩
      cases i <;> simp_all [writesMemory]

/-- The commands that write memory read FBBASE (30 R64). -/
theorem fbbaseL_mem_readSet_of_writesMemory {i : Instr} (h : writesMemory i = true) :
    .fbbaseL ∈ readSet i := by
  have hall : ∀ i ∈ [Instr.clear, .setpix, .spantop, .spanbot, .spandual, .filltri, .span2],
      .fbbaseL ∈ readSet i := by decide
  exact hall i ((writesMemory_iff i).mp h)

/-- The assertion of reset is never refused, and leaves nothing pending (70 R133; log 30). -/
theorem State.Follows.assertReset (h : s.Follows c d rest) :
    ∃ t, s.assertReset = .next t ∧
      t.Follows c { pending := false, inReset := true, regs := .reset } rest := by
  have hplace : ¬(s.abandoned ≠ [] ∧ s.misplaced = true) := by
    rintro ⟨hcells, hmis⟩
    obtain ⟨op, i, hop, hi, hw⟩ := State.abandoned_ne_nil hcells
    rw [h.misplaced hop hi (fbbaseL_mem_readSet_of_writesMemory hw)] at hmis
    exact Bool.false_ne_true hmis
  refine ⟨_, if_neg hplace, ?_⟩
  have hnoted : s.noteAbandoned.Follows c d rest := by
    rcases s.noteAbandoned_cases with ⟨-, hsame⟩ | ⟨-, hlog⟩
    · rw [hsame]; exact h
    · rw [hlog]; exact h.logUninit _
  have haddrs : ∀ a ∈ s.abandoned.map fun w => cellAddr s.fbbase w.off, a < 65536 :=
    List.forall_mem_map.mpr fun w _ => cellAddr_lt s.fbbase w.off
  obtain ⟨hframe, -⟩ := State.forget_spec _ s.noteAbandoned haddrs
  rw [hframe]
  exact { hnoted with
    awaited := fun hwait => nomatch hwait
    inReset := rfl
    regs := rfl
    busy := fun _ hop => nomatch hop
    runnable := fun _ _ hop => nomatch hop }

theorem State.Follows.releaseReset (h : s.Follows c d rest) :
    State.Follows { s with inReset := false } c { d with inReset := false } rest :=
  { h with inReset := rfl }

end

/-! ### The host's turn and the step -/

/-- A host that keeps its duties keeps them by its turn, unless the turn is a memory access that is not
plain RAM. -/
theorem State.Keeps.hostTurn {s : State} {d : HostDuty} (h : s.Keeps d) :
    (∃ t d', s.hostTurn = .next t ∧ t.Keeps d') ∨
      (s.hostTurn = .refused .notPlainRam ∧
        ∃ op rest a, s.script = op :: rest ∧ s.cfg.plainRam a = false ∧
          (s.cfg.resolve op = .readMem a ∨ ∃ v, s.cfg.resolve op = .writeMem a v)) := by
  rcases hostTurn_cases s with ⟨-, hidle⟩ | ⟨op, rest, hs, hcases⟩
  · exact .inl ⟨s, d, hidle, h⟩
  have hscript := h.script
  rw [hs, scriptWellFormed_cons] at hscript
  obtain ⟨d', hd, hrest⟩ := hscript
  have hfollows := h.follows
  rw [hs] at hfollows
  have htaken := hfollows.taken
  rcases hcases with ⟨off, v, hop, hturn⟩ | ⟨off, hop | ⟨hop, rfl, hend⟩, hturn⟩ |
      ⟨hop, -, -, hturn⟩ | ⟨a, hop, hram, hturn⟩ | ⟨a, v, hop, -, hturn⟩ | ⟨a, hop, -, hturn⟩ |
      ⟨hop, hturn⟩ | ⟨hop, hturn⟩
  · rw [hop] at hd
    exact .inl ⟨_, d', hturn, (htaken.hostWrite hd).keeps hrest⟩
  · rw [hop] at hd
    exact .inl ⟨_, d', hturn, (htaken.hostRead hd).keeps hrest⟩
  · rw [hop] at hd
    obtain ⟨hreset, rfl⟩ := HostDuty.after_wait hd
    have hinReset : s.inReset = false := h.inReset.trans hreset
    have hbusy : s.busy = false := hend.resolve_left (by simp [hinReset])
    have hread : (s.taken rest).hostRead 0x01 s.pos
        = (s.taken rest).sawStatus.observe (some (s.taken rest).status) :=
      State.hostRead_status (s := s.taken rest) hinReset
    rw [hread] at hturn
    exact .inl ⟨_, _, hturn, ((htaken.sawIdle hbusy).observe _).keeps hrest⟩
  · exact .inl ⟨s.poll, d, hturn, h.follows.poll.keeps h.script⟩
  · refine .inr ⟨hturn, op, rest, a, hs, ?_, hop⟩
    simp only [State.offRam, Bool.and_eq_true, Bool.not_eq_true'] at hram
    exact hram.2
  · rw [hop] at hd
    exact .inl ⟨_, d', hturn, (htaken.hostWriteMem hd).keeps hrest⟩
  · rw [hop] at hd
    exact .inl ⟨_, d', hturn, (htaken.hostReadMem hd).keeps hrest⟩
  · rw [hop] at hd
    cases hd
    obtain ⟨t, ht, hfollows'⟩ := htaken.assertReset
    exact .inl ⟨t, _, hturn.trans ht, hfollows'.keeps hrest⟩
  · rw [hop] at hd
    cases hd
    exact .inl ⟨_, _, hturn, htaken.releaseReset.keeps hrest⟩

/-- Settles O16: the unit's step keeps the duty as it is, and each turn of the host moves it on. -/
theorem wellFormedScriptNeverHazards : Obligations.WellFormedScriptNeverHazards := by
  intro s d h
  by_cases hunit : ∃ op, s.seq = .busy op ∧ s.unitsTurn = true
  · obtain ⟨op, hop, hturn⟩ := hunit
    obtain ⟨t, ht, hfollows⟩ := h.follows.unitStep hop
    exact .inl ⟨t, d, (step_unitsTurn h.hazarded hop hturn).trans ht, hfollows.keeps h.script⟩
  · have hturn : s.hostsTurn := by
      refine ⟨h.hazarded, ?_⟩
      cases hop : s.seq with
      | idle => exact .inl rfl
      | busy op => exact .inr (Bool.eq_false_of_not_eq_true fun hu => hunit ⟨op, hop, hu⟩)
    rw [step_hostsTurn hturn]
    exact h.hostTurn

end Sys2Proof.Machine
end

section
/-! The numbers of the arithmetic family: RES and its bytes as numbers (00 R11), the range of a product,
and the truncated quotient of 40 R76 to R79. -/

namespace Sys2Proof.Machine

/-! ### RES as a number (00 R11, 10 R28) -/

/-- A number of the family's range (40 R71) stands in RES as it is. -/
theorem toInt_wrap24 {r : Int} (hlo : -8388608 ≤ r) (hhi : r < 8388608) : (wrap24 r).toInt = r :=
  BitVec.toInt_ofInt_eq_self (by decide) (by omega) (by omega)

/-- The signed reading of RES differs from the unsigned one by a multiple of 2^24. -/
theorem toInt_emod_16777216 (x : Res24) : x.toInt % 16777216 = x.toNat := by
  have := x.isLt
  rw [BitVec.toInt_eq_toNat_cond]
  split <;> omega

/-- RES0 is the signed number in RES modulo 256 (40 R78). -/
theorem toNat_res0 (x : Res24) : ((x.extractLsb' 0 8).toNat : Int) = x.toInt % 256 := by
  have := toInt_emod_16777216 x
  have := toNat_eq_three_bytes x
  omega

/-- RES1 is the floor of the signed number in RES over 256, modulo 256 (40 R78). -/
theorem toNat_res1 (x : Res24) : ((x.extractLsb' 8 8).toNat : Int) = x.toInt / 256 % 256 := by
  have := toInt_emod_16777216 x
  have := toNat_eq_three_bytes x
  omega

/-- RES2 read as signed is the floor of the signed number in RES over 65536 (40 R75). -/
theorem toInt_res2 (x : Res24) : (x.extractLsb' 16 8).toInt = x.toInt / 65536 := by
  have := toNat_eq_three_bytes x
  rw [BitVec.toInt_eq_toNat_cond, BitVec.toInt_eq_toNat_cond]
  split <;> split <;> omega

/-- RES[15:0] read as signed is the signed number in RES, when 16 bits hold it (40 R79). -/
theorem toInt_res_low16 {x : Res24} (hlo : -32768 ≤ x.toInt) (hhi : x.toInt < 32768) :
    (x.extractLsb' 0 16).toInt = x.toInt := by
  have hmod : ((x.extractLsb' 0 16).toNat : Int) = x.toInt % 65536 := by
    rw [BitVec.extractLsb'_toNat, Nat.shiftRight_zero]
    have := toInt_emod_16777216 x
    omega
  rw [BitVec.toInt_eq_toNat_cond]
  split <;> omega

/-! ### The range of a product (40 R72 to R75) -/

/-- A signed factor times a factor in 0..n lies between the signed factor's limits times n. -/
theorem mul_mem_range {a b lo hi n : Int} (ha : lo ≤ a ∧ a ≤ hi) (h0 : lo ≤ 0 ∧ 0 ≤ hi)
    (hb : 0 ≤ b ∧ b ≤ n) : lo * n ≤ a * b ∧ a * b ≤ hi * n :=
  ⟨calc lo * n ≤ lo * b := mul_le_mul_of_nonpos_left hb.2 h0.1
      _ ≤ a * b := mul_le_mul_of_nonneg_right ha.1 hb.1,
    calc a * b ≤ hi * b := mul_le_mul_of_nonneg_right ha.2 hb.1
      _ ≤ hi * n := mul_le_mul_of_nonneg_left hb.2 h0.2⟩

/-- A byte read as signed lies in -128..127. -/
theorem toInt_byte_mem (x : Byte) : -128 ≤ x.toInt ∧ x.toInt ≤ 127 :=
  ⟨x.le_toInt, x.toInt_le⟩

/-- A byte read as unsigned lies in 0..255. -/
theorem toNat_byte_mem (x : Byte) : 0 ≤ (x.toNat : Int) ∧ (x.toNat : Int) ≤ 255 := by
  have := x.isLt
  omega

/-- The product of two signed bytes (40 R73): where the second is negative, both are negated. -/
theorem signed_bytes_product (x y : Byte) :
    -16256 ≤ x.toInt * y.toInt ∧ x.toInt * y.toInt ≤ 16384 := by
  have hx := toInt_byte_mem x
  have hy := toInt_byte_mem y
  rcases le_total 0 y.toInt with h | h
  · have := mul_mem_range hx (by decide) ⟨h, hy.2⟩
    omega
  · have := mul_mem_range (a := -x.toInt) (b := -y.toInt) (lo := -127) (hi := 128) (n := 128)
      (by omega) (by decide) (by omega)
    rw [neg_mul_neg] at this
    omega

/-! ### The truncated quotient (40 R76, R78, R79) -/

section
variable {d v : Int}

/-- The quotient has the sign of the dividend or is 0 (40 R78 (a)). -/
theorem quotient_sign (hv : 0 ≤ v) :
    (0 < Int.tdiv (d * 256) v → 0 < d) ∧ (Int.tdiv (d * 256) v < 0 → d < 0) := by
  constructor <;> intro hq <;> by_contra hd
  · have := Int.tdiv_nonneg (a := -(d * 256)) (b := v) (by omega) hv
    rw [Int.neg_tdiv] at this
    omega
  · have := Int.tdiv_nonneg (a := d * 256) (b := v) (by omega) hv
    omega

/-- The magnitude of the quotient is the floor of the magnitudes' quotient (40 R78 (b)). -/
theorem quotient_natAbs (hv : 0 ≤ v) :
    ((Int.tdiv (d * 256) v).natAbs : Int) = 256 * (d.natAbs : Int) / v := by
  obtain ⟨n, rfl⟩ := Int.eq_ofNat_of_zero_le hv
  rw [Int.natAbs_tdiv, Int.natAbs_mul, mul_comm]
  rfl

/-- 16 bits hold the quotient of a signed byte (40 R79). -/
theorem quotient_range (hv : 0 ≤ v) (hd : -128 ≤ d ∧ d ≤ 127) :
    -32768 ≤ Int.tdiv (d * 256) v ∧ Int.tdiv (d * 256) v ≤ 32512 := by
  obtain ⟨hpos, -⟩ := quotient_sign (d := d) hv
  have := Int.natAbs_tdiv_le_natAbs (d * 256) v
  omega

/-- The integer part of the quotient is the truncated quotient of the integers, when nothing is left or
the dividend is not negative (40 R78 (d)). -/
theorem quotient_floor_of_nonneg_or_dvd (hv : 0 < v) (h : 0 ≤ d ∨ v ∣ d) :
    Int.tdiv (d * 256) v / 256 = Int.tdiv d v := by
  rcases h with hd | ⟨k, rfl⟩
  · rw [Int.tdiv_eq_ediv_of_nonneg (by omega), Int.tdiv_eq_ediv_of_nonneg hd,
      Int.ediv_ediv_of_nonneg hv.le, Int.mul_ediv_mul_of_pos_left _ _ (by decide)]
  · rw [mul_assoc, Int.mul_tdiv_cancel_left _ hv.ne', Int.mul_tdiv_cancel_left _ hv.ne',
      Int.mul_ediv_cancel _ (by decide)]

/-- What the integer part leaves of a quotient with a remainder is a fraction byte other than 0, because
the divisor is at most 256. -/
theorem quotient_fraction_of_not_dvd {n : Int} (hv : 0 < v) (hv' : v ≤ 256) (h : ¬v ∣ n) :
    256 * (n / v) < n * 256 / v ∧ n * 256 / v < 256 * (n / v) + 256 := by
  have hn := Int.mul_ediv_add_emod n v
  have hr := (Int.emod_pos_of_not_dvd h).resolve_left hv.ne'
  have hrv := Int.emod_lt_of_pos n hv
  constructor
  · rw [← Int.add_one_le_iff, Int.le_ediv_iff_mul_le hv]
    linarith
  · rw [Int.ediv_lt_iff_lt_mul hv]
    linarith

/-- The integer part of the quotient of a negative dividend with a remainder is the truncated quotient of
the integers less one (40 R78 (d)): its fraction byte is not 0, so the floor is one lower. -/
theorem quotient_floor_of_neg (hv : 0 < v) (hv' : v ≤ 256) (hd : d < 0) (h : ¬v ∣ d) :
    Int.tdiv (d * 256) v / 256 = Int.tdiv d v - 1 := by
  obtain ⟨n, rfl⟩ : ∃ n, d = -n := ⟨-d, (neg_neg d).symm⟩
  have := quotient_fraction_of_not_dvd hv hv' (mt Int.dvd_neg.mpr h)
  rw [neg_mul, Int.neg_tdiv, Int.neg_tdiv, Int.tdiv_eq_ediv_of_nonneg (by omega),
    Int.tdiv_eq_ediv_of_nonneg (by omega)]
  omega

end

end Sys2Proof.Machine
end

section
/-! O23 to O31. The arithmetic commands: each ends in a result or, DIVFX by zero, in DIV_ZERO; then what
the result is. -/

namespace Sys2Proof.Machine

/-! ### How an arithmetic command ends (40 R71, R76) -/

/-- A command that notes its reads and writes RES does nothing else. -/
theorem writesOnlyRes_setRes (s : State) (i : Instr) (v : Res24) :
    WritesOnlyRes s ((s.noteReads (readSet i)).setRes v) i :=
  congrArg (State.setRes · v) (State.noteReads_eq s (readSet i))

/-- `WritesOnlyRes` as a frame: any field but RES, its mark and the record is as it was. -/
theorem WritesOnlyRes.frame {s t : State} {i : Instr} (h : WritesOnlyRes s t i) :
    t = { s with
      res := t.res, resWritten := t.resWritten, err := t.err, errCode := t.errCode
      record := t.record } := by
  obtain ⟨v, l, rfl⟩ : ∃ v l, t = { s with res := v, resWritten := true, record := l } := ⟨_, _, h⟩
  rfl

/-- A result is written wrapped to 24 bits (40 R71). -/
theorem res_of_result {s t : State} {r : Int} (h : s.result r = .next t) : t.res = wrap24 r := by
  cases h
  rfl

/-- A result in the family's range is written exactly, and nothing else is (40 R71). -/
theorem result_exact {s : State} {i : Instr} {r : Int} (hlo : -8388608 ≤ r) (hhi : r < 8388608) :
    ∃ t, (s.noteReads (readSet i)).result r = .next t ∧ WritesOnlyRes s t i ∧ t.res.toInt = r :=
  ⟨_, rfl, writesOnlyRes_setRes s i _, toInt_wrap24 hlo hhi⟩

/-- The divisor is zero exactly when the byte in OPB is. -/
theorem State.opbU8_eq_zero_iff (s : State) : s.opbU8 = 0 ↔ s.regs.opb.val = 0 := by
  rw [State.opbU8, Int.natCast_eq_zero, ← BitVec.toNat_inj]
  rfl

/-- DIVFX by zero raises DIV_ZERO (40 R76). -/
theorem exec_divfx_zero {s : State} (h : s.regs.opb.val = 0) :
    exec .divfx s = raised s .divfx .divZero := by
  rw [raised_eq]
  exact if_pos (s.opbU8_eq_zero_iff.mpr h)

/-- DIVFX by another divisor ends in the truncated quotient (40 R76). -/
theorem exec_divfx_nonzero {s : State} (h : s.regs.opb.val ≠ 0) :
    exec .divfx s
      = (s.noteReads (readSet .divfx)).result (Int.tdiv (s.opaS8 * 256) s.opbU8) :=
  if_neg (mt s.opbU8_eq_zero_iff.mp h)

/-- An arithmetic command raises DIV_ZERO as DIVFX by zero, or ends in a result. -/
theorem exec_arithmetic {i : Instr} (s : State)
    (hi : i ∈ [Instr.mulu8, .muls8, .muls8u8, .muls16u8, .divfx]) :
    (i = .divfx ∧ s.regs.opb.val = 0 ∧ exec i s = raised s i .divZero) ∨
      ((i ≠ .divfx ∨ s.regs.opb.val ≠ 0) ∧ ∃ r, exec i s = (s.noteReads (readSet i)).result r) := by
  simp only [List.mem_cons, List.not_mem_nil, or_false] at hi
  obtain rfl | rfl | rfl | rfl | rfl := hi
  · exact .inr ⟨.inl (by decide), _, rfl⟩
  · exact .inr ⟨.inl (by decide), _, rfl⟩
  · exact .inr ⟨.inl (by decide), _, rfl⟩
  · exact .inr ⟨.inl (by decide), _, rfl⟩
  · by_cases h : s.regs.opb.val = 0
    · exact .inl ⟨rfl, h, exec_divfx_zero h⟩
    · exact .inr ⟨.inr h, _, exec_divfx_nonzero h⟩

/-! ### The multiplies -/

/-- Settles O23: the product is below 65536, so RES2 is its floor over 65536, which is 0. -/
theorem mulu8WritesTheExactProduct : Obligations.Mulu8WritesTheExactProduct := by
  refine ⟨rfl, fun s => ?_⟩
  have hrange := mul_mem_range (toNat_byte_mem s.regs.opaL.val) (by decide)
    (toNat_byte_mem s.regs.opb.val)
  obtain ⟨t, ht, honly, hres⟩ := result_exact (s := s) (i := .mulu8)
    (r := s.regs.opaL.val.toNat * s.regs.opb.val.toNat) (by omega) (by omega)
  refine ⟨t, ht, honly, hres, BitVec.eq_of_toInt_eq ?_⟩
  rw [toInt_res2, hres]
  exact Int.ediv_eq_zero_of_lt (by omega) (by omega)

/-- Settles O24: the product of two signed bytes is in the family's range. -/
theorem muls8WritesTheExactProduct : Obligations.Muls8WritesTheExactProduct := by
  refine ⟨rfl, fun s => ?_⟩
  have hrange := signed_bytes_product s.regs.opaL.val s.regs.opb.val
  obtain ⟨t, ht, honly, hres⟩ := result_exact (s := s) (i := .muls8)
    (r := s.regs.opaL.val.toInt * s.regs.opb.val.toInt) (by omega) (by omega)
  exact ⟨t, ht, honly, hres, by omega, by omega⟩

/-- Settles O25: a signed byte times an unsigned one is in the family's range. -/
theorem muls8u8WritesTheExactProduct : Obligations.Muls8u8WritesTheExactProduct := by
  refine ⟨rfl, fun s => ?_⟩
  have hrange := mul_mem_range (toInt_byte_mem s.regs.opaL.val) (by decide)
    (toNat_byte_mem s.regs.opb.val)
  obtain ⟨t, ht, honly, hres⟩ := result_exact (s := s) (i := .muls8u8)
    (r := s.regs.opaL.val.toInt * s.regs.opb.val.toNat) (by omega) (by omega)
  exact ⟨t, ht, honly, hres, by omega, by omega⟩

/-- Settles O26: RES2 is the floor for any number in RES. -/
theorem muls16u8WritesTheExactProduct : Obligations.Muls16u8WritesTheExactProduct := by
  refine ⟨rfl, fun s => ?_⟩
  have hrange := mul_mem_range (lo := -32768) (hi := 32767)
    ⟨BitVec.le_toInt (s.regs.opaH.val ++ s.regs.opaL.val : BitVec 16), BitVec.toInt_le⟩ (by decide)
    (toNat_byte_mem s.regs.opb.val)
  obtain ⟨t, ht, honly, hres⟩ := result_exact (s := s) (i := .muls16u8)
    (r := (s.regs.opaH.val ++ s.regs.opaL.val : BitVec 16).toInt * s.regs.opb.val.toNat)
    (by omega) (by omega)
  exact ⟨t, ht, honly, hres, by omega, by omega, toInt_res2 t.res⟩

/-- Settles O30: both commands wrap the product, and swapping the registers swaps its factors. -/
theorem symmetricMultipliesCommute : Obligations.SymmetricMultipliesCommute := by
  intro s s' t t' i hi ha hb h h'
  obtain rfl | rfl := hi
  · rw [res_of_result h, res_of_result h', State.opaU8, State.opaU8, State.opbU8, State.opbU8, ha, hb,
      mul_comm]
  · rw [res_of_result h, res_of_result h', State.opaS8, State.opaS8, State.opbS8, State.opbS8, ha, hb,
      mul_comm]

/-! ### The divide -/

/-- Settles O27: 24 bits hold every quotient. -/
theorem divfxWritesTheTruncatedQuotient : Obligations.DivfxWritesTheTruncatedQuotient := by
  refine ⟨rfl, fun s => ⟨exec_divfx_zero, fun hv => ?_⟩⟩
  have hrange := quotient_range (toNat_byte_mem s.regs.opb.val).1 (toInt_byte_mem s.regs.opaL.val)
  rw [exec_divfx_nonzero hv]
  exact result_exact (r := Int.tdiv (s.regs.opaL.val.toInt * 256) s.regs.opb.val.toNat)
    (by omega) (by omega)

/-- What DIVFX by a non-zero divisor leaves in RES. -/
theorem divfx_quotient {s t : State} (hv : s.regs.opb.val ≠ 0) (h : exec .divfx s = .next t) :
    t.res.toInt = Int.tdiv (s.regs.opaL.val.toInt * 256) s.regs.opb.val.toNat := by
  obtain ⟨t', ht', -, hres⟩ := (divfxWritesTheTruncatedQuotient.2 s).2 hv
  cases ht'.symm.trans h
  exact hres

/-- Settles O28: the laws of the truncated quotient, and RES0 and RES1 as the bytes of a number. -/
theorem divfxSignAndByteLaws : Obligations.DivfxSignAndByteLaws := by
  intro s t hv h d v q
  have hq : q = Int.tdiv (d * 256) v := divfx_quotient hv h
  obtain ⟨hnonneg, hle⟩ : 0 ≤ v ∧ v ≤ 255 := toNat_byte_mem s.regs.opb.val
  have hv0 : 0 < v := lt_of_le_of_ne hnonneg (Ne.symm (mt s.opbU8_eq_zero_iff.mp hv))
  obtain ⟨hpos, hneg⟩ := quotient_sign (d := d) hv0.le
  have hres1 : ((t.res.extractLsb' 8 8).toNat : Int) = q / 256 % 256 := toNat_res1 t.res
  refine ⟨hq ▸ hpos, hq ▸ hneg, hq ▸ quotient_natAbs hv0.le, toNat_res0 t.res, hres1,
    fun hd => ?_, fun hd hdvd => ?_⟩
  · rw [hres1, hq, quotient_floor_of_nonneg_or_dvd hv0 hd]
  · rw [hres1, hq, quotient_floor_of_neg hv0 (by omega) hd hdvd]

/-- Settles O29: the quotient's range is that of 16 bits. -/
theorem divfxNeverOverflows : Obligations.DivfxNeverOverflows := by
  intro s t hv h
  have hq := divfx_quotient hv h
  have hrange := quotient_range (toNat_byte_mem s.regs.opb.val).1 (toInt_byte_mem s.regs.opaL.val)
  rw [← hq] at hrange
  exact ⟨hrange.1, hrange.2, (toInt_res_low16 hrange.1 (by omega)).trans hq⟩

/-! ### The frame of the family -/

/-- Settles O31: the two ends of an arithmetic command. -/
theorem arithmeticChangesOnlyRes : Obligations.ArithmeticChangesOnlyRes := by
  intro s t i hi h
  rcases exec_arithmetic s hi with ⟨rfl, hzero, hexec⟩ | ⟨hends, r, hexec⟩
  · cases hexec.symm.trans h
    refine ⟨rfl, fun hne => ?_, fun _ _ => ⟨rfl, rfl, rfl, rfl⟩⟩
    exact hne.elim (absurd rfl) (absurd hzero)
  · cases hexec.symm.trans h
    have honly := writesOnlyRes_setRes s i (wrap24 r)
    exact ⟨honly.frame, fun _ => honly, fun hdiv hzero =>
      hends.elim (absurd hdiv) (absurd hzero)⟩

end Sys2Proof.Machine
end

section
/-! O32, O33 and O35 to O38. The drawing commands of 41: a plan that fails a check raises its fault, and a
legal plan's cell writes cover exactly the command's pixel set. -/

namespace Sys2Proof.Machine

section
variable {s : State} {i : Instr} {par : Nat}

/-! ### Plans that fail a check (41 R80) -/

/-- Carrying out a plan that faults is the command's fault entry (60 R121). -/
theorem carryOut_raised {p : Plan} {code : FaultCode} (hp : p = .error code) :
    (s.noteReads (readSet i)).carryOut p = raised s i code := by
  rw [hp, raised_eq, State.carryOut_error]

theorem State.planClear_badColor (h : 3 < s.color) : s.planClear = .error .badColor :=
  if_pos (s.badColor_eq_true.mpr h)

theorem State.planSetpix_badColor (h : 3 < s.color) : s.planSetpix = .error .badColor :=
  if_pos (s.badColor_eq_true.mpr h)

/-- Out of range SETPIX has no cell to write (41 R83). -/
theorem State.planSetpix_outOfRange (h : s.color ≤ 3) (hout : 80 ≤ s.p0 ∨ 50 ≤ s.p1) :
    s.planSetpix = .ok [] := by
  rw [State.planSetpix, s.badColor_eq_false.mpr h, if_neg Bool.false_ne_true, if_neg (by omega)]

theorem State.spanFault_badColor (h : 3 < s.color) : s.spanFault par = some .badColor :=
  if_pos (s.badColor_eq_true.mpr h)

theorem State.spanFault_range (h : s.color ≤ 3) (hout : 49 < s.p1 ∨ 80 < s.p0 ∨ 80 < s.p2) :
    s.spanFault par = some .range := by
  rw [State.spanFault, s.badColor_eq_false.mpr h, if_neg Bool.false_ne_true, if_pos hout]

theorem State.spanFault_parity (h : s.color ≤ 3) (h1 : s.p1 ≤ 49) (h0 : s.p0 ≤ 80) (h2 : s.p2 ≤ 80)
    (hpar : s.p1 % 2 ≠ par) : s.spanFault par = some .parity := by
  rw [State.spanFault, s.badColor_eq_false.mpr h, if_neg Bool.false_ne_true, if_neg (by omega),
    if_pos hpar]

/-- A command that raises what the span checks find raises the first failing check. -/
theorem spanChecked_of_spanFault
    (h : ∀ code, s.spanFault par = some code → exec i s = raised s i code) : SpanChecked s i par :=
  ⟨fun hcolor => h _ (State.spanFault_badColor hcolor),
    fun hcolor hout => h _ (State.spanFault_range hcolor hout),
    fun hcolor h1 h0 h2 hpar => h _ (State.spanFault_parity hcolor h1 h0 h2 hpar)⟩

theorem spanChecked_spantop (s : State) : SpanChecked s .spantop 0 :=
  spanChecked_of_spanFault fun _ hf => carryOut_raised (by simp only [State.planSpantop, hf])

theorem spanChecked_spanbot (s : State) : SpanChecked s .spanbot 1 :=
  spanChecked_of_spanFault fun _ hf => carryOut_raised (by simp only [State.planSpanbot, hf])

theorem spanChecked_spandual (s : State) : SpanChecked s .spandual 0 :=
  spanChecked_of_spanFault fun _ hf => carryOut_raised (by simp only [State.planSpandual, hf])

/-! ### Empty intervals (41 R89) -/

theorem spanCells_empty {rows : Byte} {y xl xr : Nat} (h : xr ≤ xl) : spanCells rows y xl xr = [] :=
  if_neg h.not_gt

/-- A plan without a cell write completes with the reads noted and nothing else. -/
theorem carryOut_nothing {p : Plan} {ws : List CellWrite} (ds : List DataReg) (hp : p = .ok ws)
    (hws : ws = []) : (s.noteReads ds).carryOut p = .next (s.noteReads ds) := by
  rw [hp, hws, State.carryOut_ok, State.drawCells_nil]

/-! ### Legal plans (41 R82 to R87) -/

/-- Legal operands and a plan of one row: the row's pixels are drawn (41 R85, R86). -/
theorem carryOut_rowCells_draws {p : Plan} (hp : p = .ok (rowCells s.p1 s.p0 s.p2))
    (hlegal : spanLegal s par) (ho : s.p0 < s.p2 → s.misplaced = false) (hm : Mem.wf s.mem = true) :
    ∃ t, (s.noteReads (readSet i)).carryOut p = .next t ∧ Draws s t i (inRow s.p1 s.p0 s.p2) := by
  obtain ⟨hy, hxr, -⟩ := hlegal.bounds
  subst hp
  exact carryOut_draws hm (fun hne => ho (lt_of_not_ge fun h => hne (spanCells_empty h)))
    (fun _ => maskAt_rowCells hy hxr) (spanCells_off hy hxr)

/-- Legal operands and a plan of two rows: the pixels of both are drawn (41 R87). -/
theorem carryOut_dualCells_draws {p : Plan} (hp : p = .ok (dualCells s.p1 s.p0 s.p2))
    (hlegal : spanLegal s 0) (ho : s.p0 < s.p2 → s.misplaced = false) (hm : Mem.wf s.mem = true) :
    ∃ t, (s.noteReads (readSet i)).carryOut p = .next t ∧ Draws s t i fun x y =>
      inRow s.p1 s.p0 s.p2 x y || inRow (s.p1 + 1) s.p0 s.p2 x y := by
  obtain ⟨hy, hxr, heven⟩ := hlegal.bounds
  subst hp
  exact carryOut_draws hm (fun hne => ho (lt_of_not_ge fun h => hne (spanCells_empty h)))
    (fun _ => maskAt_dualCells hy heven hxr) (spanCells_off hy hxr)

end

/-- Settles O35: the checks are those of the plan, and the plan is one row. -/
theorem spantopColorsTheTopRow : Obligations.SpantopColorsTheTopRow :=
  ⟨rfl, fun s => ⟨spanChecked_spantop s, fun hlegal =>
    carryOut_rowCells_draws (State.planSpantop_ok hlegal) hlegal⟩⟩

/-- Settles O36: the checks are those of the plan, and the plan is one row. -/
theorem spanbotColorsTheBottomRow : Obligations.SpanbotColorsTheBottomRow :=
  ⟨rfl, fun s => ⟨spanChecked_spanbot s, fun hlegal =>
    carryOut_rowCells_draws (State.planSpanbot_ok hlegal) hlegal⟩⟩

/-- Settles O37: the checks are those of the plan, and the plan is both rows. -/
theorem spandualColorsBothRows : Obligations.SpandualColorsBothRows :=
  ⟨rfl, fun s => ⟨spanChecked_spandual s, fun hlegal =>
    carryOut_dualCells_draws (State.planSpandual_ok hlegal) hlegal⟩⟩

/-- Settles O38: an empty interval has no cell, so the plan of legal operands writes nothing. -/
theorem emptySpanMakesNoAccess : Obligations.EmptySpanMakesNoAccess := fun _ hempty =>
  ⟨fun hlegal =>
    ⟨carryOut_nothing _ (State.planSpantop_ok hlegal) (spanCells_empty hempty),
      carryOut_nothing _ (State.planSpandual_ok hlegal) (spanCells_empty hempty)⟩,
    fun hlegal => carryOut_nothing _ (State.planSpanbot_ok hlegal) (spanCells_empty hempty)⟩

/-! ### SETPIX: a row of one pixel (41 R83) -/

/-- The slot of a pixel is where its row and its column cross (20 R44, 41 R81). -/
theorem slotMask_eq_row_and_column (x y : Nat) :
    slotMask x y = rowOf y &&& columnsOf x (x + 1) (x / 2) := by
  have hleft : x ≤ 2 * (x / 2) ↔ x % 2 = 0 := by omega
  have hright : 2 * (x / 2) + 1 < x + 1 ↔ x % 2 = 1 := by omega
  simp only [slotMask, pixelShift, rowOf, columnsOf, hleft, hright]
  rcases Nat.mod_two_eq_zero_or_one x with hx | hx <;>
    rcases Nat.mod_two_eq_zero_or_one y with hy | hy <;> rw [hx, hy] <;> decide

/-- The cell write of one pixel is that of the row of that pixel. -/
theorem rowCells_pixel (x y : Nat) :
    rowCells y x (x + 1) = [{ off := cellOff x y, mask := slotMask x y }] := by
  have hone : x / 2 + 1 - x / 2 = 1 := by omega
  rw [slotMask_eq_row_and_column, rowCells, spanCells, if_pos x.lt_succ_self, Nat.add_sub_cancel, hone]
  rfl

/-- The row of one pixel, as a set. -/
theorem inRow_pixel (x y : Nat) :
    inRow y x (x + 1) = fun px py => decide (px = x) && decide (py = y) := by
  funext px py
  rw [Bool.eq_iff_iff]
  simp only [inRow, Bool.and_eq_true, decide_eq_true_eq]
  omega

/-- Settles O33: in range the plan is the row of one pixel, out of range it is empty. -/
theorem setpixColorsOnePixel : Obligations.SetpixColorsOnePixel := by
  refine ⟨rfl, fun s => ⟨fun hcolor => carryOut_raised (State.planSetpix_badColor hcolor),
    fun hcolor hx hy ho hm => ?_,
    fun hcolor hout => carryOut_nothing _ (State.planSetpix_outOfRange hcolor hout) rfl⟩⟩
  have hplan : s.planSetpix = .ok (rowCells s.p1 s.p0 (s.p0 + 1)) := by
    rw [State.planSetpix_ok hcolor hx hy, rowCells_pixel]
  rw [← inRow_pixel, exec, execSetpix, hplan]
  exact carryOut_draws hm (fun _ => ho) (fun _ => maskAt_rowCells hy hx) (spanCells_off hy hx)

/-! ### CLEAR: all slots of every cell (41 R82) -/

/-- The whole screen covers all four slots of every cell. -/
theorem slotsOf_screen {off : Nat} (hoff : off < 1000) :
    slotsOf (fun x y => decide (x < 80) && decide (y < 50)) off = 0xFF := by
  rw [slotsOf_congr (g := fun _ _ => true) fun x y hx hy => by
    simp only [Bool.and_eq_true, decide_eq_true_eq]
    omega]
  obtain ⟨h1, h2, h3, h4⟩ := slotMask_cell (off % 40) (off / 40)
  simp only [slotsOf, h1, h2, h3, h4]
  rfl

/-- CLEAR's cell writes store every byte of the region whole. -/
theorem maskAt_clear {base : Addr} {off : Nat} (hoff : off < 1000) :
    maskAt base ((List.range 1000).map fun k => { off := k, mask := bothRows }) (cellAddr base off)
      = 0xFF :=
  maskAt_of_direct (w := { off := off, mask := bothRows })
    (List.mem_map.mpr ⟨off, List.mem_range.mpr hoff, rfl⟩) rfl

/-- A byte that a drawing covers whole holds the color four times and is known (20 R47; log 12). -/
theorem Draws.covered {s t : State} {i : Instr} {f : Nat → Nat → Bool} {off : Nat}
    (h : Draws s t i f) (hoff : off < 1000) (hfull : slotsOf f off = 0xFF) :
    Mem.read t.mem (cellAddr s.fbbase off) = spread s.regs.color.val ∧
      cellAddr s.fbbase off ∉ t.unknown := by
  obtain ⟨-, ⟨hcells, -⟩, ⟨hsub, hunknown, -⟩, -⟩ := h
  refine ⟨?_, fun ht => (hunknown off hoff (hsub _ ht)).1.mp ht hfull⟩
  rw [hcells off hoff, hfull]
  exact mergeCell_full _ _

/-- The replicated color as a number, for a color that passes the check (20 R46). -/
theorem toNat_spread {c : Byte} (h : c.toNat ≤ 3) : (spread c).toNat = c.toNat * 0x55 := by
  rw [spread, BitVec.toNat_mul]
  change c.toNat * 0x55 % 256 = c.toNat * 0x55
  omega

/-- Settles O32: the plan covers every byte of the region whole. -/
theorem clearColorsEveryPixel : Obligations.ClearColorsEveryPixel := by
  refine ⟨rfl, fun s => ⟨fun hcolor => carryOut_raised (State.planClear_badColor hcolor),
    fun hcolor ho hm => ?_⟩⟩
  obtain ⟨t, ht, hdraws⟩ := carryOut_draws (i := .clear) hm (fun _ => ho)
    (fun off hoff => (maskAt_clear hoff).trans (slotsOf_screen hoff).symm) (by simp)
  rw [← State.planClear_ok hcolor] at ht
  refine ⟨t, ht, hdraws, fun off hoff => ?_⟩
  obtain ⟨hread, hknown⟩ := hdraws.covered hoff (slotsOf_screen hoff)
  exact ⟨hread ▸ toNat_spread hcolor, hknown⟩

end Sys2Proof.Machine
end

section
/-! O34. GETPIX: the slot it reads as a number, its frame and its record. -/

namespace Sys2Proof.Machine

/-- The value of a pixel is its 2-bit slot of the cell byte (20 R45). -/
theorem State.toNat_pixel (s : State) (x y : Nat) :
    (s.pixel x y).toNat = (Mem.read s.mem (s.pixelAddr x y)).toNat / 2 ^ pixelShift x y % 4 := by
  rw [State.pixel, BitVec.toNat_and, BitVec.toNat_ushiftRight, Nat.shiftRight_eq_div_pow]
  exact Nat.and_two_pow_sub_one_eq_mod _ 2

/-- The record after GETPIX's reads grows as QuietRecord says (10 R37, 70 R146). -/
theorem quietRecord_noteByteRead (s : State) (i : Instr) (a : Nat) :
    QuietRecord s ((s.noteReads (readSet i)).noteByteRead a) i := by
  obtain ⟨⟨l, hl, huninit⟩, hclean⟩ := quietRecord_noteReads s i
  unfold State.noteByteRead
  rw [State.noteReads_unknown]
  split
  · next ha =>
    refine ⟨⟨l ++ [{ kind := .uninit, pos := s.cmdPos }], ?_, fun e he => ?_⟩, fun _ hu => ?_⟩
    · rw [State.log_record, hl, List.append_assoc, State.noteReads_cmdPos]
    · exact (List.mem_append.mp he).elim (huninit e) fun he => by rw [List.mem_singleton.mp he]
    · exact absurd (hu ▸ ha) List.not_mem_nil
  · exact ⟨⟨l, hl, huninit⟩, hclean⟩

/-- Noting reads and then writing RES changes nothing but RES and the record (41 R84). -/
theorem setRes_noteByteRead_frame (s : State) (ds : List DataReg) (a : Nat) (v : Res24) :
    ((s.noteReads ds).noteByteRead a).setRes v
      = { s with
          res := v, resWritten := true, record := ((s.noteReads ds).noteByteRead a).record } := by
  obtain ⟨l, hl⟩ := (s.noteReads ds).noteByteRead_eq a
  rw [hl, State.noteReads_eq]
  rfl

/-- Out of range GETPIX makes no access and writes 0 (41 R84). -/
theorem execGetpix_offScreen {s : State} (h : ¬(s.p0 < 80 ∧ s.p1 < 50)) :
    execGetpix s = .next ((s.noteReads (readSet .getpix)).setRes 0) :=
  if_neg h

/-- Settles O34: in range the slot read, out of range 0. -/
theorem getpixReadsOnePixel : Obligations.GetpixReadsOnePixel := by
  refine ⟨rfl, fun s ho => ?_⟩
  by_cases hin : s.p0 < 80 ∧ s.p1 < 50
  · obtain ⟨hx, hy⟩ := hin
    refine ⟨_, execGetpix_onScreen (ho ⟨hx, hy⟩) hx hy, setRes_noteByteRead_frame s _ _ _,
      fun _ _ => ?_, fun hout => by omega, quietRecord_noteByteRead s .getpix _⟩
    rw [State.setRes_res, BitVec.toNat_setWidth_of_le (by decide), State.toNat_pixel]
    rfl
  · exact ⟨_, execGetpix_offScreen hin, writesOnlyRes_setRes s .getpix 0,
      fun hx hy => absurd ⟨hx, hy⟩ hin, fun _ => rfl, quietRecord_noteReads s .getpix⟩

end Sys2Proof.Machine
end

section
/-! O39. The composition laws of pixel-set writes (41 R90): lists that cover the same slots leave the same
memory. -/

namespace Sys2Proof.Machine

section
variable {base : Addr} {cc : Byte} {m : List Host.Cell} {y : Nat}

/-- The two rows of an even y cover what the dual write covers (41 R90 (c)). -/
theorem maskAt_both_rows {xl xr off : Nat} (hy : y < 50) (heven : y % 2 = 0) (hxr : xr ≤ 80)
    (hoff : off < 1000) :
    maskAt base (rowCells y xl xr) (cellAddr base off)
        ||| maskAt base (rowCells (y + 1) xl xr) (cellAddr base off)
      = maskAt base (dualCells y xl xr) (cellAddr base off) := by
  rw [maskAt_rowCells hy hxr hoff, maskAt_rowCells (by omega) hxr hoff,
    maskAt_dualCells hy heven hxr hoff, slotsOf_or]

/-- Two adjoining intervals cover what the whole interval covers (41 R90 (d)). -/
theorem maskAt_dualCells_split {xl xm xr off : Nat} (hy : y < 50) (heven : y % 2 = 0)
    (hlm : xl ≤ xm) (hmr : xm ≤ xr) (hxr : xr ≤ 80) (hoff : off < 1000) :
    maskAt base (dualCells y xl xm) (cellAddr base off)
        ||| maskAt base (dualCells y xm xr) (cellAddr base off)
      = maskAt base (dualCells y xl xr) (cellAddr base off) := by
  rw [maskAt_dualCells hy heven (hmr.trans hxr) hoff, maskAt_dualCells hy heven hxr hoff,
    maskAt_dualCells hy heven hxr hoff, ← slotsOf_or]
  refine slotsOf_congr fun px py _ _ => ?_
  rw [Bool.eq_iff_iff]
  simp only [inRow, Bool.or_eq_true, Bool.and_eq_true, decide_eq_true_eq]
  omega

/-- Two lists written one after the other leave the memory of a list that covers their slots. -/
theorem writeCells_writeCells {us ws vs : List CellWrite} (hm : Mem.wf m = true)
    (hu : ∀ w ∈ us, w.off < 1000) (hw : ∀ w ∈ ws, w.off < 1000) (hv : ∀ w ∈ vs, w.off < 1000)
    (h : ∀ off < 1000, maskAt base us (cellAddr base off) ||| maskAt base ws (cellAddr base off)
      = maskAt base vs (cellAddr base off)) :
    writeCells base cc (writeCells base cc m us) ws = writeCells base cc m vs := by
  rw [← writeCells_append]
  refine writeCells_ext hm (fun w hmem => (List.mem_append.mp hmem).elim (hu w) (hw w)) hv
    fun off hoff => ?_
  rw [maskAt_append, h off hoff]

end

/-- Settles O39: each law is that the two parts cover the slots of the whole. -/
theorem dualWriteIsBothRows : Obligations.DualWriteIsBothRows := by
  intro base cc m y xl xm xr hm hy heven hxr
  have htop : ∀ w ∈ rowCells y xl xr, w.off < 1000 := spanCells_off hy hxr
  have hbottom : ∀ w ∈ rowCells (y + 1) xl xr, w.off < 1000 := spanCells_off (by omega) hxr
  have hdual : ∀ l, ∀ r ≤ 80, ∀ w ∈ dualCells y l r, w.off < 1000 := fun _ _ => spanCells_off hy
  refine ⟨writeCells_writeCells hm htop hbottom (hdual xl xr hxr) fun _ =>
      maskAt_both_rows hy heven hxr,
    writeCells_writeCells hm hbottom htop (hdual xl xr hxr) fun _ hoff => ?_, fun hlm hmr =>
    writeCells_writeCells hm (hdual xl xm (hmr.trans hxr)) (hdual xm xr hxr) (hdual xl xr hxr)
      fun _ => maskAt_dualCells_split hy heven hlm hmr hxr⟩
  rw [BitVec.or_comm]
  exact maskAt_both_rows hy heven hxr hoff

end Sys2Proof.Machine
end

section
/-! O40 and O41. The dispatch of two rows (42 R104 to R107): its cell writes cover the two intervals, one in
each row, and SPAN2 is one dispatch after its checks. -/

namespace Sys2Proof.Machine

/-! ### The dispatch law (42 R106) -/

/-- Every line of the case table has at most three sub-calls (42 R104). -/
theorem dispatchTable_length (l1 r1 l2 r2 : Nat) : (dispatchTable l1 r1 l2 r2).length ≤ 3 := by
  unfold dispatchTable
  split_ifs <;> simp

/-- The two rows together cover what the dispatch covers (42 R106). -/
theorem maskAt_two_rows {base : Addr} {y l1 r1 l2 r2 off : Nat} (hy : y < 50) (heven : y % 2 = 0)
    (h1 : r1 ≤ 80) (h2 : r2 ≤ 80) (hoff : off < 1000) :
    maskAt base (rowCells y l1 r1) (cellAddr base off)
        ||| maskAt base (rowCells (y + 1) l2 r2) (cellAddr base off)
      = maskAt base (dispatchCells y l1 r1 l2 r2) (cellAddr base off) := by
  rw [maskAt_rowCells hy h1 hoff, maskAt_rowCells (by omega) h2 hoff,
    maskAt_dispatchCells hy heven h1 h2 hoff, slotsOf_or]

/-- Settles O40: the dispatch covers the slots of the two rows, and skipping sub-calls only shortens the
case table's line. -/
theorem dispatchEqualsTwoRows : Obligations.DispatchEqualsTwoRows := by
  intro base cc m y l1 r1 l2 r2 hm hy heven h1 h2
  have hmemory : writeCells base cc (writeCells base cc m (rowCells y l1 r1)) (rowCells (y + 1) l2 r2)
      = writeCells base cc m (dispatchCells y l1 r1 l2 r2) :=
    writeCells_writeCells hm (spanCells_off hy h1) (spanCells_off (by omega) h2)
      (dispatchCells_off hy heven h1 h2) fun _ => maskAt_two_rows hy heven h1 h2
  exact ⟨hmemory.symm, (List.length_filter_le _ _).trans (dispatchTable_length l1 r1 l2 r2)⟩

/-! ### Cell writes and pixels -/

/-- A byte with a slot covered holds a pixel of the set (20 R46). -/
theorem exists_pixel_of_slotsOf {f : Nat → Nat → Bool} {off : Nat} (h : slotsOf f off ≠ 0) :
    ∃ x y, f x y = true := by
  by_contra hnone
  exact h (slotsOf_empty fun x y _ _ => by simpa using fun hf => hnone ⟨x, y, hf⟩)

/-- Some cell write, each covering a slot: the set covered has a pixel (20 R48). -/
theorem exists_pixel_of_cells {base : Addr} {ws : List CellWrite} {f : Nat → Nat → Bool}
    (hmask : ∀ w ∈ ws, w.mask ≠ 0) (hoff : ∀ w ∈ ws, w.off < 1000)
    (hf : ∀ off < 1000, maskAt base ws (cellAddr base off) = slotsOf f off) (hne : ws ≠ []) :
    ∃ x y, f x y = true := by
  obtain ⟨w, hw⟩ := List.exists_mem_of_ne_nil ws hne
  refine exists_pixel_of_slotsOf (off := w.off) ?_
  rw [← hf w.off (hoff w hw)]
  exact maskAt_of_mem hw (hmask w hw)

/-! ### SPAN2 (42 R107) -/

section
variable {s : State}

theorem State.span2Fault_badColor (h : 3 < s.color) : s.span2Fault = some .badColor :=
  if_pos (s.badColor_eq_true.mpr h)

theorem State.span2Fault_range (h : s.color ≤ 3)
    (hout : 49 < s.p1 ∨ 80 < s.p0 ∨ 80 < s.p2 ∨ 80 < s.p4 ∨ 80 < s.p5) :
    s.span2Fault = some .range := by
  rw [State.span2Fault, s.badColor_eq_false.mpr h, if_neg Bool.false_ne_true, if_pos hout]

theorem State.span2Fault_parity (h : s.color ≤ 3) (h1 : s.p1 ≤ 49) (h0 : s.p0 ≤ 80) (h2 : s.p2 ≤ 80)
    (h4 : s.p4 ≤ 80) (h5 : s.p5 ≤ 80) (hodd : s.p1 % 2 = 1) : s.span2Fault = some .parity := by
  rw [State.span2Fault, s.badColor_eq_false.mpr h, if_neg Bool.false_ne_true, if_neg (by omega),
    if_pos (by omega)]

/-- SPAN2 raises what its checks find. -/
theorem execSpan2_raised {code : FaultCode} (h : s.span2Fault = some code) :
    execSpan2 s = raised s .span2 code :=
  carryOut_raised (by simp only [State.planSpan2, h])

/-- Legal operands: the pixels of both intervals are drawn (42 R106, R107). -/
theorem execSpan2_draws (hlegal : spanLegal s 0) (h4 : s.p4 ≤ 80) (h5 : s.p5 ≤ 80)
    (ho : s.p0 < s.p2 ∨ s.p4 < s.p5 → s.misplaced = false) (hm : Mem.wf s.mem = true) :
    ∃ t, execSpan2 s = .next t ∧ Draws s t .span2 fun x y =>
      inRow s.p1 s.p0 s.p2 x y || inRow (s.p1 + 1) s.p4 s.p5 x y := by
  obtain ⟨hy, h2, heven⟩ := hlegal.bounds
  have hcovers := fun off (hoff : off < 1000) =>
    maskAt_dispatchCells (base := s.fbbase) (l1 := s.p0) (l2 := s.p4) hy heven h2 h5 hoff
  have hoff := dispatchCells_off (l1 := s.p0) (l2 := s.p4) hy heven h2 h5
  rw [execSpan2, State.planSpan2_ok hlegal h4 h5]
  refine carryOut_draws hm (fun hne => ho ?_) hcovers hoff
  obtain ⟨x, y, hpixel⟩ := exists_pixel_of_cells dispatchCells_mask hoff hcovers hne
  simp only [inRow, Bool.or_eq_true, Bool.and_eq_true, decide_eq_true_eq] at hpixel
  omega

end

/-- Settles O41: the three checks in order, then one dispatch. -/
theorem span2ColorsTwoIntervals : Obligations.Span2ColorsTwoIntervals :=
  ⟨rfl, fun _ => ⟨fun hcolor => execSpan2_raised (State.span2Fault_badColor hcolor),
    fun hcolor hout => execSpan2_raised (State.span2Fault_range hcolor hout),
    fun hcolor h1 h0 h2 h4 h5 =>
      ⟨fun hodd => execSpan2_raised (State.span2Fault_parity hcolor h1 h0 h2 h4 h5 hodd),
        fun heven => execSpan2_draws ⟨hcolor, h1, h0, h2, heven⟩ h4 h5⟩⟩⟩

end Sys2Proof.Machine
end

section
/-! O42 to O44. FILLTRI (42 R92 to R96, R106): its checks, the cull, and the walk of a triangle with a
positive area. -/

namespace Sys2Proof.Machine

section
variable {s : State}

/-! ### The checks (42 R92) -/

theorem State.fillFault_badColor (h : 3 < s.color) : s.fillFault = some .badColor :=
  if_pos (s.badColor_eq_true.mpr h)

theorem State.fillFault_range (h : s.color ≤ 3)
    (hout : 79 < s.p0 ∨ 79 < s.p2 ∨ 79 < s.p4 ∨ 49 < s.p1 ∨ 49 < s.p3 ∨ 49 < s.p5) :
    s.fillFault = some .range := by
  rw [State.fillFault, s.badColor_eq_false.mpr h, if_neg Bool.false_ne_true, if_pos hout]

/-- FILLTRI raises what its checks find. -/
theorem execFilltri_raised {code : FaultCode} (h : s.fillFault = some code) :
    execFilltri s = raised s .filltri code := by
  simp only [execFilltri, h, raised_eq]

/-- With legal operands FILLTRI makes its cell writes and then ends the fill (42 R93). -/
theorem execFilltri_legal {t : State} (hlegal : fillLegal s)
    (hdraw : (s.noteReads (readSet .filltri)).drawCells s.fill.2 = .next t) :
    execFilltri s = .next (t.endFill s.fill.1) := by
  simp only [execFilltri, State.fillFault_none.mpr hlegal, hdraw]

/-! ### The cull (42 R94) -/

/-- A product of differences on the grid is at most 79 * 49 in magnitude. -/
theorem natAbs_grid_product {x x' y y' : Nat} (hx : x ≤ 79) (hx' : x' ≤ 79) (hy : y ≤ 49)
    (hy' : y' ≤ 49) : (((x' : Int) - x) * ((y' : Int) - y)).natAbs ≤ 3871 := by
  rw [Int.natAbs_mul]
  exact Nat.mul_le_mul (show _ ≤ 79 by omega) (show _ ≤ 49 by omega)

/-- The signed area of a triangle on the grid (42 R94). -/
theorem signedArea_natAbs (hlegal : fillLegal s) :
    (signedArea s.vertexA s.vertexB s.vertexC).natAbs ≤ 7742 := by
  obtain ⟨-, h0, h2, h4, h1, h3, h5⟩ := hlegal
  have hleft := natAbs_grid_product h0 h2 h1 h5
  have hright := natAbs_grid_product h0 h4 h1 h3
  rw [mul_comm] at hright
  exact (Int.natAbs_sub_le _ _).trans (Nat.add_le_add hleft hright)

/-- A triangle whose signed area is not positive is culled and writes no cell (42 R94). -/
theorem State.fill_culled (h : signedArea s.vertexA s.vertexB s.vertexC ≤ 0) :
    s.fill = (.culled, []) :=
  if_pos h

theorem execFilltri_culled (hlegal : fillLegal s)
    (h : signedArea s.vertexA s.vertexB s.vertexC ≤ 0) :
    execFilltri s = .next ((s.noteReads (readSet .filltri)).endFill .culled) := by
  have hfill := State.fill_culled h
  rw [execFilltri_legal hlegal (t := s.noteReads (readSet .filltri)) (by rw [hfill]; rfl), hfill]

/-- Reads and the end of a fill leave everything but the record, TRIRES, the edge state and the counter
of free values (10 R33, 42 R114). -/
theorem noteReads_endFill_frame (ds : List DataReg) (r : TriRes) :
    (s.noteReads ds).endFill r
      = { s with
          triRes := r, edge := Config.freeEdge s.draws, draws := s.draws + 1
          record := (s.noteReads ds).record } :=
  congrArg (State.endFill · r) (s.noteReads_eq ds)

/-! ### The fill (42 R106) -/

/-- The end of a fill leaves memory and the record as the drawing left them. -/
theorem DrawsMemory.endFill {t : State} {i : Instr} {f : Nat → Nat → Bool}
    (h : DrawsMemory s t i f) (r : TriRes) : DrawsMemory s (t.endFill r) i f :=
  h

/-- A drawing and the end of a fill leave everything but memory, the record, TRIRES, the edge state and
the counter of free values (42 R114). -/
theorem Draws.endFill_frame {t : State} {i : Instr} {f : Nat → Nat → Bool} (h : Draws s t i f)
    (r : TriRes) :
    t.endFill r = { s with
      mem := t.mem, unknown := t.unknown, triRes := r, edge := Config.freeEdge s.draws
      draws := s.draws + 1, record := t.record } :=
  congrArg (State.endFill · r) h.1

/-- The cell writes of a triangle on the grid with a positive area draw the pixels of its rows; without a
pixel there is no cell write, wherever the framebuffer lies (42 R106; log 6). -/
theorem drawCells_fill (hlegal : fillLegal s) (harea : 0 < signedArea s.vertexA s.vertexB s.vertexC)
    (ho : (∃ x y, inTriangle s.cfg.halfSlope s.vertexA s.vertexB s.vertexC x y = true) →
      s.misplaced = false) (hm : Mem.wf s.mem = true) :
    ∃ t, (s.noteReads (readSet .filltri)).drawCells s.fill.2 = .next t ∧
      Draws s t .filltri (inTriangle s.cfg.halfSlope s.vertexA s.vertexB s.vertexC) := by
  obtain ⟨-, h0, h2, h4, h1, h3, h5⟩ := hlegal
  have hspec := fun off (hoff : off < 1000) => fillWalk_spec s.fbbase hoff s.edge s.cfg.halfSlope
    (a := s.vertexA) (b := s.vertexB) (c := s.vertexC) h0 h2 h4 h1 h3 h5
  have hcovers := fun off hoff => (hspec off hoff).1
  have hoff := (hspec 0 (by decide)).2
  rw [State.fill_drawn harea]
  exact carryOut_draws hm
    (fun hne => ho (exists_pixel_of_cells (fillWalk_mask _ _ _ _ _) hoff hcovers hne)) hcovers hoff

end

/-- Settles O42: the fault of the first failing check. -/
theorem filltriChecksItsOperands : Obligations.FilltriChecksItsOperands := fun _ =>
  ⟨fun hcolor => execFilltri_raised (State.fillFault_badColor hcolor),
    fun hcolor hout => execFilltri_raised (State.fillFault_range hcolor hout)⟩

/-- Settles O43: a culled triangle makes no cell write. -/
theorem filltriCullsNonPositiveArea : Obligations.FilltriCullsNonPositiveArea := fun s hlegal =>
  ⟨signedArea_natAbs hlegal, fun hdet =>
    ⟨_, execFilltri_culled hlegal hdet, rfl, by
      rw [noteReads_endFill_frame]⟩⟩

/-- Settles O44: the walk's cell writes draw the pixels of its rows. -/
theorem filltriColorsItsRows : Obligations.FilltriColorsItsRows := by
  intro s hlegal harea ho hm
  obtain ⟨t, ht, hdraws⟩ := drawCells_fill hlegal harea ho hm
  have hexec := execFilltri_legal hlegal ht
  rw [State.fill_drawn harea] at hexec
  refine ⟨_, hexec, rfl, ?_, hdraws.2.endFill .drawn⟩
  rw [hdraws.endFill_frame]

end Sys2Proof.Machine
end

section
/-! O46 and O47. The sorting network (42 R95) in each order of the three y, and why a rotation of the
vertices draws the same rows (42 R108). -/

namespace Sys2Proof.Machine

/-! ### The sort in each order (42 R95) -/

section
variable {p q : Vertex}

theorem condSwap_of_lt (h : q.y.toNat < p.y.toNat) (par : Bool) : condSwap p q par = (q, p, !par) :=
  if_pos h

theorem condSwap_of_le (h : p.y.toNat ≤ q.y.toNat) (par : Bool) : condSwap p q par = (p, q, par) :=
  if_neg h.not_gt

end

section
variable {a b c : Vertex}

theorem sort3_abc (hab : a.y.toNat ≤ b.y.toNat) (hbc : b.y.toNat ≤ c.y.toNat) :
    sort3 a b c = (a, b, c, false) := by
  simp only [sort3, condSwap_of_le hab, condSwap_of_le hbc]

theorem sort3_acb (hac : a.y.toNat ≤ c.y.toNat) (hcb : c.y.toNat < b.y.toNat) :
    sort3 a b c = (a, c, b, true) := by
  simp only [sort3, condSwap_of_le (hac.trans hcb.le), condSwap_of_lt hcb, condSwap_of_le hac,
    Bool.not_false]

theorem sort3_bac (hba : b.y.toNat < a.y.toNat) (hac : a.y.toNat ≤ c.y.toNat) :
    sort3 a b c = (b, a, c, true) := by
  simp only [sort3, condSwap_of_lt hba, condSwap_of_le hac, condSwap_of_le hba.le, Bool.not_false]

theorem sort3_bca (hbc : b.y.toNat ≤ c.y.toNat) (hca : c.y.toNat < a.y.toNat) :
    sort3 a b c = (b, c, a, false) := by
  simp only [sort3, condSwap_of_lt (hbc.trans_lt hca), condSwap_of_lt hca, condSwap_of_le hbc,
    Bool.not_not]

theorem sort3_cab (hca : c.y.toNat < a.y.toNat) (hab : a.y.toNat ≤ b.y.toNat) :
    sort3 a b c = (c, a, b, false) := by
  simp only [sort3, condSwap_of_le hab, condSwap_of_lt (hca.trans_le hab), condSwap_of_lt hca,
    Bool.not_not]

theorem sort3_cba (hcb : c.y.toNat < b.y.toNat) (hba : b.y.toNat < a.y.toNat) :
    sort3 a b c = (c, b, a, true) := by
  simp only [sort3, condSwap_of_lt hba, condSwap_of_lt (hcb.trans hba), condSwap_of_lt hcb,
    Bool.not_not, Bool.not_false]

end

/-- Settles O46: one lemma for each order, and the vertices rise. -/
theorem sortRisesAndTracksParity : Obligations.SortRisesAndTracksParity := fun a b c =>
  ⟨sort3_abc, sort3_acb, sort3_bac, sort3_bca, sort3_cab, sort3_cba, sort3_rising a b c⟩

/-! ### The rows of the sorted vertices (42 R100 to R103) -/

/-- The long edge's position is that of an edge like any other (42 R99, R100). -/
theorem longPos_eq_shortPos (h : HalfSlope) (p q : Vertex) (y : Nat) :
    longPos h p q y = shortPos h p q y := rfl

/-- The interval does not depend on which of its two positions is the long edge's, nor on SHORTLEFT
(42 R103). -/
theorem interval_comm (sl sl' : Bool) (lp sp : Fixed88) :
    interval sl' sp lp = interval sl lp sp := by
  rw [interval_eq, interval_eq, min_comm, max_comm]

section
variable {a b c p q r : Vertex} {par : Bool} {h : HalfSlope} {y : Nat}

theorem walked_of_sort (hs : sort3 a b c = (p, q, r, par)) :
    walked a b c y = true ↔ p.y.toNat ≤ y ∧ y < r.y.toNat := by
  simp only [walked, hs, Bool.and_eq_true, decide_eq_true_eq]

theorem fillRow_upper (hs : sort3 a b c = (p, q, r, par)) (hy : y < q.y.toNat) :
    fillRow h a b c y = interval par (shortPos h p r y) (shortPos h p q y) := by
  simp only [fillRow, hs, if_pos hy, longPos_eq_shortPos]

theorem fillRow_lower (hs : sort3 a b c = (p, q, r, par)) (hy : q.y.toNat ≤ y) :
    fillRow h a b c y = interval par (shortPos h p r y) (shortPos h q r y) := by
  simp only [fillRow, hs, if_neg hy.not_gt, longPos_eq_shortPos]

end

/-! ### Vertex order (42 R108) -/

/-- Two sorts of the same vertices draw the same rows: they agree, or differ in the order of two vertices
of equal y at the top or at the bottom, or all rows are equal (42 R108). -/
inductive SortsAlike : Vertex × Vertex × Vertex × Bool → Vertex × Vertex × Vertex × Bool → Prop
  | same (v) : SortsAlike v v
  | topTie {p q r par par'} (hy : p.y.toNat = q.y.toNat) : SortsAlike (p, q, r, par) (q, p, r, par')
  | bottomTie {p q r par par'} (hy : q.y.toNat = r.y.toNat) : SortsAlike (p, q, r, par) (p, r, q, par')
  | flat {p q r p' q' r' par par'} (hy : r.y.toNat ≤ p.y.toNat) (hy' : r'.y.toNat ≤ p'.y.toNat) :
    SortsAlike (p, q, r, par) (p', q', r', par')

/-- Sorting rotated vertices swaps at most two of equal y, in each of the six orders (42 R108). -/
theorem sort3_rotate (a b c : Vertex) : SortsAlike (sort3 a b c) (sort3 b c a) := by
  rcases le_or_gt a.y.toNat b.y.toNat with hab | hba
  · rcases le_or_gt b.y.toNat c.y.toNat with hbc | hcb
    · rw [sort3_abc hab hbc]
      rcases hab.lt_or_eq with hlt | heq
      · rw [sort3_cab hlt hbc]
        exact .same _
      · rcases hbc.lt_or_eq with hlt' | heq'
        · rw [sort3_acb heq.ge (heq ▸ hlt')]
          exact .topTie heq
        · rw [sort3_abc hbc (heq.trans heq').ge]
          exact .flat (heq.trans heq').ge heq.le
    · rcases le_or_gt a.y.toNat c.y.toNat with hac | hca
      · rw [sort3_acb hac hcb]
        rcases hac.lt_or_eq with hlt | heq
        · rw [sort3_cba hlt hcb]
          exact .same _
        · rw [sort3_bca heq.ge (heq ▸ hcb)]
          exact .topTie heq
      · rw [sort3_cab hca hab]
        rcases hab.lt_or_eq with hlt | heq
        · rw [sort3_bca hca.le hlt]
          exact .same _
        · rw [sort3_bac hcb heq.ge]
          exact .bottomTie heq
  · rcases le_or_gt a.y.toNat c.y.toNat with hac | hca
    · rw [sort3_bac hba hac]
      rcases hac.lt_or_eq with hlt | heq
      · rw [sort3_acb hba.le hlt]
        exact .same _
      · rw [sort3_abc (heq ▸ hba.le) heq.ge]
        exact .bottomTie heq
    · rcases le_or_gt b.y.toNat c.y.toNat with hbc | hcb
      · rw [sort3_bca hbc hca, sort3_abc hbc hca.le]
        exact .same _
      · rw [sort3_cba hcb hba, sort3_bac hcb hba.le]
        exact .same _

section
variable {a b c a' b' c' : Vertex}

/-- Sorts alike walk the same rows. -/
theorem SortsAlike.walked_eq (hs : SortsAlike (sort3 a b c) (sort3 a' b' c')) (y : Nat) :
    walked a' b' c' y = walked a b c y := by
  rw [Bool.eq_iff_iff]
  generalize hv : sort3 a b c = v, hv' : sort3 a' b' c' = v' at hs
  cases hs with
  | same => obtain ⟨p, q, r, par⟩ := v; rw [walked_of_sort hv, walked_of_sort hv']
  | topTie hy => rw [walked_of_sort hv, walked_of_sort hv', hy]
  | bottomTie hy => rw [walked_of_sort hv, walked_of_sort hv', hy]
  | flat hy hy' => rw [walked_of_sort hv, walked_of_sort hv']; omega

/-- Sorts alike give the same interval on every walked row: a tie leaves one trapezoid, whose two edges
only change places (42 R108). -/
theorem SortsAlike.fillRow_eq (hs : SortsAlike (sort3 a b c) (sort3 a' b' c')) (h : HalfSlope) {y : Nat}
    (hw : walked a b c y = true) : fillRow h a' b' c' y = fillRow h a b c y := by
  generalize hv : sort3 a b c = v, hv' : sort3 a' b' c' = v' at hs
  cases hs with
  | same => simp only [fillRow, hv, hv']
  | topTie hy =>
    obtain ⟨htop, -⟩ := (walked_of_sort hv).mp hw
    rw [fillRow_lower hv (hy ▸ htop), fillRow_lower hv' htop]
    exact interval_comm ..
  | bottomTie hy =>
    obtain ⟨-, hbottom⟩ := (walked_of_sort hv).mp hw
    rw [fillRow_upper hv (hy ▸ hbottom), fillRow_upper hv' hbottom]
    exact interval_comm ..
  | flat hy =>
    obtain ⟨htop, hbottom⟩ := (walked_of_sort hv).mp hw
    exact absurd (htop.trans_lt hbottom) hy.not_gt

end

/-- The signed area is that of a rotation of the vertices (42 R94, R108). -/
theorem signedArea_rotate (a b c : Vertex) : signedArea b c a = signedArea a b c := by
  unfold signedArea
  ring

/-- Settles O47: the rotated vertices sort alike. -/
theorem rotationDrawsTheSameRows : Obligations.RotationDrawsTheSameRows := fun h a b c y =>
  ⟨signedArea_rotate a b c, (sort3_rotate a b c).walked_eq y, (sort3_rotate a b c).fillRow_eq h⟩

end Sys2Proof.Machine
end

section
/-! O45. The edges of FILLTRI in numbers (42 R98 to R103, R110). -/

namespace Sys2Proof.Machine

/-! ### Slopes and first positions (42 R98, R99) -/

theorem toInt_wrap16 {i : Int} (h : -32768 ≤ i) (h' : i < 32768) : (wrap16 i).toInt = i :=
  BitVec.toInt_ofInt_eq_self (by decide) h h'

theorem toInt_fixed_mem (v : Fixed88) : -32768 ≤ v.toInt ∧ v.toInt < 32768 :=
  ⟨v.le_toInt, v.toInt_lt⟩

/-- HALF_SLOPE = ASR halves toward minus infinity (42 R99). -/
theorem halfSlope_asr_toInt (v : Fixed88) : (halfSlope .asr v).toInt = Int.fdiv v.toInt 2 := by
  have hv := toInt_fixed_mem v
  refine toInt_wrap16 ?_ ?_ <;> rw [floorDiv, Int.fdiv_eq_ediv_of_nonneg _ (by decide)] <;> omega

/-- HALF_SLOPE = TRUNC halves toward zero (42 R99). -/
theorem halfSlope_trunc_toInt (v : Fixed88) : (halfSlope .trunc v).toInt = Int.tdiv v.toInt 2 := by
  have hv := toInt_fixed_mem v
  have habs : (Int.tdiv v.toInt 2).natAbs = v.toInt.natAbs / 2 := Int.natAbs_tdiv ..
  refine toInt_wrap16 ?_ ?_ <;> rw [tdiv] <;> omega

section
variable {p q : Vertex}

/-- The first position of an edge on the grid does not wrap (42 R99, R110). -/
theorem edgeStart_toInt (h : HalfSlope) (hp : p.x.toNat ≤ 79) (hq : q.x.toNat ≤ 79)
    (hpq : p.y.toNat < q.y.toNat) :
    (edgeStart h p (edgeSlope p q)).toInt
      = 256 * (p.x.toNat : Int) + (halfSlope h (edgeSlope p q)).toInt := by
  obtain ⟨hexact, -⟩ := edge_range h hp hq hpq (k := 0) (by omega)
  simpa [mul_comm] using hexact

/-! ### Positions on a row (42 R102, R110) -/

/-- A non-negative 8.8 number read without its sign (00 R11). -/
theorem toNat_of_toInt_nonneg {v : Fixed88} (h : 0 ≤ v.toInt) : (v.toNat : Int) = v.toInt := by
  rw [BitVec.toInt_eq_toNat_cond] at h ⊢
  omega

/-- Row y of an edge on the grid is its first position plus the slope once per row passed, in 0..0x4F00
(42 R102, R110). -/
theorem shortPos_toNat (h : HalfSlope) (hp : p.x.toNat ≤ 79) (hq : q.x.toNat ≤ 79) {y : Nat}
    (hy : p.y.toNat ≤ y) (hy' : y < q.y.toNat) :
    ((shortPos h p q y).toNat : Int)
        = (edgeStart h p (edgeSlope p q)).toInt + (y - p.y.toNat) * (edgeSlope p q).toInt ∧
      (shortPos h p q y).toNat ≤ 0x4F00 := by
  obtain ⟨hnonneg, hle⟩ := edge_on_grid h hp hq hy hy'
  have htoNat := toNat_of_toInt_nonneg hnonneg
  obtain ⟨hexact, -⟩ := edge_range h hp hq (hy.trans_lt hy') (k := y - p.y.toNat) (by omega)
  refine ⟨?_, by omega⟩
  rw [htoNat, edgeStart_toInt h hp hq (hy.trans_lt hy'), shortPos, hexact, Nat.cast_sub hy,
    mul_comm 256]

/-- The interval's ends are the integer parts of its positions, in order (42 R103). -/
theorem interval_of_nonneg (sl : Bool) {lp sp : Fixed88} (hl : 0 ≤ lp.toInt) (hs : 0 ≤ sp.toInt) :
    interval sl lp sp
      = (min (lp.toNat / 256) (sp.toNat / 256), max (lp.toNat / 256) (sp.toNat / 256)) := by
  have hlp := toNat_of_toInt_nonneg hl
  have hsp := toNat_of_toInt_nonneg hs
  rw [interval_eq, Prod.mk.injEq]
  simp only [floorDiv, Int.fdiv_eq_ediv_of_nonneg _ (show (0 : Int) ≤ 256 by decide)]
  omega

end

/-! ### The rows of a triangle on the grid (42 R103, R110) -/

/-- Every walked row lies between the least and the greatest y of the three vertices. -/
theorem walked_bounds {a b c : Vertex} {y : Nat} (hw : walked a b c y = true) :
    min a.y.toNat (min b.y.toNat c.y.toNat) ≤ y ∧ y < max a.y.toNat (max b.y.toNat c.y.toNat) := by
  have hleast := (sort3_all (a := a) (b := b) (c := c)
    (p := fun v => min a.y.toNat (min b.y.toNat c.y.toNat) ≤ v.y.toNat)
    (by simp) (by simp) (by simp)).1
  have hgreatest := (sort3_all (a := a) (b := b) (c := c)
    (p := fun v => v.y.toNat ≤ max a.y.toNat (max b.y.toNat c.y.toNat))
    (by simp) (by simp) (by simp)).2.2
  obtain ⟨htop, hbottom⟩ := (walked_of_sort rfl).mp hw
  exact ⟨hleast.trans htop, hbottom.trans_le hgreatest⟩

/-- A column at or right of a row's end is not in the triangle (42 R106). -/
theorem inTriangle_eq_false {h : HalfSlope} {a b c : Vertex} {x y : Nat}
    (hx : (fillRow h a b c y).2 ≤ x) : inTriangle h a b c x y = false := by
  simp [inTriangle, hx.not_gt]

/-- Settles O45: both edges of a walked row are edges on the grid that cross it. -/
theorem filltriRowsStayOnTheGrid : Obligations.FilltriRowsStayOnTheGrid := by
  refine ⟨fun p q hp hq _ _ hpq => ⟨?_, ?_, ?_⟩, ?_⟩
  · rw [edgeSlope_toInt hp hq, mul_comm]
  · rw [edgeStart_toInt .asr hp hq hpq, halfSlope_asr_toInt]
  · rw [edgeStart_toInt .trunc hp hq hpq, halfSlope_trunc_toInt]
  intro h a b c y ha hb hc _ _ _ hw v p q
  obtain ⟨hx0, hx1, hx2⟩ := sort3_all (p := fun v => v.x.toNat ≤ 79) ha hb hc
  obtain ⟨htop, hbottom⟩ := (walked_of_sort rfl).mp hw
  have hedge : p.x.toNat ≤ 79 ∧ q.x.toNat ≤ 79 ∧ p.y.toNat ≤ y ∧ y < q.y.toNat ∧
      fillRow h a b c y = interval v.2.2.2 (longPos h v.1 v.2.2.1 y) (shortPos h p q y) := by
    by_cases hy : y < v.2.1.y.toNat
    · simp only [p, q, if_pos hy]
      exact ⟨hx0, hx1, htop, hy, fillRow_upper rfl hy⟩
    · simp only [p, q, if_neg hy]
      exact ⟨hx1, hx2, le_of_not_gt hy, hbottom, fillRow_lower rfl (le_of_not_gt hy)⟩
  obtain ⟨hpx, hqx, hpy, hqy, hrow⟩ := hedge
  obtain ⟨hlong, hlongMax⟩ := shortPos_toNat h hx0 hx2 htop hbottom
  obtain ⟨hshort, hshortMax⟩ := shortPos_toNat h hpx hqx hpy hqy
  have hends := hrow.trans (interval_of_nonneg v.2.2.2 (edge_on_grid h hx0 hx2 htop hbottom).1
    (edge_on_grid h hpx hqx hpy hqy).1)
  have hright := fillRow_on_grid h ha hb hc hw
  obtain ⟨hleast, hgreatest⟩ := walked_bounds hw
  exact ⟨hpy, hqy, hlong, hshort, hlongMax, hshortMax, hends, hright, hgreatest, hleast,
    inTriangle_eq_false hright⟩

end Sys2Proof.Machine
end

section
/-! O21 and O22. The two control commands, NOP (43 R116) and CLRERR (43 R117): what each does and when
its byte is accepted. -/

namespace Sys2Proof.Machine

theorem exec_nop (s : State) : exec .nop s = .next s := rfl

theorem exec_clrerr (s : State) : exec .clrerr s = .next s.clearErr := rfl

/-- Outside the error state ERRCODE is 0x00 (10 R22). -/
theorem State.Inv.errCode_eq_none {s : State} (hinv : s.Inv) (herr : s.err = false) :
    s.errCode = .none := by
  by_contra hcode
  exact absurd (hinv.errCode.mpr hcode) (by simp [herr])

/-- Outside the error state there is nothing for CLRERR to clear (10 R22, 43 R117). -/
theorem State.Inv.clearErr_eq_self {s : State} (hinv : s.Inv) (herr : s.err = false) :
    s.clearErr = s := by
  rw [State.clearErr, ← herr, ← hinv.errCode_eq_none herr]

/-- Settles O21: NOP's byte is accepted as any byte is while ERR = 0, and is not the one accepted while
ERR = 1. -/
theorem nopDoesNothing : Obligations.NopDoesNothing := by
  refine ⟨decode_eq_ok_iff.mpr (by decide), fun s p => ⟨exec_nop s, fun herr => ?_, fun herr => ?_⟩⟩
  · rw [State.issue_accepted (.inl herr)]
    exact ⟨rfl, rfl⟩
  · exact State.issue_dropped herr (by decide)

/-- Settles O22: CLRERR's byte is accepted whatever ERR is and every other byte is dropped while
ERR = 1; with ERR = 0 the invariant leaves it nothing to clear. -/
theorem clrerrClearsTheErrorState : Obligations.ClrerrClearsTheErrorState := by
  refine ⟨decode_eq_ok_iff.mpr (by decide), fun s p => ⟨exec_clrerr s, ?_, ?_, ?_⟩⟩
  · rw [State.issue_accepted (.inr (by decide))]
    rfl
  · exact fun _ herr hv => State.issue_dropped herr hv
  · intro hinv herr
    rw [exec_clrerr, hinv.clearErr_eq_self herr]

end Sys2Proof.Machine
end

section
/-! O50 and O58. The error state and the fault record under each move: the host keeps both, but for the
assertion of reset, which ends the error state and keeps the record. -/

namespace Sys2Proof.Machine

/-- The error state is as before, and the fault record has lost no entry. -/
structure State.ErrorKept (s t : State) : Prop where
  err : t.err = s.err
  errCode : t.errCode = s.errCode
  record : s.record <+: t.record

section
variable {s t u : State}

theorem State.ErrorKept.of_eq (herr : t.err = s.err) (hcode : t.errCode = s.errCode)
    (hrecord : t.record = s.record) : s.ErrorKept t :=
  ⟨herr, hcode, hrecord ▸ List.prefix_rfl⟩

theorem State.ErrorKept.refl (s : State) : s.ErrorKept s := .of_eq rfl rfl rfl

theorem State.ErrorKept.trans (h : s.ErrorKept t) (k : t.ErrorKept u) : s.ErrorKept u :=
  ⟨k.err.trans h.err, k.errCode.trans h.errCode, h.record.trans k.record⟩

/-! ### The host's operations -/

theorem State.errorKept_taken (s : State) (rest : List HostOp) : s.ErrorKept (s.taken rest) :=
  .of_eq rfl rfl rfl

theorem State.ErrorKept.observe (h : s.ErrorKept t) (v : Option Byte) : s.ErrorKept (t.observe v) :=
  h.trans (.of_eq rfl rfl rfl)

theorem State.ErrorKept.log (h : s.ErrorKept t) (k : RecordKind) (pos : Nat) :
    s.ErrorKept (t.log k pos) :=
  h.trans ⟨rfl, rfl, List.prefix_append _ _⟩

theorem State.errorKept_noteRegion (s : State) (pos : Nat) : s.ErrorKept (s.noteRegion pos) := by
  rcases s.noteRegion_cases pos with ⟨-, -, hlog⟩ | ⟨-, hsame⟩
  · rw [hlog]; exact (State.ErrorKept.refl s).log _ _
  · rw [hsame]; exact .refl s

/-- Issue sets no ERR: a byte dropped changes nothing, and one accepted only becomes BUSY (10 R19). -/
theorem State.errorKept_issue (s : State) (v : Byte) (pos : Nat) : s.ErrorKept (s.issue v pos) := by
  unfold State.issue
  split
  · exact .refl s
  · exact .of_eq rfl rfl rfl

theorem State.errorKept_writeReg (s : State) (off : Offset) (v : Byte) (pos : Nat) :
    s.ErrorKept (s.writeReg off v pos) := by
  unfold State.writeReg
  split
  · exact s.errorKept_issue v pos
  · exact .of_eq rfl rfl rfl
  all_goals exact .refl s

theorem State.errorKept_hostWrite (s : State) (off : Offset) (v : Byte) (pos : Nat) :
    s.ErrorKept (s.hostWrite off v pos) := by
  unfold State.hostWrite
  split
  · exact (State.ErrorKept.refl s).log _ _
  · exact s.errorKept_writeReg off v pos

theorem State.errorKept_hostRead (s : State) (off : Offset) (pos : Nat) :
    s.ErrorKept (s.hostRead off pos) := by
  unfold State.hostRead
  split_ifs
  · exact ((State.ErrorKept.refl s).log _ _).observe _
  · exact .of_eq rfl rfl rfl
  · exact ((State.ErrorKept.refl s).log _ _).observe _
  · exact ((State.ErrorKept.refl s).log _ _).observe _
  · exact (State.ErrorKept.refl s).observe _

theorem State.errorKept_hostWriteMem (s : State) (a : Addr) (v : Byte) (pos : Nat) :
    s.ErrorKept (s.hostWriteMem a v pos) := by
  unfold State.hostWriteMem
  split
  · exact (State.ErrorKept.refl s).log _ _
  · exact (s.errorKept_noteRegion pos).trans (.of_eq rfl rfl rfl)

theorem State.errorKept_hostReadMem (s : State) (a : Addr) (pos : Nat) :
    s.ErrorKept (s.hostReadMem a pos) := by
  unfold State.hostReadMem
  split_ifs
  · exact ((State.ErrorKept.refl s).log _ _).observe _
  · exact ((s.errorKept_noteRegion pos).log _ _).observe _
  · exact (s.errorKept_noteRegion pos).observe _

/-- No memory access resolves to the assertion of reset (10 R16). -/
theorem Config.resolve_eq_assertReset {c : Config} {op : HostOp}
    (h : c.resolve op = .assertReset) : op = .assertReset := by
  cases op with
  | assertReset => rfl
  | write | read | wait | releaseReset => cases h
  | writeMem | readMem =>
    simp only [Config.resolve] at h
    split at h <;> cases h

/-- A turn of the host keeps the error state, or asserts reset. -/
theorem State.hostTurn_errorKept_or_assertReset (h : s.hostTurn = .next t) :
    s.ErrorKept t ∨
      ∃ rest, s.script = .assertReset :: rest ∧ (s.taken rest).assertReset = .next t := by
  rcases hostTurn_cases s with ⟨-, hidle⟩ | ⟨op, rest, hscript,
      ⟨off, v, -, hwrite⟩ | ⟨off, -, hread⟩ | ⟨-, -, -, hpoll⟩ | ⟨a, -, -, hrefused⟩ |
      ⟨a, v, -, -, hwriteMem⟩ | ⟨a, -, -, hreadMem⟩ | ⟨hop, hassert⟩ | ⟨-, hrelease⟩⟩
  · cases hidle.symm.trans h; exact .inl (.refl s)
  · cases hwrite.symm.trans h
    exact .inl ((s.errorKept_taken rest).trans (State.errorKept_hostWrite _ off v s.pos))
  · cases hread.symm.trans h
    exact .inl ((s.errorKept_taken rest).trans (State.errorKept_hostRead _ off s.pos))
  · cases hpoll.symm.trans h; exact .inl (.of_eq rfl rfl rfl)
  · cases hrefused.symm.trans h
  · cases hwriteMem.symm.trans h
    exact .inl ((s.errorKept_taken rest).trans (State.errorKept_hostWriteMem _ a v s.pos))
  · cases hreadMem.symm.trans h
    exact .inl ((s.errorKept_taken rest).trans (State.errorKept_hostReadMem _ a s.pos))
  · rw [Config.resolve_eq_assertReset hop] at hscript
    exact .inr ⟨rest, hscript, hassert.symm.trans h⟩
  · cases hrelease.symm.trans h; exact .inl (.of_eq rfl rfl rfl)

/-! ### Reset -/

@[simp] theorem State.forget_record (s : State) (addrs : List Nat) :
    (s.forget addrs).record = s.record := by
  induction addrs generalizing s with
  | nil => rfl
  | cons a addrs ih => exact ih _

/-- The assertion of reset clears ERR and ERRCODE (70 R132, R133). -/
theorem State.assertReset_err (h : s.assertReset = .next t) : t.err = false ∧ t.errCode = .none := by
  obtain ⟨-, rfl⟩ := State.assertReset_next h
  exact ⟨rfl, rfl⟩

/-- The assertion of reset keeps the record: noting an abandoned command's reads can only add to it
(60 R121, 70 R133). -/
theorem State.assertReset_record (h : s.assertReset = .next t) : s.record <+: t.record := by
  obtain ⟨-, rfl⟩ := State.assertReset_next h
  simp only [State.resetUnit_record, State.forget_record]
  rcases s.noteAbandoned_cases with ⟨-, hsame⟩ | ⟨-, hlog⟩
  · rw [hsame]
  · rw [hlog]; exact List.prefix_append _ _

/-! ### The unit's step -/

/-- While ERR = 1 the command BUSY is CLRERR (10 R19, 60 R123). -/
theorem State.Inv.busy_of_err {op : Byte} (hinv : s.Inv) (herr : s.err = true)
    (hop : s.seq = .busy op) : op = 0x0F := by
  have hseq := hinv.handshake
  rw [hop] at hseq
  split at hseq
  · next hbusy =>
    cases hseq
    exact hinv.sticky hbusy herr
  · cases hseq

/-- The unit's step on CLRERR's byte clears ERR and ERRCODE (43 R117). -/
theorem unitStep_clrerr (s : State) : unitStep 0x0F s = .next s.clearErr.complete := by
  have hdecode : decode 0x0F = .ok .clrerr := decode_eq_ok_iff.mpr (by decide)
  rw [unitStep_ok hdecode, exec_clrerr]
  rfl

/-- The unit's step keeps the record: a command and an illegal byte only add to it (60 R121). -/
theorem unitStep_record {op : Byte} (h : unitStep op s = .next t) : s.record <+: t.record := by
  rcases unitStep_next h with ⟨i, u, -, he, rfl⟩ | ⟨e, -, rfl⟩
  · obtain ⟨l, hl, -⟩ := exec_record he
    exact ⟨l, hl.symm⟩
  · exact List.prefix_append _ _

end

/-- Settles O50: by the invariant the unit's step is CLRERR's; a turn of the host keeps the error state
unless it asserts reset. -/
theorem errorStateIsSticky : Obligations.ErrorStateIsSticky := by
  intro s t hinv herr h
  obtain ⟨-, ⟨op, hop, -, hunit⟩ | ⟨-, hhost⟩⟩ := step_next h
  · obtain rfl := hinv.busy_of_err herr hop
    cases (unitStep_clrerr s).symm.trans hunit
    exact .inr ⟨rfl, rfl, .inl hop⟩
  · rcases State.hostTurn_errorKept_or_assertReset hhost with hkept | ⟨rest, hscript, hreset⟩
    · exact .inl ⟨hkept.err.trans herr, hkept.errCode⟩
    · obtain ⟨hcleared, hcode⟩ := State.assertReset_err hreset
      exact .inr ⟨hcleared, hcode, .inr ⟨rest, hscript⟩⟩

/-- Settles O58: the record after a step begins with the one before it, whoever moves. -/
theorem faultRecordOnlyGrows : Obligations.FaultRecordOnlyGrows := by
  intro s t h
  have hbegins : s.record <+: t.record := by
    obtain ⟨-, ⟨op, -, -, hunit⟩ | ⟨-, hhost⟩⟩ := step_next h
    · exact unitStep_record hunit
    · rcases State.hostTurn_errorKept_or_assertReset hhost with hkept | ⟨rest, -, hreset⟩
      · exact hkept.record
      · exact (s.errorKept_taken rest).record.trans (State.assertReset_record hreset)
  obtain ⟨l, hl⟩ := hbegins
  exact ⟨l, hl.symm⟩

end Sys2Proof.Machine
end

section
/-! O48 and O49. The faults of the commands (60 R120, R121): the check each command makes of its
operands, and that a command sets ERR exactly when its check finds a fault. -/

namespace Sys2Proof.Machine

/-! ### The checks and the table -/

/-- The fault that a command's check of its operands finds: the zero divisor of DIVFX (40 R76), the
color of CLEAR and SETPIX (41 R82, R83), the checks of the spans (41 R80), of FILLTRI (42 R92) and of
SPAN2 (42 R107). The other commands check nothing. -/
def State.commandFault (s : State) : Instr → Option FaultCode
  | .divfx => if s.opbU8 = 0 then some .divZero else none
  | .clear | .setpix => if s.badColor then some .badColor else none
  | .spantop | .spandual => s.spanFault 0
  | .spanbot => s.spanFault 1
  | .filltri => s.fillFault
  | .span2 => s.span2Fault
  | .nop | .clrerr | .mulu8 | .muls8 | .muls8u8 | .muls16u8 | .getpix => none

/-- The table of 60 R120, without the reserved bytes. -/
def faultTable : List (Instr × FaultCode) :=
  [(.divfx, .divZero), (.clear, .badColor), (.setpix, .badColor),
    (.spantop, .badColor), (.spantop, .range), (.spantop, .parity),
    (.spanbot, .badColor), (.spanbot, .range), (.spanbot, .parity),
    (.spandual, .badColor), (.spandual, .range), (.spandual, .parity),
    (.span2, .badColor), (.span2, .range), (.span2, .parity),
    (.filltri, .badColor), (.filltri, .range)]

section
variable {s t : State} {i : Instr} {c : FaultCode}

/-! ### ERR is set exactly by a check that fails -/

theorem badColor_check_eq_some : (if s.badColor then some FaultCode.badColor else none) = some c ↔
    3 < s.color ∧ .badColor = c := by
  simp

/-- A command whose check fails raises what the check found, and does nothing else (60 R121). -/
theorem exec_of_commandFault (hf : s.commandFault i = some c) : exec i s = raised s i c := by
  cases i with
  | nop | clrerr | mulu8 | muls8 | muls8u8 | muls16u8 | getpix => cases hf
  | divfx =>
    obtain ⟨hzero, hc⟩ := Option.ite_none_right_eq_some.mp hf
    cases hc
    exact exec_divfx_zero (s.opbU8_eq_zero_iff.mp hzero)
  | clear =>
    obtain ⟨hcolor, rfl⟩ := badColor_check_eq_some.mp hf
    exact carryOut_raised (State.planClear_badColor hcolor)
  | setpix =>
    obtain ⟨hcolor, rfl⟩ := badColor_check_eq_some.mp hf
    exact carryOut_raised (State.planSetpix_badColor hcolor)
  | spantop =>
    exact carryOut_raised (by rw [State.planSpantop, show s.spanFault 0 = some c from hf])
  | spanbot =>
    exact carryOut_raised (by rw [State.planSpanbot, show s.spanFault 1 = some c from hf])
  | spandual =>
    exact carryOut_raised (by rw [State.planSpandual, show s.spanFault 0 = some c from hf])
  | filltri => exact execFilltri_raised hf
  | span2 => exact execSpan2_raised hf

theorem State.drawCells_err {ws : List CellWrite} (h : s.drawCells ws = .next t) :
    t.err = s.err := by
  obtain ⟨m, u, l, rfl⟩ := State.drawCells_eq h
  rfl

/-- A legal color leaves SETPIX nothing to raise (41 R83). -/
theorem State.exists_planSetpix_ok (h : s.color ≤ 3) : ∃ ws, s.planSetpix = .ok ws := by
  by_cases hin : s.p0 < 80 ∧ s.p1 < 50
  · exact ⟨_, State.planSetpix_ok h hin.1 hin.2⟩
  · exact ⟨[], State.planSetpix_outOfRange h (by omega)⟩

theorem execGetpix_err (h : exec .getpix s = .next t) : t.err = s.err := by
  simp only [exec, execGetpix] at h
  split_ifs at h
  · cases h
    obtain ⟨l, hl⟩ :=
      (s.noteReads (readSet .getpix)).noteByteRead_eq (s.pixelAddr s.p0 s.p1)
    simp [hl]
  · cases h; simp

/-- A command whose check passes does not set ERR. -/
theorem exec_err_of_commandFault_none (hf : s.commandFault i = none) (h : exec i s = .next t)
    (herr : s.err = false) : t.err = false := by
  have hplan : ∀ {ws : List CellWrite} {p : Plan}, p = .ok ws →
      (s.noteReads (readSet i)).carryOut p = .next t → t.err = false := by
    rintro ws p rfl hdraw
    rw [State.drawCells_err hdraw, State.noteReads_err, herr]
  have hcolor : (if s.badColor then some FaultCode.badColor else none) = none → s.color ≤ 3 := by
    simp
  cases i with
  | nop => cases h; exact herr
  | clrerr => cases h; rfl
  | mulu8 | muls8 | muls8u8 | muls16u8 => cases h; simpa using herr
  | divfx =>
    rw [exec_divfx_nonzero fun hzero => by
      simp [State.commandFault, s.opbU8_eq_zero_iff.mpr hzero] at hf] at h
    cases h
    simpa using herr
  | clear => exact hplan (State.planClear_ok (hcolor hf)) h
  | setpix =>
    obtain ⟨ws, hws⟩ := State.exists_planSetpix_ok (hcolor hf)
    exact hplan hws h
  | getpix => rw [execGetpix_err h, herr]
  | spantop => exact hplan (State.planSpantop_ok (State.spanFault_none.mp hf)) h
  | spanbot => exact hplan (State.planSpanbot_ok (State.spanFault_none.mp hf)) h
  | spandual => exact hplan (State.planSpandual_ok (State.spanFault_none.mp hf)) h
  | filltri =>
    simp only [exec, execFilltri, show s.fillFault = none from hf] at h
    split at h
    · next u hdraw =>
      cases h
      rw [State.endFill_err, State.drawCells_err hdraw, State.noteReads_err, herr]
    · cases h
    · cases h
  | span2 =>
    obtain ⟨hc, h1, h0, h2, h4, h5, heven⟩ := State.span2Fault_none.mp hf
    exact hplan (State.planSpan2_ok ⟨hc, h1, h0, h2, heven⟩ h4 h5) h

/-- A command that sets ERR has raised what its check found. -/
theorem exec_sets_err (h : exec i s = .next t) (herr : s.err = false) (hset : t.err = true) :
    ∃ c, s.commandFault i = some c ∧ raised s i c = .next t := by
  cases hf : s.commandFault i with
  | none => simp [exec_err_of_commandFault_none hf h herr] at hset
  | some c => exact ⟨c, rfl, (exec_of_commandFault hf).symm.trans h⟩

/-! ### The checks find the faults of the table (60 R120) -/

theorem State.spanFault_mem {par : Nat} (h : s.spanFault par = some c) :
    c ∈ [FaultCode.badColor, .range, .parity] := by
  unfold State.spanFault at h
  split_ifs at h <;> cases h <;> decide

theorem State.span2Fault_mem (h : s.span2Fault = some c) :
    c ∈ [FaultCode.badColor, .range, .parity] := by
  unfold State.span2Fault at h
  split_ifs at h <;> cases h <;> decide

theorem State.fillFault_mem (h : s.fillFault = some c) : c ∈ [FaultCode.badColor, .range] := by
  unfold State.fillFault at h
  split_ifs at h <;> cases h <;> decide

/-- The rows of the table, command by command. -/
theorem mem_faultTable_of_spanFault : ∀ i ∈ [Instr.spantop, .spanbot, .spandual, .span2],
    ∀ c ∈ [FaultCode.badColor, .range, .parity], (i, c) ∈ faultTable := by
  decide

theorem mem_faultTable_of_fillFault :
    ∀ c ∈ [FaultCode.badColor, .range], (Instr.filltri, c) ∈ faultTable := by
  decide

theorem commandFault_mem_faultTable (hf : s.commandFault i = some c) : (i, c) ∈ faultTable := by
  cases i with
  | nop | clrerr | mulu8 | muls8 | muls8u8 | muls16u8 | getpix => cases hf
  | divfx =>
    obtain ⟨-, hc⟩ := Option.ite_none_right_eq_some.mp hf
    cases hc
    decide
  | clear | setpix =>
    obtain ⟨-, rfl⟩ := badColor_check_eq_some.mp hf
    decide
  | spantop | spanbot | spandual =>
    exact mem_faultTable_of_spanFault _ (by decide) c (State.spanFault_mem hf)
  | filltri => exact mem_faultTable_of_fillFault c (State.fillFault_mem hf)
  | span2 => exact mem_faultTable_of_spanFault _ (by decide) c (State.span2Fault_mem hf)

end

/-- No row of the table is the code 0x00. -/
theorem faultTable_ne_none : ∀ p ∈ faultTable, p.2 ≠ .none := by decide

/-- A state for each row of the table: one operand of the launch state is made illegal. The divisor and
the scanline of SPANBOT are illegal as they stand. -/
def faultingState : Instr × FaultCode → State
  | (_, .badColor) => State.reset.setData .color 4
  | (_, .range) => State.reset.setData .p0 81
  | (.spanbot, .parity) => State.reset
  | (_, .parity) => State.reset.setData .p1 1
  | (_, .divZero) | (_, .illegalCmd) | (_, .none) => State.reset

/-- In its state every row of the table is what the check finds. -/
theorem faultingState_faults : ∀ p ∈ faultTable,
    (faultingState p).err = false ∧ (faultingState p).commandFault p.1 = some p.2 := by
  decide

/-- Settles O48: a command that sets ERR has the outcome `raised`, whose record ends in the fault. -/
theorem faultsArePrecise : Obligations.FaultsArePrecise := by
  intro i s t h herr hset
  obtain ⟨c, hf, hraised⟩ := exec_sets_err h herr hset
  cases hraised
  exact ⟨rfl, faultTable_ne_none _ (commandFault_mem_faultTable hf), by simp⟩

/-- Settles O49: a command sets ERR exactly when its check finds a fault, a check finds only faults of
the table, and for each of them there is a state in which it does. -/
theorem commandsRaiseExactlyTheListedFaults : Obligations.CommandsRaiseExactlyTheListedFaults := by
  refine ⟨fun i c => ⟨?_, fun hrow => ?_⟩, fun op e s he => unitStep_error he s⟩
  · rintro ⟨s, t, herr, h, hset, rfl⟩
    obtain ⟨c, hf, hraised⟩ := exec_sets_err h herr hset
    cases hraised
    exact commandFault_mem_faultTable hf
  · obtain ⟨herr, hf⟩ := faultingState_faults (i, c) hrow
    exact ⟨faultingState (i, c), _, herr, exec_of_commandFault hf, rfl, rfl⟩

end Sys2Proof.Machine
end

section
/-! O15. The host's turn on an operation that is a hazard (70 R132, R137, R139): it takes the operation and
records it, and the step after it stops. -/

namespace Sys2Proof.Machine

section
variable {s t : State} {op : HostOp} {rest : List HostOp} {off : Offset} {a : Addr} {v : Byte}
  {pos : Nat}

/-! ### Accesses that are hazards -/

theorem State.mustWait_iff : s.mustWait = true ↔ s.busy = true ∨ s.awaiting = true := by
  simp [State.mustWait]

/-- Under reset, and while a completion is awaited, a register write is a hazard (70 R132, R137). -/
theorem State.hostWrite_hazard (h : s.inReset = true ∨ s.mustWait = true) :
    s.hostWrite off v pos = s.hazard pos :=
  if_pos (by simpa using h)

/-- Under reset every register read is a hazard, and while a completion is awaited every read but that
of STATUS (70 R132, R137). -/
theorem State.hostRead_hazard (h : s.inReset = true ∨ s.mustWait = true ∧ off ≠ 0x01) :
    s.hostRead off pos = (s.hazard pos).observe none := by
  unfold State.hostRead
  split
  · rfl
  · next hreset =>
    obtain ⟨hwait, hoff⟩ := h.resolve_left hreset
    have hstatus : off ≠ Reg.status.offset := hoff
    rw [if_neg hstatus, if_pos hwait]

/-- A memory access is a hazard under reset, and inside the framebuffer region while a completion is
awaited (70 R137, R139; log 25). -/
theorem State.memHazard_iff : s.memHazard a = true ↔
    s.inReset = true ∨ s.mustWait = true ∧ inRegion s.fbbase a = true := by
  simp [State.memHazard]

/-- An access that is a hazard is none to the platform's ranges, wherever it goes (70 R145; log 5). -/
theorem State.offRam_of_memHazard (h : s.memHazard a = true) : s.offRam a = false := by
  simp [State.offRam, h]

theorem State.hostWriteMem_hazard (h : s.memHazard a = true) :
    s.hostWriteMem a v pos = s.hazard pos := if_pos h

theorem State.hostReadMem_hazard (h : s.memHazard a = true) :
    s.hostReadMem a pos = (s.hazard pos).observe none := if_pos h

/-! ### The step that meets a hazard -/

/-- The step takes the host's operation as a hazard: recorded, and observed as no value if it is a read
(70 R137; log 1). -/
def State.StepsIntoHazard (s : State) (rest : List HostOp) : Prop :=
  step s = .next ((s.taken rest).hazard s.pos) ∨
    step s = .next (((s.taken rest).hazard s.pos).observe none)

theorem State.stepsIntoHazard_write (hturn : s.hostsTurn) (hs : s.script = op :: rest)
    (hop : s.cfg.resolve op = .write off v) (h : s.inReset = true ∨ s.mustWait = true) :
    s.StepsIntoHazard rest :=
  .inl ((step_write hturn hs hop).trans (congrArg _ (State.hostWrite_hazard (s := s.taken rest) h)))

theorem State.stepsIntoHazard_read (hturn : s.hostsTurn) (hs : s.script = op :: rest)
    (hop : s.cfg.resolve op = .read off) (h : s.inReset = true ∨ s.mustWait = true ∧ off ≠ 0x01) :
    s.StepsIntoHazard rest :=
  .inr ((step_read hturn hs hop).trans (congrArg _ (State.hostRead_hazard (s := s.taken rest) h)))

theorem State.stepsIntoHazard_writeMem (hturn : s.hostsTurn) (hs : s.script = op :: rest)
    (hop : s.cfg.resolve op = .writeMem a v) (h : s.memHazard a = true) : s.StepsIntoHazard rest :=
  .inl ((step_writeMem hturn hs hop (State.offRam_of_memHazard h)).trans
    (congrArg _ (State.hostWriteMem_hazard (s := s.taken rest) h)))

theorem State.stepsIntoHazard_readMem (hturn : s.hostsTurn) (hs : s.script = op :: rest)
    (hop : s.cfg.resolve op = .readMem a) (h : s.memHazard a = true) : s.StepsIntoHazard rest :=
  .inr ((step_readMem hturn hs hop (State.offRam_of_memHazard h)).trans
    (congrArg _ (State.hostReadMem_hazard (s := s.taken rest) h)))

/-- Under reset a `wait` is the STATUS read that 70 R132 forbids. -/
theorem State.stepsIntoHazard_wait (hturn : s.hostsTurn) (hs : s.script = op :: rest)
    (hop : s.cfg.resolve op = .wait) (hreset : s.inReset = true) : s.StepsIntoHazard rest := by
  have hread : s.hostTurn = .next ((s.taken rest).hostRead Reg.status.offset s.pos) := by
    simp [State.hostTurn, hs, hop, hreset]
  exact .inr ((step_hostsTurn hturn).trans (hread.trans
    (congrArg _ (State.hostRead_hazard (s := s.taken rest) (.inl hreset)))))

/-- No memory access resolves to the release of reset (10 R16). -/
theorem Config.resolve_eq_releaseReset {c : Config} (h : c.resolve op = .releaseReset) :
    op = .releaseReset := by
  cases op with
  | releaseReset => rfl
  | write | read | wait | assertReset => cases h
  | writeMem | readMem =>
    simp only [Config.resolve] at h
    split at h <;> cases h

/-- While reset is asserted every operation but its two edges is a hazard (70 R132; log 25). -/
theorem State.stepsIntoHazard_of_inReset (hturn : s.hostsTurn) (hs : s.script = op :: rest)
    (hreset : s.inReset = true) (hassert : op ≠ .assertReset) (hrelease : op ≠ .releaseReset) :
    s.StepsIntoHazard rest := by
  cases hop : s.cfg.resolve op with
  | write off v => exact State.stepsIntoHazard_write hturn hs hop (.inl hreset)
  | read off => exact State.stepsIntoHazard_read hturn hs hop (.inl hreset)
  | writeMem a v =>
    exact State.stepsIntoHazard_writeMem hturn hs hop (State.memHazard_iff.mpr (.inl hreset))
  | readMem a =>
    exact State.stepsIntoHazard_readMem hturn hs hop (State.memHazard_iff.mpr (.inl hreset))
  | wait => exact State.stepsIntoHazard_wait hturn hs hop hreset
  | assertReset => exact absurd (Config.resolve_eq_assertReset hop) hassert
  | releaseReset => exact absurd (Config.resolve_eq_releaseReset hop) hrelease

/-! ### The step after a hazard -/

/-- With a hazard last in the record the machine stops (70 R145; log 1). -/
theorem step_after_hazard {r : List RecordEntry}
    (h : t.record = r ++ [{ kind := .hostHazard, pos := pos }]) : step t = .fault .afterHostHazard :=
  if_pos (by simp [State.hazarded, h])

/-- A step into a hazard changes the record, and what a read observes; the next one stops. -/
theorem State.StepsIntoHazard.recorded (h : s.StepsIntoHazard rest) :
    ∃ t, step s = .next t ∧
      t = { s with
            script := rest, pos := s.pos + 1, turns := s.turns - 1, obs := t.obs
            record := s.record ++ [{ kind := .hostHazard, pos := s.pos }] } ∧
      (t.obs = s.obs ∨ t.obs = s.obs ++ [none]) ∧
      step t = .fault .afterHostHazard := by
  rcases h with h | h
  · exact ⟨_, h, rfl, .inl rfl, step_after_hazard rfl⟩
  · exact ⟨_, h, rfl, .inr rfl, step_after_hazard rfl⟩

end

/-- Settles O15: each access out of reset by what it resolves to, and every operation under reset. -/
theorem hostHazardIsRecordedAndStops : Obligations.HostHazardIsRecordedAndStops := by
  intro s op rest hturn hs h
  refine State.StepsIntoHazard.recorded ?_
  rcases h with ⟨-, hpending, haccess⟩ | ⟨hreset, hassert, hrelease⟩
  · have hwait := State.mustWait_iff.mpr hpending
    rcases haccess with ⟨off, v, hop⟩ | ⟨off, hop, hoff⟩ | ⟨a, v, hop, hregion⟩ | ⟨a, hop, hregion⟩
    · exact State.stepsIntoHazard_write hturn hs hop (.inr hwait)
    · exact State.stepsIntoHazard_read hturn hs hop (.inr ⟨hwait, hoff⟩)
    · exact State.stepsIntoHazard_writeMem hturn hs hop
        (State.memHazard_iff.mpr (.inr ⟨hwait, hregion⟩))
    · exact State.stepsIntoHazard_readMem hturn hs hop
        (State.memHazard_iff.mpr (.inr ⟨hwait, hregion⟩))
  · exact State.stepsIntoHazard_of_inReset hturn hs hreset hassert hrelease

end Sys2Proof.Machine
end

section
/-! O19. Reset abandons the BUSY command (70 R132, R133, R146): the cells of each command's plan, and the
state that the assertion of reset leaves. -/

namespace Sys2Proof.Machine

section
variable {s : State} {op : Byte} {i : Instr} {f : Nat → Nat → Bool}

/-! ### The abandoned cells are those of the command's plan -/

/-- The plan of a command that writes memory; every other command has no cell to write (20 R42). -/
def State.drawPlan (s : State) : Instr → Plan
  | .clear => s.planClear
  | .setpix => s.planSetpix
  | .spantop => s.planSpantop
  | .spanbot => s.planSpanbot
  | .spandual => s.planSpandual
  | .filltri => s.planFilltri
  | .span2 => s.planSpan2
  | .nop | .clrerr | .mulu8 | .muls8 | .muls8u8 | .muls16u8 | .divfx | .getpix => .ok []

/-- The cell writes of a plan, none if it faults. -/
def planCells : Plan → List CellWrite
  | .ok ws => ws
  | .error _ => []

theorem State.abandoned_of_busy (hs : s.seq = .busy op) (hd : decode op = .ok i) :
    s.abandoned = planCells (s.drawPlan i) := by
  unfold State.abandoned
  rw [hs]
  cases i <;> simp only [hd] <;> rfl

/-- A command that would write these cells abandons them. -/
theorem State.abandoned_of_plan {ws : List CellWrite} (hs : s.seq = .busy op)
    (hd : decode op = .ok i) (hp : s.drawPlan i = .ok ws) : s.abandoned = ws := by
  rw [State.abandoned_of_busy hs hd, hp, planCells]

/-- A drawing command whose check fails has no plan but its fault. -/
theorem State.drawPlan_of_commandFault {c : FaultCode} (hw : writesMemory i = true)
    (hf : s.commandFault i = some c) : s.drawPlan i = .error c := by
  cases i with
  | nop | clrerr | mulu8 | muls8 | muls8u8 | muls16u8 | divfx | getpix => cases hw
  | clear =>
    obtain ⟨hcolor, rfl⟩ := badColor_check_eq_some.mp hf
    exact State.planClear_badColor hcolor
  | setpix =>
    obtain ⟨hcolor, rfl⟩ := badColor_check_eq_some.mp hf
    exact State.planSetpix_badColor hcolor
  | spantop | spanbot | spandual | filltri | span2 =>
    simp only [State.commandFault] at hf
    simp only [State.drawPlan, State.planSpantop, State.planSpanbot, State.planSpandual,
      State.planFilltri, State.planSpan2, hf]

/-- A command that would fault abandons no cell (70 R146). -/
theorem State.abandoned_of_fault (hs : s.seq = .busy op) (hd : decode op = .ok i)
    (hf : s.commandFault i ≠ none) : s.abandoned = [] := by
  by_contra hne
  obtain ⟨op', i', hs', hd', hw⟩ := State.abandoned_ne_nil hne
  cases hs.symm.trans hs'
  cases hd.symm.trans hd'
  obtain ⟨c, hc⟩ := Option.ne_none_iff_exists'.mp hf
  rw [State.abandoned_of_busy hs hd, State.drawPlan_of_commandFault hw hc] at hne
  exact hne rfl

theorem State.commandFault_clear_ne_none (h : 3 < s.color) : s.commandFault .clear ≠ none := by
  simp [State.commandFault, h]

theorem State.commandFault_setpix_ne_none (h : 3 < s.color) : s.commandFault .setpix ≠ none :=
  State.commandFault_clear_ne_none h

/-- Only the bytes of the commands that write memory leave cells (20 R42, 70 R146). -/
theorem State.abandoned_eq_nil (h : s.seq = .idle ∨
    ∃ op, s.seq = .busy op ∧ op ∉ ([0x20, 0x21, 0x23, 0x24, 0x25, 0x30, 0x31] : List Byte)) :
    s.abandoned = [] := by
  have hrows : ∀ p ∈ opcodeTable, writesMemory p.2 = true →
      p.1 ∈ ([0x20, 0x21, 0x23, 0x24, 0x25, 0x30, 0x31] : List Byte) := by decide
  by_contra hne
  obtain ⟨op, i, hs, hd, hw⟩ := State.abandoned_ne_nil hne
  rcases h with hidle | ⟨op', hs', hop⟩
  · cases hidle.symm.trans hs
  · cases hs.symm.trans hs'
    exact hop (hrows (op, i) (decode_eq_ok_iff.mp hd) hw)

/-! ### The cells of each drawing command (20 R48, 70 R146) -/

theorem abandonsCells_clear (hs : s.seq = .busy 0x20) (hcolor : s.color ≤ 3) :
    AbandonsCells s fun x y => decide (x < 80) && decide (y < 50) :=
  abandonsCells_of_cells (State.abandoned_of_plan hs rfl (State.planClear_ok hcolor))
    (by simp [bothRows]) (by simp)
    fun _ hoff => (maskAt_clear hoff).trans (slotsOf_screen hoff).symm

theorem abandonsCells_setpix (hs : s.seq = .busy 0x21) (hcolor : s.color ≤ 3) (hx : s.p0 < 80)
    (hy : s.p1 < 50) : AbandonsCells s fun x y => decide (x = s.p0) && decide (y = s.p1) := by
  have hplan := State.planSetpix_ok hcolor hx hy
  rw [← rowCells_pixel] at hplan
  rw [← inRow_pixel]
  exact abandonsCells_of_cells (State.abandoned_of_plan hs rfl hplan) rowCells_mask
    (spanCells_off hy hx) fun _ => maskAt_rowCells hy hx

/-- A SETPIX that would fault or is out of range abandons no cell (41 R83). -/
theorem abandoned_setpix_eq_nil (hs : s.seq = .busy 0x21)
    (h : 3 < s.color ∨ 80 ≤ s.p0 ∨ 50 ≤ s.p1) : s.abandoned = [] := by
  by_cases hcolor : 3 < s.color
  · exact State.abandoned_of_fault hs rfl (State.commandFault_setpix_ne_none hcolor)
  · exact State.abandoned_of_plan hs rfl
      (State.planSetpix_outOfRange (Nat.le_of_not_lt hcolor) (h.resolve_left hcolor))

/-- A plan of one row abandons the cells of the row (41 R85, R86). -/
theorem abandonsCells_row {par : Nat} (ha : s.abandoned = rowCells s.p1 s.p0 s.p2)
    (hlegal : spanLegal s par) : AbandonsCells s (inRow s.p1 s.p0 s.p2) := by
  obtain ⟨hy, hxr, -⟩ := hlegal.bounds
  exact abandonsCells_of_cells ha rowCells_mask (spanCells_off hy hxr) fun _ => maskAt_rowCells hy hxr

theorem abandonsCells_spandual (hs : s.seq = .busy 0x25) (hlegal : spanLegal s 0) :
    AbandonsCells s fun x y => inRow s.p1 s.p0 s.p2 x y || inRow (s.p1 + 1) s.p0 s.p2 x y := by
  obtain ⟨hy, hxr, heven⟩ := hlegal.bounds
  exact abandonsCells_of_cells (State.abandoned_of_plan hs rfl (State.planSpandual_ok hlegal))
    dualCells_mask (spanCells_off hy hxr) fun _ => maskAt_dualCells hy heven hxr

theorem abandonsCells_span2 (hs : s.seq = .busy 0x31) (hlegal : spanLegal s 0) (h4 : s.p4 ≤ 80)
    (h5 : s.p5 ≤ 80) :
    AbandonsCells s fun x y => inRow s.p1 s.p0 s.p2 x y || inRow (s.p1 + 1) s.p4 s.p5 x y := by
  obtain ⟨hy, hxr, heven⟩ := hlegal.bounds
  exact abandonsCells_of_cells (State.abandoned_of_plan hs rfl (State.planSpan2_ok hlegal h4 h5))
    dispatchCells_mask (dispatchCells_off hy heven hxr h5)
    fun _ => maskAt_dispatchCells hy heven hxr h5

/-- A SPAN2 that fails one of its checks abandons no cell (42 R107). -/
theorem abandoned_span2_eq_nil (hs : s.seq = .busy 0x31)
    (h : ¬spanLegal s 0 ∨ 80 < s.p4 ∨ 80 < s.p5) : s.abandoned = [] := by
  refine State.abandoned_of_fault hs rfl fun hnone => ?_
  obtain ⟨hcolor, h1, h0, h2, h4, h5, heven⟩ := State.span2Fault_none.mp hnone
  exact h.elim (fun hill => hill ⟨hcolor, h1, h0, h2, heven⟩) (by omega)

/-- The plan of legal vertices is the fill's cell writes (42 R93). -/
theorem State.planFilltri_ok (hlegal : fillLegal s) : s.planFilltri = .ok s.fill.2 := by
  simp only [State.planFilltri, State.fillFault_none.mpr hlegal]

theorem abandonsCells_filltri (hs : s.seq = .busy 0x30) (hlegal : fillLegal s)
    (harea : 0 < signedArea s.vertexA s.vertexB s.vertexC) :
    AbandonsCells s (inTriangle s.cfg.halfSlope s.vertexA s.vertexB s.vertexC) := by
  have hcells := State.abandoned_of_plan hs rfl (State.planFilltri_ok hlegal)
  rw [State.fill_drawn harea] at hcells
  obtain ⟨-, h0, h2, h4, h1, h3, h5⟩ := hlegal
  have hspec := fun off (hoff : off < 1000) => fillWalk_spec s.fbbase hoff s.edge s.cfg.halfSlope
    (a := s.vertexA) (b := s.vertexB) (c := s.vertexC) h0 h2 h4 h1 h3 h5
  exact abandonsCells_of_cells hcells (fillWalk_mask _ _ _ _ _) (hspec 0 (by decide)).2
    fun off hoff => (hspec off hoff).1

/-- A FILLTRI that fails its checks or is culled abandons no cell (42 R92, R94). -/
theorem abandoned_filltri_eq_nil (hs : s.seq = .busy 0x30)
    (h : ¬fillLegal s ∨ signedArea s.vertexA s.vertexB s.vertexC ≤ 0) : s.abandoned = [] := by
  by_cases hlegal : fillLegal s
  · rw [State.abandoned_of_plan hs rfl (State.planFilltri_ok hlegal),
      State.fill_culled (h.resolve_left (not_not_intro hlegal))]
  · exact State.abandoned_of_fault hs rfl (mt State.fillFault_none.mp hlegal)

/-! ### The state under reset (70 R133) -/

/-- The bytes of the abandoned command's cells. -/
def State.abandonedAddrs (s : State) : List Nat := s.abandoned.map fun w => cellAddr s.fbbase w.off

theorem State.mem_abandonedAddrs {a : Nat} :
    a ∈ s.abandonedAddrs ↔ ∃ w ∈ s.abandoned, cellAddr s.fbbase w.off = a := List.mem_map

theorem State.abandonedAddrs_lt (s : State) : ∀ a ∈ s.abandonedAddrs, a < 65536 :=
  List.forall_mem_map.mpr fun w _ => cellAddr_lt s.fbbase w.off

/-- What the assertion of reset leaves. -/
def State.underReset (s : State) : State :=
  { (s.noteAbandoned.forget s.abandonedAddrs).resetUnit with inReset := true }

theorem State.assertReset_eq (h : s.abandoned = [] ∨ s.misplaced = false) :
    s.assertReset = .next s.underReset :=
  if_neg fun ⟨hcells, hmis⟩ => h.elim hcells fun hplace => by simp [hplace] at hmis

/-- The unit's state is that of 70 R133; memory, the unknown bytes, the record and the draws are
given apart. -/
theorem State.underReset_eq (s : State) :
    s.underReset = { s with
      seq := .idle, lastCmd := 0x00, busy := false, err := false, errCode := .none
      triRes := .noneYet, regs := .reset, res := 0, resWritten := false, edge := .reset
      mem := s.underReset.mem, unknown := s.underReset.unknown, inReset := true
      awaiting := false, turns := 0, draws := s.underReset.draws
      record := s.underReset.record } := by
  obtain ⟨hframe, -⟩ := State.forget_spec s.abandonedAddrs s.noteAbandoned s.abandonedAddrs_lt
  unfold State.underReset
  generalize s.noteAbandoned.forget s.abandonedAddrs = t at hframe ⊢
  rw [hframe, State.noteAbandoned_eq]
  rfl

/-- The bytes that become unknown are those of the abandoned cells (70 R146). -/
theorem State.mem_underReset_unknown (s : State) (a : Nat) :
    a ∈ s.underReset.unknown ↔ (∃ w ∈ s.abandoned, cellAddr s.fbbase w.off = a) ∨ a ∈ s.unknown := by
  obtain ⟨-, -, -, hunknown, -⟩ :=
    State.forget_spec s.abandonedAddrs s.noteAbandoned s.abandonedAddrs_lt
  have h := hunknown a
  rwa [State.noteAbandoned_unknown, State.mem_abandonedAddrs] at h

/-- Every other byte keeps its value (70 R133). -/
theorem State.read_underReset (s : State) {a : Nat}
    (h : ∀ w ∈ s.abandoned, cellAddr s.fbbase w.off ≠ a) :
    Mem.read s.underReset.mem a = Mem.read s.mem a := by
  obtain ⟨-, -, -, -, hread⟩ :=
    State.forget_spec s.abandonedAddrs s.noteAbandoned s.abandonedAddrs_lt
  have hkept := hread a fun ha => by
    obtain ⟨w, hw, haddr⟩ := State.mem_abandonedAddrs.mp ha
    exact h w hw haddr
  rwa [State.noteAbandoned_mem] at hkept

theorem State.underReset_mem_of_idle (h : s.seq = .idle) : s.underReset.mem = s.mem := by
  have hforget : s.underReset.mem = (s.noteAbandoned.forget s.abandonedAddrs).mem := rfl
  rw [hforget, State.abandonedAddrs, State.abandoned_eq_nil (.inl h)]
  exact s.noteAbandoned_mem

theorem State.underReset_record (s : State) : s.underReset.record = s.noteAbandoned.record :=
  State.forget_record _ _

/-- Unless a drawing command reads an unmarked register the record is kept (70 R133; log 12). -/
theorem State.underReset_record_of_placed (h : ¬s.AbandonsUnplaced) :
    s.underReset.record = s.record := by
  obtain ⟨-, hsame⟩ := s.noteAbandoned_cases.resolve_right fun ⟨hun, _⟩ => h hun
  rw [State.underReset_record, hsame]

theorem State.underReset_record_of_unplaced (h : s.AbandonsUnplaced) :
    s.underReset.record = s.record ++ [{ kind := .uninit, pos := s.cmdPos }] := by
  obtain ⟨-, hlog⟩ := s.noteAbandoned_cases.resolve_left fun ⟨hplaced, _⟩ => hplaced h
  rw [State.underReset_record, hlog, State.log_record]

/-! ### The two edges of reset as steps -/

theorem step_assertReset {rest : List HostOp} (hturn : s.hostsTurn)
    (hs : s.script = .assertReset :: rest) (h : s.abandoned = [] ∨ s.misplaced = false) :
    step s = .next (s.taken rest).underReset := by
  have hreset : s.hostTurn = (s.taken rest).assertReset := by
    simp only [State.hostTurn, hs, Config.resolve]
  rw [step_hostsTurn hturn, hreset]
  exact State.assertReset_eq (s := s.taken rest) h

/-- The release of reset only ends it (70 R132; log 22). -/
theorem step_releaseReset {rest : List HostOp} (hturn : s.hostsTurn)
    (hs : s.script = .releaseReset :: rest) :
    step s = .next { s.taken rest with inReset := false } := by
  rw [step_hostsTurn hturn]
  simp only [State.hostTurn, hs, Config.resolve]

end

/-- Settles O19: the state under reset, the cells of each command by its plan, and the release. -/
theorem resetAbandonsTheCommand : Obligations.ResetAbandonsTheCommand := by
  refine ⟨fun s rest hturn hs hplace => ?_, fun s => ⟨fun hs => ?_, fun hs => ?_, fun hs => ?_,
    fun hs => ?_, fun hs => ?_, fun hs => ?_, fun hs => ?_, State.abandoned_eq_nil⟩,
    fun s rest hturn hs => step_releaseReset hturn hs⟩
  · -- The assertion: the unit's reset state over memory with the abandoned cells forgotten.
    refine ⟨_, step_assertReset hturn hs hplace, (s.taken rest).underReset_eq,
      DataRegs.reset_written, (s.taken rest).mem_underReset_unknown,
      fun a => (s.taken rest).read_underReset,
      fun hidle => State.underReset_mem_of_idle (s := s.taken rest) hidle,
      fun h => State.underReset_record_of_placed (s := s.taken rest) h,
      fun h => State.underReset_record_of_unplaced (s := s.taken rest) h⟩
  · exact ⟨abandonsCells_clear hs,
      fun h => State.abandoned_of_fault hs rfl (State.commandFault_clear_ne_none h)⟩
  · exact ⟨abandonsCells_setpix hs, abandoned_setpix_eq_nil hs⟩
  · exact ⟨fun hlegal => abandonsCells_row (State.abandoned_of_plan hs rfl
        (State.planSpantop_ok hlegal)) hlegal,
      fun h => State.abandoned_of_fault hs rfl (mt State.spanFault_none.mp h)⟩
  · exact ⟨fun hlegal => abandonsCells_row (State.abandoned_of_plan hs rfl
        (State.planSpanbot_ok hlegal)) hlegal,
      fun h => State.abandoned_of_fault hs rfl (mt State.spanFault_none.mp h)⟩
  · exact ⟨abandonsCells_spandual hs,
      fun h => State.abandoned_of_fault hs rfl (mt State.spanFault_none.mp h)⟩
  · exact ⟨abandonsCells_span2 hs, abandoned_span2_eq_nil hs⟩
  · exact ⟨abandonsCells_filltri hs, abandoned_filltri_eq_nil hs⟩

end Sys2Proof.Machine
end
